-- ==== Sys2Proof/Word.lean ====
section
/-! DEFINITION. The two bit-vector widths of the block: 32-bit words and 8-bit bytes (spec/00_scope.md R10). -/

namespace Sys2Proof

/-- A host data word, a host offset, a pixel word, a CSR: 32 bits (R10). -/
abbrev Word := BitVec 32

/-- A payload byte: 8 bits (R10). -/
abbrev Byte := BitVec 8

end Sys2Proof
end

