-- ==== Sys2Proof/Syntax.lean ====
section
/-! DEFINITION. What the block and its host say to each other: the four commands (spec/30_encoding.md R122), the
bus transactions and responses (20_memory.md R85), the events that drive one step (20_memory.md R100), the closed
sets the source asks to be matched exhaustively (encodings, modes, error kinds), and the host-program notation
(30_encoding.md R128, R130). -/

namespace Sys2Proof

/-- The commands: one constructor per row of spec/opcode_table.json. No command word carries an operand (R124). -/
inductive Instr where
  | cap
  | embed
  | extract
  | index
  deriving DecidableEq, Repr

/-- The fields of a command word (R120): OPCODE in bits 7..0, RSVD in bits 31..8. -/
structure CmdFields where
  opcode : BitVec 8
  rsvd   : BitVec 24
  deriving DecidableEq, Repr

/-- The text encodings `CFG.ENC` names (10_state.md R40). -/
inductive TextEncoding where
  | utf16
  | utf8
  | ascii7
  deriving DecidableEq, Repr

/-- The embedding modes `CFG.MODE` names (10_state.md R41). -/
inductive Mode where
  | replace
  | xorSource
  deriving DecidableEq, Repr

/-- The error kinds of 60_exceptions.md R281. `sourceUnavailable` keeps its code and is never raised by the block. -/
inductive ErrKind where
  | none
  | payloadTooLarge
  | unsupportedChannelLayout
  | decodingError
  | sourceUnavailable
  | illegalCommand
  | illegalConfig
  | geometryRange
  | lengthRange
  deriving DecidableEq, Repr

/-- The three memories (10_state.md R57, R58, R59). -/
inductive MemId where
  | pix
  | ref
  | pay
  deriving DecidableEq, Repr

/-- The named control and status registers of 10_state.md R32. -/
inductive Csr where
  | id
  | version
  | cmd
  | status
  | irqEn
  | cfg
  | geom
  | length
  | capacity
  | errCode
  | errInfo
  | bitcnt
  | idxIn
  | idxPixel
  | idxLane
  | pixDepth
  | payDepth
  deriving DecidableEq, Repr

/-- READ or WRITE (20_memory.md R85). -/
inductive BusKind where
  | read
  | write
  deriving DecidableEq, Repr

/-- A host transaction `(kind, off, size, wdata)` (20_memory.md R85). `wdata` is used by writes only. -/
structure BusTxn where
  kind  : BusKind
  off   : Word
  size  : Nat
  wdata : Word
  deriving DecidableEq, Repr

/-- The answer to a host transaction (20_memory.md R85): OKAY, with data for a read, or SLVERR, which returns no
data (R86). -/
inductive BusResp where
  | readOkay (rdata : Word)
  | writeOkay
  | slverr
  deriving DecidableEq, Repr

/-- One entry of the total order of atomic steps (20_memory.md R100): a host transaction, the engine's turn, or a
reset. `poll` is the host's POLL statement (30_encoding.md R128), a read repeated until its data matches. -/
inductive Event where
  | bus (t : BusTxn)
  | poll (off mask val : Word)
  | engine
  | reset
  deriving DecidableEq, Repr

/-- The statements of a host program (30_encoding.md R128, R130): three base statements and the pseudo-statements.
Numbers are written as naturals, as the notation writes them; WellFormed.lean says which are in range. -/
inductive HostStmt where
  | wr (off v : Word)
  | rd (off : Word) (name : String)
  | poll (off mask val : Word)
  | cmd (i : Instr)
  | setcfg (bd enc mode : Nat)
  | setgeom (w h : Nat)
  | wait
  | ack
  | loadpix (p : Nat) (vs : List Word)
  | loadref (p : Nat) (vs : List Word)
  | loadpay (bs : List Byte)
  deriving DecidableEq, Repr

end Sys2Proof
end

