-- ==== Sys2Proof/Config.lean ====
section
/-! DEFINITION. What an implementation fixes and what the spec leaves open: the two size parameters
(spec/00_scope.md R9, 92_eei_decisions.md D4) and the contents of the memories at power-up (10_state.md R66,
93_implementation_defined.md U12). Both are constants WITHOUT A BODY: no proof can see their values (log 1, log 2). -/

namespace Sys2Proof

/-- The size parameters of a build (R9). They are held as the index of the last word of each memory, so that every
value of this type is a legal size: `PIX_DEPTH` from 1 to 2^26 words, `PAY_DEPTH` a multiple of 4 from 4 to 2^28
bytes (2^26 = 67108864). -/
structure Params where
  pixLast : Fin 67108864
  payLast : Fin 67108864
  deriving DecidableEq, Repr

/-- `PIX_DEPTH`: the number of 32-bit words of PIXMEM, and of REFMEM (R9). -/
def Params.pixDepth (p : Params) : Nat := p.pixLast.val + 1

/-- `PAY_DEPTH`: the number of bytes of PAYMEM (R9). -/
def Params.payDepth (p : Params) : Nat := 4 * (p.payLast.val + 1)

/-- The index of this build's last PIXMEM word: a parameter the spec leaves OPEN (D4, log 2). -/
opaque Config.pixLast : Fin 67108864

/-- The index of this build's last PAYMEM word: a parameter the spec leaves OPEN (D4, log 2). -/
opaque Config.payLast : Fin 67108864

/-- The parameters of this build (R9, log 2). -/
def Config.params : Params := ⟨Config.pixLast, Config.payLast⟩

/-- What a byte of a memory holds at power-up: unspecified, one draw per location, fixed until written (R66, U12,
log 1). -/
opaque Config.powerUpByte : MemId → Nat → Byte

end Sys2Proof
end

