-- ==== Sys2Proof/WellFormed.lean ====
section
/-! DEFINITION. Which terms of the syntax are well formed: commands (none has an operand to check), command-word
fields (spec/30_encoding.md R120, R126), bus transactions (20_memory.md R86, R87) and host-program statements
(30_encoding.md R129, R130). -/

namespace Sys2Proof

/-- Every command is well formed: no command has an operand, an immediate or a register number (R124). -/
def Instr.wellFormed : Instr → Bool
  | .cap => true
  | .embed => true
  | .extract => true
  | .index => true

/-- A command word's reserved bits are 0 (R120). -/
def CmdFields.rsvdZero (f : CmdFields) : Bool := f.rsvd == 0#24

/-- A command word's OPCODE is one of the four of R122. -/
def CmdFields.opcodeAssigned (f : CmdFields) : Bool :=
  f.opcode == 0x01#8 || f.opcode == 0x02#8 || f.opcode == 0x03#8 || f.opcode == 0x04#8

/-- The fields of a legal command word (R126). -/
def CmdFields.wellFormed (f : CmdFields) : Bool := f.rsvdZero && f.opcodeAssigned

/-- The block accepts only transactions of 4 bytes (R86). -/
def BusTxn.sizeOk (t : BusTxn) : Bool := t.size == 4

/-- The block accepts only offsets that are a multiple of 4 (R87). -/
def BusTxn.aligned (t : BusTxn) : Bool := t.off.toNat % 4 == 0

/-- A transaction that passes the size and the alignment check. Whether its offset decodes is the address map's
question (R88). -/
def BusTxn.wellFormed (t : BusTxn) : Bool := t.sizeOk && t.aligned

/-- A statement's numbers fit the fields they are written to: `CFG` and `GEOM` fields (R130 with 10_state.md R38, R42),
window indexes inside the 2^26 words of a window (R129 with 20_memory.md R80). A raw offset may be any: the bus answers a bad
one SLVERR (R88). -/
def HostStmt.wellFormed : HostStmt → Bool
  | .wr _ _ => true
  | .rd _ _ => true
  | .poll _ _ _ => true
  | .cmd i => i.wellFormed
  | .setcfg bd enc mode => decide (bd < 256) && decide (enc < 4) && decide (mode < 2)
  | .setgeom w h => decide (w < 65536) && decide (h < 65536)
  | .wait => true
  | .ack => true
  | .loadpix p vs => decide (p + vs.length ≤ 67108864)
  | .loadref p vs => decide (p + vs.length ≤ 67108864)
  | .loadpay bs => decide (bs.length ≤ 268435456)

end Sys2Proof
end

