-- ==== Sys2Proof/Decode.lean ====
section
/-! DEFINITION. The command decoder (spec/30_encoding.md R120 to R123, R126), total on every 32-bit word and
rejecting by name, and after it the encoder, written from the opcode map of R122. -/

namespace Sys2Proof

/-- Why a word is no command (R126). -/
inductive IllegalWord where
  | reservedBitsSet
  | opcodeUnassigned
  deriving DecidableEq, Repr

/-- What decoding a word gives. -/
inductive Decoded where
  | command (i : Instr)
  | illegal (why : IllegalWord)
  deriving DecidableEq, Repr

/-- The fields of a command word: OPCODE is `w[7:0]`, RSVD is `w[31:8]` (R120). -/
def cmdFields (w : Word) : CmdFields := ⟨w.extractLsb' 0 8, w.extractLsb' 8 24⟩

/-- The word that has these fields (R120). -/
def CmdFields.word (f : CmdFields) : Word := f.rsvd ++ f.opcode

/-- The opcode map of R122. -/
def opcodeMap (op : BitVec 8) : Option Instr :=
  if op = 0x01#8 then some .cap
  else if op = 0x02#8 then some .embed
  else if op = 0x03#8 then some .extract
  else if op = 0x04#8 then some .index
  else none

/-- Decoding: reserved bits first, then the opcode, in the order of 44_operation_selector.md R253. No word falls
through to a command (R254). -/
def decode (w : Word) : Decoded :=
  if (cmdFields w).rsvd = 0#24 then
    match opcodeMap (cmdFields w).opcode with
    | some i => .command i
    | none => .illegal .opcodeUnassigned
  else .illegal .reservedBitsSet

/-- The opcode of a command (R122). -/
def opcodeOf : Instr → BitVec 8
  | .cap => 0x01#8
  | .embed => 0x02#8
  | .extract => 0x03#8
  | .index => 0x04#8

/-- The encoder: the one word of a command, RSVD 0 (R120, R122). -/
def encode (i : Instr) : Word := (CmdFields.mk (opcodeOf i) 0#24).word

/-- The command word an opcode-table row of `nbits` bits stands for: its bits, and zeros above them. A command is
always one whole 32-bit word (R121). -/
def tableWord (nbits w : Nat) : Word := BitVec.ofNat 32 (w % 2 ^ nbits)

/-- The instruction this decoder reads from the table's word. -/
def decodeTableWord (nbits w : Nat) : Option Instr :=
  match decode (tableWord nbits w) with
  | .command i => some i
  | .illegal _ => none

end Sys2Proof
end

