-- ==== Sys2Proof/Machine/State.lean ====
section
/-! DEFINITION. The state of the block as plain data (spec/10_state.md R65), the ways a step can stop, and the state
right after power-up and reset (70_reset_and_hazards.md R320, R324). -/

namespace Sys2Proof.Machine

/-- A memory: the bytes written since power-up, as (address, byte) cells in strictly rising address order
(`Memory.wf`). An address that is not listed has not been written; it reads as the power-up draw (R66, log 1). -/
abbrev Memory := List Host.Cell

/-- The stored bits of `STATUS` (R36). BUSY is no storage: it is `phase ≠ IDLE` (R36, R65). -/
structure Status where
  done : Bool
  err  : Bool
  haz  : Bool
  deriving DecidableEq, Repr

/-- `IRQ_EN` (R37). -/
structure IrqEn where
  doneIe : Bool
  errIe  : Bool
  hazIe  : Bool
  deriving DecidableEq, Repr

/-- `CFG` (R38). Every field is stored exactly as written, illegal and reserved values included. -/
structure Cfg where
  bitDepth : BitVec 8
  enc      : BitVec 2
  mode     : BitVec 1
  deriving DecidableEq, Repr

/-- `GEOM` (R42). -/
structure Geom where
  width  : BitVec 16
  height : BitVec 16
  deriving DecidableEq, Repr

/-- `IDX_LANE` (R52). -/
structure IdxLane where
  lane   : BitVec 8
  bitpos : BitVec 8
  deriving DecidableEq, Repr

/-- The engine's phase (R60). -/
inductive Phase where
  | idle
  | check
  | run
  | finish
  deriving DecidableEq, Repr

/-- The whole state (R65): CSR storage, engine state and the three memories. `params` are the build's parameters, which
no step changes (R9, R65, log 2). `schedule` and `resp` are the model's own: what happens next (log 3), and the last
bus response (log 4). -/
structure State where
  status   : Status
  irqEn    : IrqEn
  cfg      : Cfg
  geom     : Geom
  length   : Word
  capacity : Word
  errCode  : ErrKind
  errInfo  : Word
  idxIn    : Word
  idxPixel : Word
  idxLane  : IdxLane
  phase    : Phase
  opw      : Word
  r        : Word
  xacc     : Byte
  pixmem   : Memory
  refmem   : Memory
  paymem   : Memory
  params   : Params
  schedule : List Event
  resp     : Option BusResp
  deriving DecidableEq, Repr

/-- The ways a step stops with a fault. The block itself never traps and never stops (60_exceptions.md R280); both faults
lie in states that no run from reset reaches (log 7). -/
inductive Fault where
  /-- Raised by the engine's turn when no engine step is enabled although the phase is not IDLE (44_operation_selector.md
  R260): a phase and a command word that do not go together, or a RUN or FINISH step whose entry invariant (R181, R221)
  does not hold. Safe: the hardware has no such state. -/
  | noEngineStep
  /-- Raised by a RUN or FINISH step that would reach past the end of PIXMEM, REFMEM or PAYMEM, where no location exists
  (R57 to R59). Safe: the CHECK step excludes it (44_operation_selector.md R255). -/
  | outsideMemory
  deriving DecidableEq, Repr

/-- The ways a step is refused. -/
inductive Refusal where
  /-- Raised by `exec` for a command that has no meaning yet. Safe: the machine stops. No arm of this model uses it. -/
  | notModelled (mnemonic : String)
  deriving DecidableEq, Repr

/-- What a step answers. -/
abbrev Result := Host.Outcome State Fault Refusal

/-- The state after power-up and the first reset (R320, R324): every register at its reset value, the engine IDLE, no byte
of any memory written yet (R321), nothing scheduled and no bus response given. -/
def State.reset : State where
  status   := ⟨false, false, false⟩
  irqEn    := ⟨false, false, false⟩
  cfg      := ⟨0#8, 0#2, 0#1⟩
  geom     := ⟨0#16, 0#16⟩
  length   := 0#32
  capacity := 0#32
  errCode  := .none
  errInfo  := 0#32
  idxIn    := 0#32
  idxPixel := 0#32
  idxLane  := ⟨0#8, 0#8⟩
  phase    := .idle
  opw      := 0#32
  r        := 0#32
  xacc     := 0#8
  pixmem   := []
  refmem   := []
  paymem   := []
  params   := Config.params
  schedule := []
  resp     := none

end Sys2Proof.Machine
end

