-- ==== Sys2Proof/Machine/Ops.lean ====
section
/-! DEFINITION. The named operations the meanings share: reading and writing memory, ending an operation with an error
(the block's one exception entry) or with success, accepting a command, and reset. -/

namespace Sys2Proof.Machine

/-! ### One memory -/

/-- The byte written at an address since power-up, if any. -/
def Memory.read : Memory → Nat → Option Byte
  | [], _ => none
  | (k, v) :: m, a => if k = a then some v else Memory.read m a

/-- Store a byte, keeping the addresses strictly rising. -/
def Memory.write : Memory → Nat → Byte → Memory
  | [], a, b => [(a, b)]
  | (k, v) :: m, a, b =>
    if a < k then (a, b) :: (k, v) :: m
    else if a = k then (a, b) :: m
    else (k, v) :: Memory.write m a b

/-- Store the four bytes of a word at `4k` to `4k + 3`, the lowest byte first. -/
def Memory.writeWord (m : Memory) (k : Nat) (v : Word) : Memory :=
  Memory.write
    (Memory.write
      (Memory.write
        (Memory.write m (4 * k) (v.extractLsb' 0 8))
        (4 * k + 1) (v.extractLsb' 8 8))
      (4 * k + 2) (v.extractLsb' 16 8))
    (4 * k + 3) (v.extractLsb' 24 8)

/-- The canonical form: addresses strictly rising. An unlisted address has no written value, so no entry can equal
what an unlisted address holds (log 1). -/
def Memory.wf : Memory → Bool
  | [] => true
  | [_] => true
  | (a, _) :: (b, v) :: m => decide (a < b) && Memory.wf ((b, v) :: m)

/-- Every listed address is below `n`. -/
def Memory.below (n : Nat) (m : Memory) : Bool := m.all fun c => decide (c.1 < n)

/-! ### The three memories of the block -/

/-- The bytes written to a memory. -/
def State.memory (s : State) : MemId → Memory
  | .pix => s.pixmem
  | .ref => s.refmem
  | .pay => s.paymem

/-- The state with one memory replaced. -/
def State.setMemory (s : State) (id : MemId) (m : Memory) : State :=
  match id with
  | .pix => { s with pixmem := m }
  | .ref => { s with refmem := m }
  | .pay => { s with paymem := m }

/-- The number of 32-bit words of a memory: `PIX_DEPTH` for PIXMEM and REFMEM (R57, R58), `PAY_DEPTH / 4` host words
for PAYMEM (20_memory.md R83). -/
def memWords (p : Params) : MemId → Nat
  | .pix => p.pixDepth
  | .ref => p.pixDepth
  | .pay => p.payDepth / 4

/-- The byte at an address of a memory: the one written last, or the power-up draw (10_state.md R66, log 1). -/
def readByte (id : MemId) (a : Nat) (s : State) : Byte :=
  (Memory.read (s.memory id) a).getD (Config.powerUpByte id a)

/-- Store a byte in a memory. -/
def writeByte (id : MemId) (a : Nat) (b : Byte) (s : State) : State :=
  s.setMemory id (Memory.write (s.memory id) a b)

/-- Word `k` of a memory, byte `4k` lowest: the bus layout of PAYMEM (20_memory.md R83), and the order in which the model
keeps the bytes of a pixel word, which nothing outside can see (R96, log 9). -/
def readWord (id : MemId) (k : Nat) (s : State) : Word :=
  readByte id (4 * k + 3) s ++ readByte id (4 * k + 2) s ++ readByte id (4 * k + 1) s ++ readByte id (4 * k) s

/-- Store word `k` of a memory, byte `4k` lowest. -/
def writeWord (id : MemId) (k : Nat) (v : Word) (s : State) : State :=
  s.setMemory id (Memory.writeWord (s.memory id) k v)

/-! ### Ending an operation -/

/-- `raise Error(code, info)`: the one way an operation ends with an error (60_exceptions.md R288, R290). No state is saved
besides ERR_CODE and ERR_INFO, and control moves to no handler; the engine returns to IDLE. -/
def raiseError (code : ErrKind) (info : Word) (s : State) : State :=
  { s with
    errCode := code
    errInfo := info
    status := { s.status with err := true, done := true }
    phase := .idle }

/-- `complete()`: the operation ends with success (44_operation_selector.md R262). There is no other return: the host
acknowledges by a W1C write or by the next command (60_exceptions.md R291). -/
def complete (s : State) : State :=
  { s with
    phase := .idle
    status := { s.status with done := true } }

/-! ### Accepting a command, and reset -/

/-- Command acceptance: what a `CMD` write of `w` does while IDLE (44_operation_selector.md R250). -/
def acceptCommand (w : Word) (s : State) : State :=
  { s with
    opw := w
    phase := .check
    status := { s.status with done := false, err := false }
    errCode := .none
    errInfo := 0#32
    r := 0#32
    xacc := 0#8 }

/-- The reset transition (70_reset_and_hazards.md R320): every CSR field and the engine go to their reset values. The
memories keep their contents (R321). The parameters, what is still scheduled and the last bus response are no
registers and stay (log 2, log 3, log 4). -/
def resetBlock (s : State) : State :=
  { State.reset with
    pixmem := s.pixmem
    refmem := s.refmem
    paymem := s.paymem
    params := s.params
    schedule := s.schedule
    resp := s.resp }

end Sys2Proof.Machine
end

