-- ==== Sys2Proof/Machine/Flags.lean ====
section
/-! DEFINITION. The flags: BUSY, the STATUS and IRQ_EN words as the host sees them, write-1-to-clear, HAZ, and the `irq`
output (spec/10_state.md R36, R37, R55, R56). -/

namespace Sys2Proof.Machine

/-- `STATUS.BUSY = (phase != IDLE)` (R36, R60). -/
def State.busy (s : State) : Bool := s.phase != .idle

/-- `STATUS` as a read returns it: BUSY, DONE, ERR, HAZ in bits 0 to 3, zeros above (R36). -/
def statusWord (s : State) : Word :=
  0#28 ++ BitVec.ofBool s.status.haz ++ BitVec.ofBool s.status.err ++ BitVec.ofBool s.status.done
    ++ BitVec.ofBool s.busy

/-- The host's write of `v` to `STATUS`: DONE, ERR and HAZ are cleared where the written bit is 1; BUSY and the reserved
bits ignore the write (R36). -/
def statusWrite1Clear (v : Word) (st : Status) : Status where
  done := st.done && !v.getLsbD 1
  err  := st.err && !v.getLsbD 2
  haz  := st.haz && !v.getLsbD 3

/-- `STATUS.HAZ <- 1` (20_memory.md R94). -/
def setHaz (s : State) : State := { s with status := { s.status with haz := true } }

/-- `IRQ_EN` as a read returns it (R37). -/
def irqEnWord (e : IrqEn) : Word :=
  0#29 ++ BitVec.ofBool e.hazIe ++ BitVec.ofBool e.errIe ++ BitVec.ofBool e.doneIe

/-- `IRQ_EN` as a write of `v` leaves it; the reserved bits ignore the write (R37). -/
def irqEnOfWord (v : Word) : IrqEn where
  doneIe := v.getLsbD 0
  errIe  := v.getLsbD 1
  hazIe  := v.getLsbD 2

/-- The `irq` output, level-sensitive, at this state (R55, 60_exceptions.md R292). -/
def irq (s : State) : Bool :=
  (s.status.done && s.irqEn.doneIe) || (s.status.err && s.irqEn.errIe) || (s.status.haz && s.irqEn.hazIe)

end Sys2Proof.Machine
end

