-- ==== Sys2Proof/Machine/Operands.lean ====
section
/-! DEFINITION. The operands of the commands (spec/30_encoding.md R124, R125) and the sub-units that compute from them:
the capacity calculator (41_capacity.md R150), the pixel channel indexer (42_embed.md R170, R171), the bit packer
(R174 to R176) and the bit unpacker (43_extract.md R210, R212). Arithmetic is exact, on naturals (00_scope.md R15). -/

namespace Sys2Proof.Machine

/-! ### Operand assembly -/

/-- The legal values of `CFG.BIT_DEPTH` (10_state.md R39). -/
def legalDepth (bd : BitVec 8) : Bool := bd == 8#8 || bd == 16#8 || bd == 24#8 || bd == 32#8

/-- `bw = BIT_DEPTH / 8`, taken only when BIT_DEPTH is legal (R125, 00_scope.md R11). -/
def byteWidth? (bd : BitVec 8) : Option Nat := if legalDepth bd then some (bd.toNat / 8) else none

/-- `pixelCount = WIDTH * HEIGHT`, exact (R125, 10_state.md R42). -/
def pixelCount (g : Geom) : Nat := g.width.toNat * g.height.toNat

/-- `N = 8 * LENGTH`, exact: the number of payload bits (R125). -/
def payloadBits (s : State) : Nat := 8 * s.length.toNat

/-- `CFG.ENC` read as the enumeration of 10_state.md R40; the value 3 is reserved. -/
def encodingOf (enc : BitVec 2) : Option TextEncoding :=
  if enc = 0#2 then some .utf16
  else if enc = 1#2 then some .utf8
  else if enc = 2#2 then some .ascii7
  else none

/-- `CFG.MODE` read as the enumeration of 10_state.md R41. -/
def modeOf (m : BitVec 1) : Mode := if m = 1#1 then .xorSource else .replace

/-- The code of an error kind, as `ERR_CODE.CODE` holds it (60_exceptions.md R281). -/
def errCodeOf : ErrKind → BitVec 4
  | .none => 0#4
  | .payloadTooLarge => 1#4
  | .unsupportedChannelLayout => 2#4
  | .decodingError => 3#4
  | .sourceUnavailable => 4#4
  | .illegalCommand => 5#4
  | .illegalConfig => 6#4
  | .geometryRange => 7#4
  | .lengthRange => 8#4

/-! ### Register words -/

/-- `CFG` as a read returns it: BIT_DEPTH in 7..0, ENC in 9..8, MODE in 16, zeros elsewhere (10_state.md R38). -/
def cfgWord (c : Cfg) : Word := 0#15 ++ c.mode ++ 0#6 ++ c.enc ++ c.bitDepth

/-- `CFG` as a write of `v` leaves it: the fields as written, the reserved bits ignored (R38). -/
def cfgOfWord (v : Word) : Cfg where
  bitDepth := v.extractLsb' 0 8
  enc      := v.extractLsb' 8 2
  mode     := v.extractLsb' 16 1

/-- `GEOM` as a read returns it: WIDTH in 15..0, HEIGHT in 31..16 (R42). -/
def geomWord (g : Geom) : Word := g.height ++ g.width

/-- `GEOM` as a write of `v` leaves it (R42). -/
def geomOfWord (v : Word) : Geom where
  width  := v.extractLsb' 0 16
  height := v.extractLsb' 16 16

/-- `IDX_LANE` as a read returns it: LANE in 7..0, BITPOS in 15..8, zeros above (R52). -/
def idxLaneWord (l : IdxLane) : Word := 0#16 ++ l.bitpos ++ l.lane

/-! ### capacity_calculator -/

/-- `capacity(pixelCount, bw) = floor(pixelCount * bw / 8)` (41_capacity.md R150). -/
def capacityOf (pc bw : Nat) : Nat := pc * bw / 8

/-! ### pixel_channel_indexer -/

/-- `index(i, bw) = (i / bw, i % bw)`: the pixel and the lane of a bit index (42_embed.md R170). -/
def channelIndex (i bw : Nat) : Nat × Nat := (i / bw, i % bw)

/-- `pos(L, bw) = bw - 1 - L`: the sample bit that lane `L` is (R171). -/
def lanePos (L bw : Nat) : Nat := bw - 1 - L

/-! ### bit_packer -/

/-- `bit(byte, b)`: the payload bit at position `b` of a byte, MSB first (R174). -/
def packBit (x : Byte) (b : Nat) : Bool := x.getLsbD (7 - b)

/-- `pbit(i)`: payload bit `i` (R175). -/
def payloadBit (s : State) (i : Nat) : Bool := packBit (readByte .pay (i / 8) s) (i % 8)

/-- `k = min(bw, N - r)`: how many lanes of the pixel at cursor `r` carry payload (R176, R181). -/
def laneCount (bw n r : Nat) : Nat := min bw (n - r)

/-- One bit put at the place of lane `L` in a sample word (R171). -/
def laneBit (bw L : Nat) (b : Bool) : Word := (if b then 1#32 else 0#32) <<< lanePos L bw

/-- The OR over the lanes `0 .. k` of the bits `f(r + L)`, each at its lane's place: `acc` of R176 and R181. -/
def laneGroup (f : Nat → Bool) (bw r k : Nat) : Word :=
  (List.range k).foldl (fun acc L => acc ||| laneBit bw L (f (r + L))) 0#32

/-- The OR over the lanes `0 .. k` of a 1 at each lane's place: `mask` of R176 and R181. -/
def laneMask (bw k : Nat) : Word := laneGroup (fun _ => true) bw 0 k

/-- The combination `CFG.MODE` selects (R180): clear and set in REPLACE (R179), flip in XOR_SOURCE (R178). -/
def combine (m : Mode) (old acc mask : Word) : Word :=
  match m with
  | .replace => (old &&& ~~~mask) ||| acc
  | .xorSource => old ^^^ acc

/-! ### bit_unpacker -/

/-- `unpack(b0, ..., b7)`: eight bits into one byte, the first recovered one highest (43_extract.md R210). -/
def unpack (f : Nat → Bool) : Byte :=
  (List.range 8).foldl (fun x t => x ||| ((if f t then 1#8 else 0#8) <<< (7 - t))) 0#8

/-- `lbit(v, L, bw)`: the bit of lane `L` of a sample value (R212). -/
def lbit (v : Word) (L bw : Nat) : Bool := v.getLsbD (lanePos L bw)

/-- `v(p)`: the word whose lanes hold the payload bits of pixel `p` (R213). -/
def recoveryValue (s : State) (p : Nat) : Word :=
  match modeOf s.cfg.mode with
  | .replace => readWord .pix p s
  | .xorSource => readWord .pix p s ^^^ readWord .ref p s

/-- Recovered bit `i`: the lane bit the indexer names, in the recovery value of its pixel (R226). -/
def recoveredBit (s : State) (bw i : Nat) : Bool :=
  lbit (recoveryValue s (channelIndex i bw).1) (channelIndex i bw).2 bw

/-- The byte EXTRACT recovers at index `j` (R226). -/
def recoveredByte (s : State) (bw j : Nat) : Byte := unpack fun t => recoveredBit s bw (8 * j + t)

end Sys2Proof.Machine
end

