-- ==== Sys2Proof/Machine/Bus.lean ====
section
/-! DEFINITION. Host bus transactions (spec/20_memory.md): the address map (R80 to R84), the checks in order (R86 to R88), CSR
and memory reads (R89, R91), writes (R90, R92), and the drop of writes while BUSY (R94, R95). -/

namespace Sys2Proof.Machine

/-! ### The address map -/

/-- The offset of a register in the CSR block (10_state.md R32). -/
def csrOffset : Csr → Nat
  | .id => 0x00
  | .version => 0x04
  | .cmd => 0x08
  | .status => 0x0C
  | .irqEn => 0x10
  | .cfg => 0x14
  | .geom => 0x18
  | .length => 0x1C
  | .capacity => 0x20
  | .errCode => 0x24
  | .errInfo => 0x28
  | .bitcnt => 0x2C
  | .idxIn => 0x30
  | .idxPixel => 0x34
  | .idxLane => 0x38
  | .pixDepth => 0x3C
  | .payDepth => 0x40

/-- The registers in the order of their offsets. -/
def csrList : List Csr :=
  [.id, .version, .cmd, .status, .irqEn, .cfg, .geom, .length, .capacity, .errCode, .errInfo, .bitcnt, .idxIn,
    .idxPixel, .idxLane, .pixDepth, .payDepth]

/-- The register an offset names, if any (R81). -/
def csrAt (off : Nat) : Option Csr := csrList.find? fun c => csrOffset c == off

/-- What an offset selects: a register, a reserved CSR offset (10_state.md R53), or a word of a memory window. -/
inductive Target where
  | csr (c : Csr)
  | reserved
  | word (id : MemId) (k : Nat)
  deriving DecidableEq, Repr

/-- The first offset of a memory's window (R80). -/
def windowBase : MemId → Nat
  | .pix => 0x10000000
  | .ref => 0x20000000
  | .pay => 0x30000000

/-- The word of a window an offset selects: none past the memory's depth (R82 to R84). -/
def windowTarget (p : Params) (id : MemId) (off : Nat) : Option Target :=
  if (off - windowBase id) / 4 < memWords p id then some (.word id ((off - windowBase id) / 4)) else none

/-- The address map of R80; none where no target exists (R88). -/
def addressMap (p : Params) (off : Nat) : Option Target :=
  if off < 0x1000 then
    match csrAt off with
    | some c => some (.csr c)
    | none => some .reserved
  else if off < 0x10000000 then none
  else if off < 0x20000000 then windowTarget p .pix off
  else if off < 0x30000000 then windowTarget p .ref off
  else if off < 0x40000000 then windowTarget p .pay off
  else none

/-- The target of a transaction: size first, then alignment, then the address map (R86, R87, R88). None is answered
SLVERR. -/
def busTarget (p : Params) (t : BusTxn) : Option Target :=
  if t.size = 4 then
    if t.off.toNat % 4 = 0 then addressMap p t.off.toNat else none
  else none

/-! ### Reads -/

/-- What a read of a register returns (10_state.md R33 to R52). -/
def csrRead (c : Csr) (s : State) : Word :=
  match c with
  | .id => 0x4C534243#32
  | .version => 0x00010000#32
  | .cmd => 0#32
  | .status => statusWord s
  | .irqEn => irqEnWord s.irqEn
  | .cfg => cfgWord s.cfg
  | .geom => geomWord s.geom
  | .length => s.length
  | .capacity => s.capacity
  | .errCode => (errCodeOf s.errCode).setWidth 32
  | .errInfo => s.errInfo
  | .bitcnt => s.r
  | .idxIn => s.idxIn
  | .idxPixel => s.idxPixel
  | .idxLane => idxLaneWord s.idxLane
  | .pixDepth => BitVec.ofNat 32 s.params.pixDepth
  | .payDepth => BitVec.ofNat 32 s.params.payDepth

/-- What an accepted read returns: reserved offsets read 0 (R53), a window the current word (R91). -/
def targetRead (g : Target) (s : State) : Word :=
  match g with
  | .csr c => csrRead c s
  | .reserved => 0#32
  | .word id k => readWord id k s

/-! ### Writes -/

/-- What an accepted write of `v` to a register does when it is not dropped (R90, 10_state.md R35 to R54). -/
def csrWrite (c : Csr) (v : Word) (s : State) : State :=
  match c with
  | .cmd => acceptCommand v s
  | .status => { s with status := statusWrite1Clear v s.status }
  | .irqEn => { s with irqEn := irqEnOfWord v }
  | .cfg => { s with cfg := cfgOfWord v }
  | .geom => { s with geom := geomOfWord v }
  | .length => { s with length := v }
  | .idxIn => { s with idxIn := v }
  | .id => s
  | .version => s
  | .capacity => s
  | .errCode => s
  | .errInfo => s
  | .bitcnt => s
  | .idxPixel => s
  | .idxLane => s
  | .pixDepth => s
  | .payDepth => s

/-- What an accepted write does when it is not dropped (R90, R92, 10_state.md R53). -/
def targetWrite (g : Target) (v : Word) (s : State) : State :=
  match g with
  | .csr c => csrWrite c v s
  | .reserved => s
  | .word id k => writeWord id k v s

/-- The registers whose writes are dropped while BUSY (R94). -/
def csrGuarded : Csr → Bool
  | .cmd => true
  | .cfg => true
  | .geom => true
  | .length => true
  | .idxIn => true
  | .status => false
  | .irqEn => false
  | .id => false
  | .version => false
  | .capacity => false
  | .errCode => false
  | .errInfo => false
  | .bitcnt => false
  | .idxPixel => false
  | .idxLane => false
  | .pixDepth => false
  | .payDepth => false

/-- The targets whose writes are dropped while BUSY: those registers and every window word (R94, R95). -/
def targetGuarded : Target → Bool
  | .csr c => csrGuarded c
  | .reserved => false
  | .word _ _ => true

/-- An accepted write: dropped with HAZ set when the block is BUSY and the target guarded (R94), else it acts. -/
def acceptedWrite (g : Target) (v : Word) (s : State) : State :=
  if s.busy && targetGuarded g then setHaz s else targetWrite g v s

/-- The block's answer to a transaction, left in `resp` (R85, log 4). -/
def respond (a : BusResp) (s : State) : State := { s with resp := some a }

/-- One host transaction (R85): a refused one is answered SLVERR and changes nothing (R86 to R88), an accepted read changes
nothing (R89, R91), an accepted write is answered OKAY (R90, R92, R94). -/
def busStep (t : BusTxn) (s : State) : State :=
  match busTarget s.params t with
  | none => respond .slverr s
  | some g =>
    match t.kind with
    | .read => respond (.readOkay (targetRead g s)) s
    | .write => respond .writeOkay (acceptedWrite g t.wdata s)

/-- The transaction `MemRead(off, 4)` (R85). -/
def memRead (off : Word) : BusTxn := ⟨.read, off, 4, 0#32⟩

/-- The transaction `MemWrite(off, 4, v)` (R85). -/
def memWrite (off v : Word) : BusTxn := ⟨.write, off, 4, v⟩

/-- A POLL's read matches when its data, masked, is the value waited for (30_encoding.md R128). -/
def pollMatches (mask val : Word) : Option BusResp → Bool
  | some (.readOkay t) => (t &&& mask) == val
  | some .writeOkay => false
  | some .slverr => false
  | none => false

/-- One read of a POLL: when it matches the POLL is over, else it is tried again after one more turn of the engine
(R128, log 5). -/
def pollStep (off mask val : Word) (s : State) : State :=
  if pollMatches mask val (busStep (memRead off) s).resp then busStep (memRead off) s
  else { busStep (memRead off) s with schedule := .engine :: .poll off mask val :: s.schedule }

end Sys2Proof.Machine
end

