-- ==== Sys2Proof/Machine/Validator.lean ====
section
/-! DEFINITION. The encoding validator (spec/43_extract.md R214 to R219). A verdict is `none` when the bytes are well formed
(`(true, 0)` of R214) and `some info` when they are not (`(false, info)`). -/

namespace Sys2Proof.Machine

/-- UTF_16: well formed exactly when the length is even, else `info = n` (R215). -/
def validateUtf16 (bs : List Byte) : Option Nat := if bs.length % 2 = 0 then none else some bs.length

/-- The inclusive byte ranges `lo..hi` the bytes after a lead byte must fall in. -/
abbrev Ranges := List (Byte × Byte)

/-- A continuation byte's range, 0x80 to 0xBF (R216). -/
def contRange : Byte × Byte := (0x80#8, 0xBF#8)

/-- A byte lies in an inclusive range. -/
def inRange (b : Byte) (r : Byte × Byte) : Bool := decide (r.1 ≤ b) && decide (b ≤ r.2)

/-- The table of well-formed UTF-8 sequences: the row that a lead byte selects, as the ranges of the bytes that follow
it; none for a byte that is never a lead byte (R216). -/
def utf8Row (b : Byte) : Option Ranges :=
  if inRange b (0x00#8, 0x7F#8) then some []
  else if inRange b (0xC2#8, 0xDF#8) then some [contRange]
  else if inRange b (0xE0#8, 0xE0#8) then some [(0xA0#8, 0xBF#8), contRange]
  else if inRange b (0xE1#8, 0xEC#8) then some [contRange, contRange]
  else if inRange b (0xED#8, 0xED#8) then some [(0x80#8, 0x9F#8), contRange]
  else if inRange b (0xEE#8, 0xEF#8) then some [contRange, contRange]
  else if inRange b (0xF0#8, 0xF0#8) then some [(0x90#8, 0xBF#8), contRange, contRange]
  else if inRange b (0xF1#8, 0xF3#8) then some [contRange, contRange, contRange]
  else if inRange b (0xF4#8, 0xF4#8) then some [(0x80#8, 0x8F#8), contRange, contRange]
  else none

/-- The scan of R217 from byte index `k`, with the ranges still owed by the sequence in progress: a lead byte opens a
row, a byte out of range stops at its own index, and an end inside a sequence stops at `n`, the index reached
(log 12). -/
def utf8Scan : Ranges → Nat → List Byte → Option Nat
  | [], _, [] => none
  | _ :: _, k, [] => some k
  | [], k, b :: bs =>
    match utf8Row b with
    | some owed => utf8Scan owed (k + 1) bs
    | none => some k
  | r :: owed, k, b :: bs => if inRange b r then utf8Scan owed (k + 1) bs else some k

/-- UTF_8 (R216, R217). -/
def validateUtf8 (bs : List Byte) : Option Nat := utf8Scan [] 0 bs

/-- ASCII_7: every byte at most 0x7F, else the index of the first byte at or above 0x80 (R218). -/
def validateAscii7 (bs : List Byte) : Option Nat := bs.findIdx? fun b => decide (0x80#8 ≤ b)

/-- `validate(enc, B)` (R214). -/
def validate (enc : TextEncoding) (bs : List Byte) : Option Nat :=
  match enc with
  | .utf16 => validateUtf16 bs
  | .utf8 => validateUtf8 bs
  | .ascii7 => validateAscii7 bs

end Sys2Proof.Machine
end

