-- ==== Sys2Proof/Machine/Capacity.lean ====
section
/-! DEFINITION. The meaning of CAP (spec/41_capacity.md R157), and the CHECK-step operations the commands share
(44_operation_selector.md R255, R256). -/

namespace Sys2Proof.Machine

/-- Check 3 of R255: a command goes on with `bw` when BIT_DEPTH is legal, and else ends with
UNSUPPORTED_CHANNEL_LAYOUT, ERR_INFO the depth (60_exceptions.md R282). -/
def withByteWidth (body : Nat → State → State) (s : State) : State :=
  match byteWidth? s.cfg.bitDepth with
  | some bw => body bw s
  | none => raiseError .unsupportedChannelLayout (s.cfg.bitDepth.setWidth 32) s

/-- `CAPACITY <- capacity(pixelCount, bw)` (R256). The value fits 32 bits (41_capacity.md R151). -/
def writeCapacity (bw : Nat) (s : State) : State :=
  { s with capacity := BitVec.ofNat 32 (capacityOf (pixelCount s.geom) bw) }

/-- The CHECK body of CAP once the depth is legal (41_capacity.md R157). -/
def capBody (bw : Nat) (s : State) : State := complete (writeCapacity bw s)

/-- CAP: its one engine step is CHECK (R157, 44_operation_selector.md R260). -/
def execCap (s : State) : Result :=
  match s.phase with
  | .check => .next (withByteWidth capBody s)
  | .idle => .fault .noEngineStep
  | .run => .fault .noEngineStep
  | .finish => .fault .noEngineStep

end Sys2Proof.Machine
end

