-- ==== Sys2Proof/Machine/Transfer.lean ====
section
/-! DEFINITION. What EMBED and EXTRACT share: the CHECK-step checks 3 to 6 (spec/44_operation_selector.md R255 to R258), the
entry condition of a RUN step (42_embed.md R181, 43_extract.md R221) and the cursor's advance. -/

namespace Sys2Proof.Machine

/-- The CHECK passes: go to FINISH when there is no bit to move, else to RUN (R253, R259). -/
def beginTransfer (s : State) : State :=
  { s with phase := if payloadBits s = 0 then .finish else .run }

/-- Checks 4 to 6 of R255, in order, each with its ERR_INFO (60_exceptions.md R282); `go` is what follows when all pass. -/
def rangeChecks (go : State → State) (bw : Nat) (s : State) : State :=
  if s.params.pixDepth < pixelCount s.geom then
    raiseError .geometryRange (BitVec.ofNat 32 (pixelCount s.geom)) s
  else if capacityOf (pixelCount s.geom) bw < s.length.toNat then
    raiseError .payloadTooLarge (BitVec.ofNat 32 (capacityOf (pixelCount s.geom) bw)) s
  else if s.params.payDepth < s.length.toNat then
    raiseError .lengthRange (BitVec.ofNat 32 s.params.payDepth) s
  else go s

/-- The CHECK body of EMBED and EXTRACT once the depth is legal: CAPACITY is written before checks 4 to 6 (R256). -/
def transferBody (go : State → State) (bw : Nat) (s : State) : State := rangeChecks go bw (writeCapacity bw s)

/-- The entry invariant of a RUN step: `r < N` and `r % bw = 0` (42_embed.md R181, 43_extract.md R221). -/
def runEntry (bw : Nat) (s : State) : Bool :=
  decide (s.r.toNat < payloadBits s) && decide (s.r.toNat % bw = 0)

/-- The pixel and the payload bytes a RUN step reaches exist: `p < PIX_DEPTH` and `LENGTH <= PAY_DEPTH` (10_state.md R57,
R59). -/
def runReachable (bw : Nat) (s : State) : Bool :=
  decide (s.r.toNat / bw < s.params.pixDepth) && decide (s.length.toNat ≤ s.params.payDepth)

/-- A RUN step: `body bw` on a state that meets the entry invariant. The two faults lie in states no run reaches
(log 7). -/
def runStep (body : Nat → State → State) (s : State) : Result :=
  match byteWidth? s.cfg.bitDepth with
  | none => .fault .noEngineStep
  | some bw =>
    if runEntry bw s then
      if runReachable bw s then .next (body bw s) else .fault .outsideMemory
    else .fault .noEngineStep

/-- `r <- r + k; if r = N: phase <- FINISH` (42_embed.md R181, 43_extract.md R221). -/
def advanceCursor (k : Nat) (s : State) : State :=
  { s with
    r := BitVec.ofNat 32 (s.r.toNat + k)
    phase := if s.r.toNat + k = payloadBits s then .finish else s.phase }

/-- The number of lanes the RUN step at the cursor handles (42_embed.md R181). -/
def stepLanes (bw : Nat) (s : State) : Nat := laneCount bw (payloadBits s) s.r.toNat

end Sys2Proof.Machine
end

