-- ==== Sys2Proof/Machine/Embed.lean ====
section
/-! DEFINITION. The meaning of EMBED (spec/42_embed.md R181 to R183): the engine step its phase names. -/

namespace Sys2Proof.Machine

/-- The value EMBED's RUN step gives the pixel at the cursor (R178 to R181). -/
def embeddedWord (bw : Nat) (s : State) : Word :=
  combine (modeOf s.cfg.mode) (readWord .pix (s.r.toNat / bw) s)
    (laneGroup (payloadBit s) bw s.r.toNat (stepLanes bw s)) (laneMask bw (stepLanes bw s))

/-- EMBED's RUN step: one pixel read, combined and written back, then the cursor advances (R181). -/
def embedPixel (bw : Nat) (s : State) : State :=
  advanceCursor (stepLanes bw s) (writeWord .pix (s.r.toNat / bw) (embeddedWord bw s) s)

/-- EMBED: CHECK (R183), RUN (R181) or FINISH (R182), as the phase says (44_operation_selector.md R260). -/
def execEmbed (s : State) : Result :=
  match s.phase with
  | .check => .next (withByteWidth (transferBody beginTransfer) s)
  | .run => runStep embedPixel s
  | .finish => .next (complete s)
  | .idle => .fault .noEngineStep

end Sys2Proof.Machine
end

