-- ==== Sys2Proof/Machine/Extract.lean ====
section
/-! DEFINITION. The meaning of EXTRACT (spec/43_extract.md R221, R223, R225): the engine step its phase names. -/

namespace Sys2Proof.Machine

/-- EXTRACT's CHECK passes: `xacc <- 0`, then RUN or FINISH (R225). -/
def beginExtract (s : State) : State := beginTransfer { s with xacc := 0#8 }

/-- EXTRACT's CHECK body: ENC = 3 ends with ILLEGAL_CONFIG, ERR_INFO as a host read of CFG returns it; then the checks
shared with EMBED (R225). -/
def extractCheck (s : State) : State :=
  match encodingOf s.cfg.enc with
  | none => raiseError .illegalConfig (cfgWord s.cfg) s
  | some _ => withByteWidth (transferBody beginExtract) s

/-- One lane of a RUN step: shift the lane's bit into `xacc`, and store the byte when its eighth bit has arrived (R221). -/
def extractLane (bw : Nat) (v : Word) (r : Nat) (s : State) (L : Nat) : State :=
  if (r + L) % 8 = 7 then
    writeByte .pay ((r + L) / 8) ((s.xacc <<< 1) ||| (if lbit v L bw then 1#8 else 0#8)) { s with xacc := 0#8 }
  else { s with xacc := (s.xacc <<< 1) ||| (if lbit v L bw then 1#8 else 0#8) }

/-- The first `k` lanes of a RUN step, in order, for a pixel whose recovery value is `v` at cursor `r` (R221). -/
def extractLanes (bw : Nat) (v : Word) (r k : Nat) (s : State) : State :=
  (List.range k).foldl (extractLane bw v r) s

/-- EXTRACT's RUN step: the lanes of the pixel at the cursor in order, then the cursor advances (R221). -/
def extractPixel (bw : Nat) (s : State) : State :=
  advanceCursor (stepLanes bw s)
    (extractLanes bw (recoveryValue s (s.r.toNat / bw)) s.r.toNat (stepLanes bw s) s)

/-- The payload bytes `0 .. LENGTH` as they stand in PAYMEM (R223). -/
def payload (s : State) : List Byte := (List.range s.length.toNat).map fun j => readByte .pay j s

/-- EXTRACT's FINISH step: validate the recovered bytes, then complete or end with DECODING_ERROR (R223). -/
def extractFinish (s : State) : Result :=
  match encodingOf s.cfg.enc with
  | none => .fault .noEngineStep
  | some enc =>
    if s.length.toNat ≤ s.params.payDepth then
      match validate enc (payload s) with
      | none => .next (complete s)
      | some info => .next (raiseError .decodingError (BitVec.ofNat 32 info) s)
    else .fault .outsideMemory

/-- EXTRACT: CHECK (R225), RUN (R221) or FINISH (R223), as the phase says (44_operation_selector.md R260). -/
def execExtract (s : State) : Result :=
  match s.phase with
  | .check => .next (extractCheck s)
  | .run => runStep extractPixel s
  | .finish => extractFinish s
  | .idle => .fault .noEngineStep

end Sys2Proof.Machine
end

