-- ==== Sys2Proof/Machine/Index.lean ====
section
/-! DEFINITION. The meaning of INDEX (spec/42_embed.md R173). -/

namespace Sys2Proof.Machine

/-- The CHECK body of INDEX once the depth is legal: the indexer applied to IDX_IN (R170, R171, R173). -/
def indexBody (bw : Nat) (s : State) : State :=
  complete { s with
    idxPixel := BitVec.ofNat 32 (channelIndex s.idxIn.toNat bw).1
    idxLane :=
      { lane := BitVec.ofNat 8 (channelIndex s.idxIn.toNat bw).2
        bitpos := BitVec.ofNat 8 (lanePos (channelIndex s.idxIn.toNat bw).2 bw) } }

/-- INDEX: its one engine step is CHECK (R173, 44_operation_selector.md R260). -/
def execIndex (s : State) : Result :=
  match s.phase with
  | .check => .next (withByteWidth indexBody s)
  | .idle => .fault .noEngineStep
  | .run => .fault .noEngineStep
  | .finish => .fault .noEngineStep

end Sys2Proof.Machine
end

