-- ==== Sys2Proof/Machine/Dispatch.lean ====
section
/-! DEFINITION. The dispatch: one arm per command (spec/30_encoding.md R122, 44_operation_selector.md R254). -/

namespace Sys2Proof.Machine

/-- The engine step of an operation, by its command. -/
def exec (i : Instr) (s : State) : Host.Outcome State Fault Refusal :=
  match i with
  | .cap => Sys2Proof.Machine.execCap s
  | .embed => Sys2Proof.Machine.execEmbed s
  | .extract => Sys2Proof.Machine.execExtract s
  | .index => Sys2Proof.Machine.execIndex s

end Sys2Proof.Machine
end

