-- ==== Sys2Proof/Machine/Engine.lean ====
section
/-! DEFINITION. The engine's turn (spec/44_operation_selector.md R253, R260), one turn of the total order of atomic steps
(20_memory.md R100), and how a command is put before the engine from outside (log 8). -/

namespace Sys2Proof.Machine

/-- An illegal word: its CHECK step ends it with ILLEGAL_COMMAND, ERR_INFO the word (R253, 30_encoding.md R126). -/
def illegalCommand (s : State) : Result :=
  match s.phase with
  | .check => .next (raiseError .illegalCommand s.opw s)
  | .idle => .fault .noEngineStep
  | .run => .fault .noEngineStep
  | .finish => .fault .noEngineStep

/-- The step of the operation in progress, named by `phase` and `opw` (R260). -/
def operationStep (s : State) : Result :=
  match decode s.opw with
  | .command i => exec i s
  | .illegal _ => illegalCommand s

/-- The engine's turn: in IDLE no engine step is enabled and nothing happens (R260, 70_reset_and_hazards.md R323, log 6);
otherwise the step of the operation in progress. -/
def engineStep (s : State) : Result :=
  match s.phase with
  | .idle => .next s
  | .check => operationStep s
  | .run => operationStep s
  | .finish => operationStep s

/-- One turn: the first scheduled event, or the engine's turn when nothing is scheduled (20_memory.md R100, 00_scope.md R13,
log 3). -/
def takeTurn (s : State) : Result :=
  match s.schedule with
  | [] => engineStep s
  | .engine :: es => engineStep { s with schedule := es }
  | .bus t :: es => .next (busStep t { s with schedule := es })
  | .poll off mask val :: es => .next (pollStep off mask val { s with schedule := es })
  | .reset :: es => .next (resetBlock { s with schedule := es })

/-- Command word `w` accepted (44_operation_selector.md R250), and the engine's turn next (log 8). -/
def placeCommand (w : Word) (s : State) : State := { acceptCommand w s with schedule := .engine :: s.schedule }

end Sys2Proof.Machine
end

