-- ==== Sys2Proof/Machine/Step.lean ====
section
/-! DEFINITION. The step function, and how the host places a command word. -/

namespace Sys2Proof.Machine

/-- One atomic step of the block (spec/20_memory.md R98, R100). -/
def step (s : State) : Host.Outcome State Fault Refusal := Sys2Proof.Machine.takeTurn s

/-- The state in which the very next step runs the command word `w` of an `nbits`-bit row: the word accepted, as a `CMD`
write accepts it (44_operation_selector.md R250, log 8). -/
def State.withFetchWord (s : State) (nbits w : Nat) : State :=
  Sys2Proof.Machine.placeCommand (Sys2Proof.tableWord nbits w) s

end Sys2Proof.Machine
end

