-- ==== Sys2Proof/Machine/HostProgram.lean ====
section
/-! DEFINITION. The host-program notation (spec/30_encoding.md R128 to R131): what each statement expands to, a program's
encoding as a list of transactions, and its loading into the schedule. -/

namespace Sys2Proof.Machine

/-- The base statements of R128. -/
inductive BaseStmt where
  | wr (off v : Word)
  | rd (off : Word) (name : String)
  | poll (off mask val : Word)
  deriving DecidableEq, Repr

/-- A register's name stands for its offset (R129). -/
def csrWord (c : Csr) : Word := BitVec.ofNat 32 (csrOffset c)

/-- The symbolic offsets `PIX[p]`, `REF[p]`, `PAYW[k]` (R129). -/
def windowWord (id : MemId) (k : Nat) : Word := BitVec.ofNat 32 (windowBase id + 4 * k)

/-- Writes of consecutive words of a window from word `k` on. -/
def loadWords (id : MemId) : Nat → List Word → List BaseStmt
  | _, [] => []
  | k, v :: vs => .wr (windowWord id k) v :: loadWords id (k + 1) vs

/-- Bytes packed four per word, little-endian, missing high bytes 0 (R130, 20_memory.md R83). -/
def packBytes : List Byte → List Word
  | [] => []
  | [a] => [0#24 ++ a]
  | [a, b] => [0#16 ++ b ++ a]
  | [a, b, c] => [0#8 ++ c ++ b ++ a]
  | a :: b :: c :: d :: bs => (d ++ c ++ b ++ a) :: packBytes bs

/-- The expansion of a statement (R130). -/
def expand : HostStmt → List BaseStmt
  | .wr off v => [.wr off v]
  | .rd off name => [.rd off name]
  | .poll off mask val => [.poll off mask val]
  | .cmd i => [.wr (csrWord .cmd) (encode i)]
  | .setcfg bd enc mode => [.wr (csrWord .cfg) (BitVec.ofNat 32 (bd ||| enc <<< 8 ||| mode <<< 16))]
  | .setgeom w h => [.wr (csrWord .geom) (BitVec.ofNat 32 (w ||| h <<< 16))]
  | .wait => [.poll (csrWord .status) 0x2#32 0x2#32]
  | .ack => [.wr (csrWord .status) 0xE#32]
  | .loadpix p vs => loadWords .pix p vs
  | .loadref p vs => loadWords .ref p vs
  | .loadpay bs => loadWords .pay 0 (packBytes bs)

/-- A program's base statements. -/
def expandAll (prog : List HostStmt) : List BaseStmt := prog.flatMap expand

/-- The transaction a base statement stands for; a POLL's is its read, whose count is no part of the encoding (R131). -/
def BaseStmt.txn : BaseStmt → BusTxn
  | .wr off v => memWrite off v
  | .rd off _ => memRead off
  | .poll off _ _ => memRead off

/-- The encoding of a program: its list of transactions after expansion (R131). -/
def encodeProgram (prog : List HostStmt) : List BusTxn := (expandAll prog).map BaseStmt.txn

/-- The event a base statement puts into the schedule. The name an RD gives its data belongs to the host and is not kept;
the data stands in `resp` (log 4, log 5). -/
def BaseStmt.event : BaseStmt → Event
  | .wr off v => .bus (memWrite off v)
  | .rd off _ => .bus (memRead off)
  | .poll off mask val => .poll off mask val

/-- Events with turns of the engine before them: before each, as many as the next of `gaps` says. Where `gaps` has ended the
events follow one another at once. -/
def interleave : List Nat → List Event → List Event
  | _, [] => []
  | [], e :: es => e :: interleave [] es
  | n :: gaps, e :: es => List.replicate n .engine ++ e :: interleave gaps es

/-- A program scheduled after what is already there. How many engine steps fall before a statement the spec leaves open
(00_scope.md R13, 95_test_vectors.md P4): `gaps` says it for each base statement, and that a list which has ended stands for none
is the model's choice (log 13). Between two reads of a POLL it is one (log 5). -/
def loadProgram (gaps : List Nat) (prog : List HostStmt) (s : State) : State :=
  { s with schedule := s.schedule ++ interleave gaps ((expandAll prog).map BaseStmt.event) }

end Sys2Proof.Machine
end

