-- ==== Sys2Proof/Safety.lean ====
section
/-! DEFINITION. The terms the claims use: the invariant of every reachable state (from spec/10_state.md R44 to R63,
42_embed.md R181, 43_extract.md R221 and 44_operation_selector.md R255), the closed forms of EMBED and EXTRACT (42_embed.md
R184, 43_extract.md R226), progress of an operation in its RUN phase, and the declarative readings of the validator's rules. -/

namespace Sys2Proof.Machine

/-! ### The invariant -/

/-- A memory is in canonical form and lists nothing past its last byte. -/
def MemoryOk (s : State) (id : MemId) : Prop :=
  Memory.wf (s.memory id) = true ∧ Memory.below (4 * memWords s.params id) (s.memory id) = true

/-- The result registers are as acceptance left them (44_operation_selector.md R250, R262). -/
structure Unreported (s : State) : Prop where
  done : s.status.done = false
  err : s.status.err = false
  code : s.errCode = .none
  info : s.errInfo = 0#32

/-- The configuration has passed the CHECK of EMBED or EXTRACT, with byte width `bw` (44_operation_selector.md R255,
R256). -/
structure Checked (bw : Nat) (s : State) : Prop where
  depth : byteWidth? s.cfg.bitDepth = some bw
  geometry : pixelCount s.geom ≤ s.params.pixDepth
  fits : s.length.toNat ≤ capacityOf (pixelCount s.geom) bw
  stored : s.length.toNat ≤ s.params.payDepth
  capacity : s.capacity = BitVec.ofNat 32 (capacityOf (pixelCount s.geom) bw)

/-- The operation in progress is an EMBED, which leaves `xacc` 0, or an EXTRACT under a legal encoding, whose `xacc` holds
only the `r % 8` bits recovered of the current byte (10_state.md R63). -/
def TransferOp (s : State) : Prop :=
  (s.opw = encode .embed ∧ s.xacc = 0#8) ∨
    (s.opw = encode .extract ∧ encodingOf s.cfg.enc ≠ none ∧ s.xacc.toNat < 2 ^ (s.r.toNat % 8))

/-- What each phase means for the engine's registers (10_state.md R60 to R63, 42_embed.md R181, 43_extract.md R221, R222). -/
def EngineOk (s : State) : Prop :=
  match s.phase with
  | .idle => s.xacc = 0#8
  | .check => Unreported s ∧ s.r = 0#32 ∧ s.xacc = 0#8
  | .run =>
    Unreported s ∧ TransferOp s ∧
      ∃ bw, Checked bw s ∧ s.r.toNat < payloadBits s ∧ s.r.toNat % bw = 0
  | .finish => Unreported s ∧ TransferOp s ∧ ∃ bw, Checked bw s ∧ s.r.toNat = payloadBits s

/-- The invariant of every reachable state. -/
structure Inv (s : State) : Prop where
  /-- Each memory is canonical and inside its depth (10_state.md R57 to R59). -/
  memory : ∀ id, MemoryOk s id
  /-- CAPACITY is below 2^31 (10_state.md R44). -/
  capacity : s.capacity.toNat < 2 ^ 31
  /-- The cursor is at most 2^31 (10_state.md R31). -/
  cursor : s.r.toNat ≤ 2 ^ 31
  /-- LANE and BITPOS are each in 0 to 3 (10_state.md R52). -/
  lane : s.idxLane.lane.toNat ≤ 3 ∧ s.idxLane.bitpos.toNat ≤ 3
  /-- Code 4 is never written (60_exceptions.md R281). -/
  code : s.errCode ≠ .sourceUnavailable
  /-- ERR_INFO is 0 when ERR_CODE is 0 (10_state.md R46). -/
  info : s.errCode = .none → s.errInfo = 0#32
  /-- STATUS.ERR is set only with an error code (10_state.md R36). -/
  errFlag : s.status.err = true → s.errCode ≠ .none
  /-- The engine's registers fit its phase. -/
  engine : EngineOk s

/-! ### Closed forms -/

/-- `P = ceil(N / bw)`: the number of pixels an operation touches (42_embed.md R177). -/
def touchedPixels (bw : Nat) (s : State) : Nat := (payloadBits s + bw - 1) / bw

/-- `k(p)`: how many lanes of pixel `p` carry payload (42_embed.md R176). -/
def pixelLanes (bw p : Nat) (s : State) : Nat := laneCount bw (payloadBits s) (p * bw)

/-- `acc(p)` (42_embed.md R176). -/
def pixelAcc (bw p : Nat) (s : State) : Word := laneGroup (payloadBit s) bw (p * bw) (pixelLanes bw p s)

/-- `mask(p)` (42_embed.md R176). -/
def pixelMask (bw p : Nat) (s : State) : Word := laneMask bw (pixelLanes bw p s)

/-- What EMBED makes of the sample `x` at pixel `p`, under the configuration and payload of `s` (42_embed.md R184). -/
def embeddedSample (bw p : Nat) (x : Word) (s : State) : Word :=
  combine (modeOf s.cfg.mode) x (pixelAcc bw p s) (pixelMask bw p s)

/-! ### Progress of an operation -/

/-- EMBED in progress on the image `X`: the pixels before the cursor hold their embedded values, the others their original
ones (42_embed.md R184, 70_reset_and_hazards.md R322). -/
def EmbedProgress (bw : Nat) (X : Nat → Word) (s : State) : Prop :=
  ∀ p, p < s.params.pixDepth →
    readWord .pix p s = if p * bw < s.r.toNat then embeddedSample bw p (X p) s else X p

/-- EXTRACT in progress over the old payload memory `Y`: the bytes before the cursor's are the recovered ones, the others the
old ones, and `xacc` holds the bits recovered of the current byte, the first one highest (43_extract.md R226, 10_state.md
R63). -/
structure ExtractProgress (bw : Nat) (Y : Nat → Byte) (s : State) : Prop where
  recovered : ∀ j, j < s.r.toNat / 8 → readByte .pay j s = recoveredByte s bw j
  old : ∀ j, s.r.toNat / 8 ≤ j → readByte .pay j s = Y j
  current : ∀ t, t < s.r.toNat % 8 →
    s.xacc.getLsbD (s.r.toNat % 8 - 1 - t) = recoveredBit s bw (8 * (s.r.toNat / 8) + t)

/-! ### Declarative validator -/

/-- The table of 43_extract.md R216: a row is the inclusive ranges its bytes must fall in, the lead byte's first. It is written
apart from the validator, which has its own. -/
def utf8Table : List (List (Nat × Nat)) :=
  [ [(0x00, 0x7F)],
    [(0xC2, 0xDF), (0x80, 0xBF)],
    [(0xE0, 0xE0), (0xA0, 0xBF), (0x80, 0xBF)],
    [(0xE1, 0xEC), (0x80, 0xBF), (0x80, 0xBF)],
    [(0xED, 0xED), (0x80, 0x9F), (0x80, 0xBF)],
    [(0xEE, 0xEF), (0x80, 0xBF), (0x80, 0xBF)],
    [(0xF0, 0xF0), (0x90, 0xBF), (0x80, 0xBF), (0x80, 0xBF)],
    [(0xF1, 0xF3), (0x80, 0xBF), (0x80, 0xBF), (0x80, 0xBF)],
    [(0xF4, 0xF4), (0x80, 0x8F), (0x80, 0xBF), (0x80, 0xBF)] ]

/-- A byte's value lies in an inclusive range of the table. -/
abbrev InByteRange (r : Nat × Nat) (b : Byte) : Prop := r.1 ≤ b.toNat ∧ b.toNat ≤ r.2

/-- A byte sequence matches a row: as many bytes as ranges, each in its range. -/
def MatchesRow : List (Nat × Nat) → List Byte → Prop
  | [], bs => bs = []
  | _ :: _, [] => False
  | r :: row, b :: bs => InByteRange r b ∧ MatchesRow row bs

/-- A byte sequence splits, from the start, into sequences each matching one row of the table (43_extract.md R216). -/
inductive WellFormedUtf8 : List Byte → Prop where
  | nil : WellFormedUtf8 []
  | seq (row : List (Nat × Nat)) (form rest : List Byte) (hrow : row ∈ utf8Table) (hform : MatchesRow row form)
      (hrest : WellFormedUtf8 rest) : WellFormedUtf8 (form ++ rest)

/-- The row of 43_extract.md R216 whose lead range holds a byte, as the ranges of the bytes after the lead byte. -/
def leadRow? (b : Byte) : Option (List (Nat × Nat)) :=
  (utf8Table.find? fun row => row.head?.any fun r => decide (InByteRange r b)).map List.tail

/-- The inner loop of 43_extract.md R217: the ranges owed from byte `k + j` on, against the bytes `B[0 .. n]`. -/
def utf8Inner (B : List Byte) (k : Nat) : Nat → List (Nat × Nat) → Option Nat
  | _, [] => none
  | j, r :: owed =>
    match B[k + j]? with
    | none => some B.length
    | some b => if InByteRange r b then utf8Inner B k (j + 1) owed else some (k + j)

/-- The outer loop of 43_extract.md R217 by index `k`, with fuel for its rounds. -/
def utf8Loop (B : List Byte) : Nat → Nat → Option Nat
  | 0, _ => none
  | fuel + 1, k =>
    match B[k]? with
    | none => none
    | some b =>
      match leadRow? b with
      | none => some k
      | some owed =>
        match utf8Inner B k 1 owed with
        | some info => some info
        | none => utf8Loop B fuel (k + 1 + owed.length)

/-! ### Host writes -/

/-- The offsets whose writes are dropped while BUSY: CMD, CFG, GEOM, LENGTH and IDX_IN, and the words of the PIX, REF and PAY
windows (20_memory.md R94). -/
def GuardedOffset (p : Params) (off : Nat) : Prop :=
  off ∈ [0x08, 0x14, 0x18, 0x1C, 0x30] ∨
    (0x10000000 ≤ off ∧ off < 0x10000000 + 4 * p.pixDepth) ∨
    (0x20000000 ≤ off ∧ off < 0x20000000 + 4 * p.pixDepth) ∨
    (0x30000000 ≤ off ∧ off < 0x30000000 + p.payDepth)

/-- The host transaction that an entry of the schedule makes, if it makes one; a POLL's is its read (30_encoding.md R131). -/
def eventTxn : Event → Option BusTxn
  | .bus t => some t
  | .poll off _ _ => some (memRead off)
  | .engine => none
  | .reset => none

/-! ### Turns and runs -/

/-- It is the engine's turn in `s`, and `t` is the state its step reads: `s` itself when nothing is scheduled, else `s` with the
scheduled turn taken off (log 3). -/
def EngineTurn (s t : State) : Prop :=
  (s.schedule = [] ∧ t = s) ∨ ∃ es, s.schedule = .engine :: es ∧ t = { s with schedule := es }

/-- The next turn is not a reset. -/
def NoResetNext (s : State) : Prop := ∀ es, s.schedule ≠ .reset :: es

/-- An operation of command `i` has just been accepted and nothing else is scheduled: the engine runs alone
(44_operation_selector.md R250). -/
structure Accepted (i : Instr) (s : State) : Prop where
  alone : s.schedule = []
  phase : s.phase = .check
  opw : s.opw = encode i
  unreported : Unreported s
  cursor : s.r = 0#32
  xacc : s.xacc = 0#8

/-- The configuration an EMBED or EXTRACT needs to pass its CHECK, with byte width `bw` (44_operation_selector.md R255): BIT_DEPTH
is 8, 16, 24 or 32, the geometry fits PIXMEM, and the payload fits the capacity and PAYMEM. -/
structure Transferable (bw : Nat) (s : State) : Prop where
  depth : 1 ≤ bw ∧ bw ≤ 4 ∧ s.cfg.bitDepth.toNat = 8 * bw
  geometry : s.geom.width.toNat * s.geom.height.toNat ≤ s.params.pixDepth
  fits : s.length.toNat ≤ s.geom.width.toNat * s.geom.height.toNat * bw / 8
  stored : s.length.toNat ≤ s.params.payDepth

/-- `n` steps of the machine from `s`. -/
def runSteps (n : Nat) (s : State) : Host.Outcome State Fault Refusal := Host.Core.run Sys2Proof.core n s

end Sys2Proof.Machine
end

