-- ==== Sys2Proof/Certificates/Slice0/Obligations.lean ====
section
/-! DEFINITION. The statements for the provers. Each formalises a numbered rule of spec/ or is derived from the sections its entry
in OBLIGATIONS.json cites. -/

open Sys2Proof Sys2Proof.Machine

/-! ### Commands: encoding -/

/-- 30_encoding.md R123: decoding is an exact match on the whole word, and every other word is illegal. -/
def Obligations.DecodingIsAnExactMatch : Prop :=
  ∀ w : Word,
    (decode w = .command .cap ↔ w = 0x00000001#32) ∧
    (decode w = .command .embed ↔ w = 0x00000002#32) ∧
    (decode w = .command .extract ↔ w = 0x00000003#32) ∧
    (decode w = .command .index ↔ w = 0x00000004#32) ∧
    (w ≠ 0x00000001#32 → w ≠ 0x00000002#32 → w ≠ 0x00000003#32 → w ≠ 0x00000004#32 →
      ∃ why, decode w = .illegal why)

/-- 30_encoding.md R120, R122, R126: decoding inverts encoding on every well-formed command, only a command's own word decodes to
it, no field bit of a command word is dropped, and the legal field values are exactly those of the four commands. -/
def Obligations.DecodeAndEncodeAgree : Prop :=
  (∀ i : Instr, i.wellFormed = true → decode (encode i) = .command i ∧ ∀ w, decode w = .command i → w = encode i) ∧
  (∀ f : CmdFields, cmdFields f.word = f) ∧
  (∀ w : Word, (cmdFields w).word = w) ∧
  (∀ f : CmdFields, f.wellFormed = true ↔ ∃ i, decode f.word = .command i)

/-- Words written out from the encodings of spec/opcode_table.json decode to their commands. -/
def Obligations.TableWordsDecode : Prop :=
  decodeTableWord 32 0b00000000000000000000000000000001 = some .cap ∧
  decodeTableWord 32 0b00000000000000000000000000000010 = some .embed ∧
  decodeTableWord 32 0b00000000000000000000000000000011 = some .extract ∧
  decodeTableWord 32 0b00000000000000000000000000000100 = some .index ∧
  decodeTableWord 32 0b00000000000000000000000100000010 = none

/-! ### One turn -/

/-- 44_operation_selector.md R260: when an operation is in progress and its word decodes to a command, the engine's turn is that
command's step. Whose turn it is stands in the schedule, the model's choice (log 3). -/
def Obligations.EngineTurnRunsTheDecodedCommand : Prop :=
  ∀ (s t : State) (i : Instr), EngineTurn s t → s.phase ≠ .idle → decode s.opw = .command i → step s = exec i t

/-- A command word placed by `withFetchWord` is what the very next step runs, on the state an accepted CMD write leaves (the
model's choice, log 8). -/
def Obligations.PlacedCommandRunsNext : Prop :=
  ∀ (s : State) (w : Nat) (i : Instr), decodeTableWord 32 w = some i →
    step (s.withFetchWord 32 w) = exec i (acceptCommand (tableWord 32 w) s) ∧
    (acceptCommand (tableWord 32 w) s).phase = .check ∧ (acceptCommand (tableWord 32 w) s).opw = encode i

/-- 70_reset_and_hazards.md R323: in IDLE the engine waits for a CMD write: its turn changes nothing (the model's stutter, log 6). -/
def Obligations.IdleEngineWaits : Prop :=
  ∀ s t : State, EngineTurn s t → s.phase = .idle → step s = .next t

/-- 44_operation_selector.md R251: every CMD write made while IDLE is accepted, whatever the word, and an illegal word is then ended by
its CHECK step with ILLEGAL_COMMAND. The order of turns stands in the schedule, the model's choice (log 3). -/
def Obligations.EveryIdleCommandWriteIsAccepted : Prop :=
  ∀ (s : State) (w : Word) (es : List Event), s.phase = .idle →
    (s.schedule = .bus (memWrite 0x08#32 w) :: es →
      step s = .next { acceptCommand w s with schedule := es, resp := some .writeOkay }) ∧
    (s.schedule = .bus (memWrite 0x08#32 w) :: .engine :: es →
      w ≠ 0x00000001#32 → w ≠ 0x00000002#32 → w ≠ 0x00000003#32 → w ≠ 0x00000004#32 →
      ∃ t, runSteps 2 s = .next t ∧
        t = { s with
          schedule := es
          resp := some .writeOkay
          opw := w
          phase := .idle
          status := { done := true, err := true, haz := s.status.haz }
          errCode := .illegalCommand
          errInfo := w
          r := 0#32
          xacc := 0#8 })

/-- 44_operation_selector.md R250: what an accepted CMD write does while IDLE, and that HAZ, CAPACITY, IDX_PIXEL, IDX_LANE, the
configuration and the memories are unchanged; while BUSY it is dropped and sets HAZ. -/
def Obligations.AcceptanceStartsTheOperation : Prop :=
  ∀ (s : State) (w : Word),
    (s.phase = .idle →
      busStep (memWrite 0x08#32 w) s =
        { s with
          opw := w
          phase := .check
          status := { done := false, err := false, haz := s.status.haz }
          errCode := .none
          errInfo := 0#32
          r := 0#32
          xacc := 0#8
          resp := some .writeOkay }) ∧
    (s.phase ≠ .idle →
      busStep (memWrite 0x08#32 w) s =
        { s with status := { s.status with haz := true }, resp := some .writeOkay })

/-! ### CAP and INDEX -/

/-- 41_capacity.md R157: CAP writes `floor(WIDTH * HEIGHT * bw / 8)` and completes, or ends with
UNSUPPORTED_CHANNEL_LAYOUT and leaves CAPACITY unchanged. -/
def Obligations.CapComputesTheCapacity : Prop :=
  encode .cap = 0x00000001#32 ∧
  (∀ (s : State) (bw : Nat), s.phase = .check → 1 ≤ bw → bw ≤ 4 → s.cfg.bitDepth.toNat = 8 * bw →
    exec .cap s = .next { s with
      capacity := BitVec.ofNat 32 (s.geom.width.toNat * s.geom.height.toNat * bw / 8)
      phase := .idle
      status := { s.status with done := true } } ∧
    (BitVec.ofNat 32 (s.geom.width.toNat * s.geom.height.toNat * bw / 8)).toNat =
      s.geom.width.toNat * s.geom.height.toNat * bw / 8) ∧
  (∀ s : State, s.phase = .check → s.cfg.bitDepth.toNat ∉ [8, 16, 24, 32] →
    exec .cap s = .next { s with
      errCode := .unsupportedChannelLayout
      errInfo := s.cfg.bitDepth.setWidth 32
      phase := .idle
      status := { s.status with done := true, err := true } })

/-- 42_embed.md R173: INDEX writes the pixel, the lane and the bit position of IDX_IN and completes, or ends with
UNSUPPORTED_CHANNEL_LAYOUT and leaves IDX_PIXEL and IDX_LANE unchanged. -/
def Obligations.IndexMapsTheBitIndex : Prop :=
  encode .index = 0x00000004#32 ∧
  (∀ (s : State) (bw : Nat), s.phase = .check → 1 ≤ bw → bw ≤ 4 → s.cfg.bitDepth.toNat = 8 * bw →
    ∃ t, exec .index s = .next t ∧
      t = { s with
        idxPixel := t.idxPixel
        idxLane := t.idxLane
        phase := .idle
        status := { s.status with done := true } } ∧
      t.idxPixel.toNat = s.idxIn.toNat / bw ∧
      t.idxLane.lane.toNat = s.idxIn.toNat % bw ∧
      t.idxLane.bitpos.toNat = bw - 1 - s.idxIn.toNat % bw ∧
      (csrRead .idxLane t).toNat = 256 * (bw - 1 - s.idxIn.toNat % bw) + s.idxIn.toNat % bw) ∧
  (∀ s : State, s.phase = .check → s.cfg.bitDepth.toNat ∉ [8, 16, 24, 32] →
    exec .index s = .next { s with
      errCode := .unsupportedChannelLayout
      errInfo := s.cfg.bitDepth.setWidth 32
      phase := .idle
      status := { s.status with done := true, err := true } })

/-! ### EMBED -/

/-- 42_embed.md R183 (CHECK) with 44_operation_selector.md R256 and R259: a passing CHECK of EMBED writes CAPACITY and goes to RUN, or to
FINISH when LENGTH is 0, and changes nothing else. -/
def Obligations.EmbedCheckPasses : Prop :=
  ∀ (s : State) (bw : Nat), s.phase = .check → Transferable bw s →
    exec .embed s = .next { s with
      capacity := BitVec.ofNat 32 (s.geom.width.toNat * s.geom.height.toNat * bw / 8)
      phase := if s.length = 0#32 then .finish else .run }

/-- The EMBED column of 44_operation_selector.md R255: the first failing check decides, with the ERR_INFO of 60_exceptions.md R282;
CAPACITY is written before checks 4 to 6 (R256). -/
def Obligations.EmbedRaisesTheFirstError : Prop :=
  ∀ s : State, s.phase = .check →
    (s.cfg.bitDepth.toNat ∉ [8, 16, 24, 32] →
      exec .embed s = .next (raiseError .unsupportedChannelLayout (s.cfg.bitDepth.setWidth 32) s)) ∧
    ∀ bw pc cap : Nat, 1 ≤ bw → bw ≤ 4 → s.cfg.bitDepth.toNat = 8 * bw →
      pc = s.geom.width.toNat * s.geom.height.toNat → cap = pc * bw / 8 →
      (s.params.pixDepth < pc →
        exec .embed s = .next
          (raiseError .geometryRange (BitVec.ofNat 32 pc) { s with capacity := BitVec.ofNat 32 cap })) ∧
      (pc ≤ s.params.pixDepth → cap < s.length.toNat →
        exec .embed s = .next
          (raiseError .payloadTooLarge (BitVec.ofNat 32 cap) { s with capacity := BitVec.ofNat 32 cap })) ∧
      (pc ≤ s.params.pixDepth → s.length.toNat ≤ cap → s.params.payDepth < s.length.toNat →
        exec .embed s = .next
          (raiseError .lengthRange (BitVec.ofNat 32 s.params.payDepth) { s with capacity := BitVec.ofNat 32 cap }))

/-- 42_embed.md R181: EMBED's RUN step. The pixel at the cursor takes its payload bits, lane `L` at sample bit `bw - 1 - L`, flipped
in XOR_SOURCE and replaced in REPLACE mode; every other bit of it and every other word of every memory is unchanged; only the
cursor and the phase change besides. -/
def Obligations.EmbedRunStepWritesOnePixel : Prop :=
  ∀ (s : State) (bw n k p : Nat), s.phase = .run → 1 ≤ bw → bw ≤ 4 → s.cfg.bitDepth.toNat = 8 * bw →
    n = 8 * s.length.toNat → k = min bw (n - s.r.toNat) → p = s.r.toNat / bw →
    s.r.toNat < n → s.r.toNat % bw = 0 → p < s.params.pixDepth → s.length.toNat ≤ s.params.payDepth →
    ∃ t, exec .embed s = .next t ∧
      t = { s with pixmem := t.pixmem, r := t.r, phase := t.phase } ∧
      t.r.toNat = s.r.toNat + k ∧
      t.phase = (if s.r.toNat + k = n then .finish else .run) ∧
      (∀ a, a < 4 * p ∨ 4 * p + 4 ≤ a → readByte .pix a t = readByte .pix a s) ∧
      (∀ j, ¬ (j < bw ∧ bw - 1 - j < k) →
        (readWord .pix p t).getLsbD j = (readWord .pix p s).getLsbD j) ∧
      (∀ L i b, L < k → i = s.r.toNat + L → b = (readByte .pay (i / 8) s).getLsbD (7 - i % 8) →
        (readWord .pix p t).getLsbD (bw - 1 - L) =
          if s.cfg.mode = 1#1 then (readWord .pix p s).getLsbD (bw - 1 - L) ^^ b else b)

/-- 42_embed.md R182: EMBED's FINISH step completes and reads and writes no memory. -/
def Obligations.EmbedFinishCompletes : Prop :=
  ∀ s : State, s.phase = .finish →
    exec .embed s = .next { s with phase := .idle, status := { s.status with done := true } }

/-- 42_embed.md R184 with 44_operation_selector.md R261: from an accepted EMBED whose CHECK passes, the engine, alone (log 3), completes
after `2 + P` steps; PIXMEM then has its closed form and REFMEM and PAYMEM are unchanged. -/
def Obligations.EmbedReachesItsClosedForm : Prop :=
  ∀ (s : State) (bw : Nat), Accepted .embed s → Transferable bw s →
    ∃ t, runSteps (2 + touchedPixels bw s) s = .next t ∧
      t = { s with
        pixmem := t.pixmem
        capacity := t.capacity
        r := t.r
        phase := .idle
        status := { s.status with done := true } } ∧
      t.r.toNat = 8 * s.length.toNat ∧
      ∀ p, p < s.params.pixDepth →
        readWord .pix p t =
          if p < touchedPixels bw s then embeddedSample bw p (readWord .pix p s) s else readWord .pix p s

/-- 42_embed.md R184 under any interleaving: whatever host transactions fall between the engine's steps, while no reset comes and the
operation is an EMBED in progress on the image `X`, each step keeps the pixels before the cursor embedded and the others
original (20_memory.md R94, R100). -/
def Obligations.EmbedProgressSurvivesTheHost : Prop :=
  ∀ (X : Nat → Word) (bw : Nat) (s s' : State), Inv s → s.phase ≠ .idle → s.opw = encode .embed →
    byteWidth? s.cfg.bitDepth = some bw → NoResetNext s → step s = .next s' →
    EmbedProgress bw X s → EmbedProgress bw X s'

/-- 42_embed.md R186 and R185: no engine step changes a sample bit outside the `bw` lanes, or a lane whose global index is `N` or
more. -/
def Obligations.BitsOutsideThePayloadLanesStay : Prop :=
  ∀ (s t s' : State) (bw : Nat), EngineTurn s t → step s = .next s' →
    byteWidth? s.cfg.bitDepth = some bw → ∀ p,
      (∀ j, bw ≤ j → (readWord .pix p s').getLsbD j = (readWord .pix p s).getLsbD j) ∧
      (∀ L, L < bw → payloadBits s ≤ p * bw + L →
        lbit (readWord .pix p s') L bw = lbit (readWord .pix p s) L bw)

/-- 42_embed.md R187 (b) and (c): a second embedding of the same payload leaves a REPLACE result unchanged and restores the original
sample in XOR_SOURCE mode. -/
def Obligations.SecondEmbeddingKeepsOrRestores : Prop :=
  ∀ (s : State) (bw p : Nat) (x : Word),
    (s.cfg.mode = 0#1 →
      embeddedSample bw p (embeddedSample bw p x s) s = embeddedSample bw p x s) ∧
    (s.cfg.mode = 1#1 → embeddedSample bw p (embeddedSample bw p x s) s = x)

/-! ### EXTRACT -/

/-- 43_extract.md R225 (CHECK): a passing CHECK of EXTRACT writes CAPACITY, sets `xacc` to 0 and goes to RUN, or to FINISH when LENGTH
is 0, and changes nothing else. -/
def Obligations.ExtractCheckPasses : Prop :=
  ∀ (s : State) (bw : Nat), s.phase = .check → s.cfg.enc ≠ 3#2 → Transferable bw s →
    exec .extract s = .next { s with
      capacity := BitVec.ofNat 32 (s.geom.width.toNat * s.geom.height.toNat * bw / 8)
      xacc := 0#8
      phase := if s.length = 0#32 then .finish else .run }

/-- The EXTRACT column of 44_operation_selector.md R255: ILLEGAL_CONFIG comes first, with CFG as a host read returns it; then the
checks shared with EMBED. -/
def Obligations.ExtractRaisesTheFirstError : Prop :=
  ∀ s : State, s.phase = .check →
    (s.cfg.enc = 3#2 → exec .extract s = .next (raiseError .illegalConfig (csrRead .cfg s) s)) ∧
    (s.cfg.enc ≠ 3#2 → s.cfg.bitDepth.toNat ∉ [8, 16, 24, 32] →
      exec .extract s = .next (raiseError .unsupportedChannelLayout (s.cfg.bitDepth.setWidth 32) s)) ∧
    ∀ bw pc cap : Nat, s.cfg.enc ≠ 3#2 → 1 ≤ bw → bw ≤ 4 → s.cfg.bitDepth.toNat = 8 * bw →
      pc = s.geom.width.toNat * s.geom.height.toNat → cap = pc * bw / 8 →
      (s.params.pixDepth < pc →
        exec .extract s = .next
          (raiseError .geometryRange (BitVec.ofNat 32 pc) { s with capacity := BitVec.ofNat 32 cap })) ∧
      (pc ≤ s.params.pixDepth → cap < s.length.toNat →
        exec .extract s = .next
          (raiseError .payloadTooLarge (BitVec.ofNat 32 cap) { s with capacity := BitVec.ofNat 32 cap })) ∧
      (pc ≤ s.params.pixDepth → s.length.toNat ≤ cap → s.params.payDepth < s.length.toNat →
        exec .extract s = .next
          (raiseError .lengthRange (BitVec.ofNat 32 s.params.payDepth) { s with capacity := BitVec.ofNat 32 cap }))

/-- 43_extract.md R221: EXTRACT's RUN step. The lane bits of the recovery value are shifted into `xacc`, first lane first; where the
lane with index 7 mod 8 is among them, the byte it completes is stored and the lanes after it start a new one. Every other
byte of every memory is unchanged, and only `xacc`, the cursor and the phase change besides. -/
def Obligations.ExtractRunStepShiftsOnePixelIn : Prop :=
  ∀ (s : State) (bw n k p : Nat) (v : Word), s.phase = .run → 1 ≤ bw → bw ≤ 4 → s.cfg.bitDepth.toNat = 8 * bw →
    n = 8 * s.length.toNat → k = min bw (n - s.r.toNat) → p = s.r.toNat / bw →
    v = (if s.cfg.mode = 1#1 then readWord .pix p s ^^^ readWord .ref p s else readWord .pix p s) →
    s.r.toNat < n → s.r.toNat % bw = 0 → p < s.params.pixDepth → s.length.toNat ≤ s.params.payDepth →
    ∃ t, exec .extract s = .next t ∧
      t = { s with paymem := t.paymem, xacc := t.xacc, r := t.r, phase := t.phase } ∧
      t.r.toNat = s.r.toNat + k ∧
      t.phase = (if s.r.toNat + k = n then .finish else .run) ∧
      (∀ L, L < k → (s.r.toNat + L) % 8 = 7 →
        (∀ j, j ≠ (s.r.toNat + L) / 8 → readByte .pay j t = readByte .pay j s) ∧
        (∀ m, m < 8 → (readByte .pay ((s.r.toNat + L) / 8) t).getLsbD m =
          if m ≤ L then v.getLsbD (bw - 1 - (L - m)) else s.xacc.getLsbD (m - (L + 1))) ∧
        (∀ m, t.xacc.getLsbD m = (decide (m + L + 1 < k) && v.getLsbD (bw - 1 - (k - 1 - m))))) ∧
      ((∀ L, L < k → (s.r.toNat + L) % 8 ≠ 7) →
        (∀ j, readByte .pay j t = readByte .pay j s) ∧
        (∀ m, m < 8 → t.xacc.getLsbD m =
          if m < k then v.getLsbD (bw - 1 - (k - 1 - m)) else s.xacc.getLsbD (m - k)))

/-- 43_extract.md R223: EXTRACT's FINISH step validates `PAY[0 .. LENGTH]` under ENC, completes when it is well formed and else ends
with DECODING_ERROR, the recovered bytes and the cursor left as they are. ENC 0 is UTF_16, 1 UTF_8 and 2 ASCII_7 (10_state.md
R40). -/
def Obligations.ExtractFinishValidates : Prop :=
  (encodingOf 0#2 = some .utf16 ∧ encodingOf 1#2 = some .utf8 ∧ encodingOf 2#2 = some .ascii7 ∧ encodingOf 3#2 = none) ∧
  ∀ (s : State) (enc : TextEncoding) (B : List Byte), s.phase = .finish → encodingOf s.cfg.enc = some enc →
    s.length.toNat ≤ s.params.payDepth → B.length = s.length.toNat →
    (∀ j b, B[j]? = some b → b = readByte .pay j s) →
    (validate enc B = none → exec .extract s = .next (complete s)) ∧
    (∀ info, validate enc B = some info →
      exec .extract s = .next { s with
        errCode := .decodingError
        errInfo := BitVec.ofNat 32 info
        phase := .idle
        status := { s.status with done := true, err := true } })

/-- 43_extract.md R226 with 44_operation_selector.md R261: from an accepted EXTRACT whose CHECK passes, the engine, alone (log 3), ends
after `2 + P` steps; bytes `0 .. LENGTH` of PAYMEM are then the recovered ones, the others and PIXMEM and REFMEM are unchanged, and the
verdict of the validator is reported. -/
def Obligations.ExtractReachesItsClosedForm : Prop :=
  ∀ (s : State) (bw : Nat) (enc : TextEncoding), Accepted .extract s → Transferable bw s →
    encodingOf s.cfg.enc = some enc →
    ∃ t, runSteps (2 + touchedPixels bw s) s = .next t ∧
      t.phase = .idle ∧ t.status.done = true ∧ t.r.toNat = 8 * s.length.toNat ∧
      t.pixmem = s.pixmem ∧ t.refmem = s.refmem ∧
      (∀ j, readByte .pay j t = if j < s.length.toNat then recoveredByte s bw j else readByte .pay j s) ∧
      (match validate enc ((List.range s.length.toNat).map fun j => recoveredByte s bw j) with
      | none => t.status.err = false ∧ t.errCode = .none ∧ t.errInfo = 0#32
      | some info => t.status.err = true ∧ t.errCode = .decodingError ∧ t.errInfo.toNat = info)

/-- 43_extract.md R226 and 10_state.md R63 under any interleaving: while no reset comes, each step of an EXTRACT in progress over the
old PAYMEM `Y` keeps the bytes before the cursor's recovered, the others old, and `xacc` holding the bits of the current byte. -/
def Obligations.ExtractProgressSurvivesTheHost : Prop :=
  ∀ (Y : Nat → Byte) (bw : Nat) (s s' : State), Inv s → s.phase ≠ .idle → s.opw = encode .extract →
    byteWidth? s.cfg.bitDepth = some bw → NoResetNext s → step s = .next s' →
    ExtractProgress bw Y s → ExtractProgress bw Y s'

/-- 43_extract.md R227: in REPLACE mode, EXTRACT after a successful EMBED with the same BIT_DEPTH, GEOM, LENGTH and MODE recovers the
payload, whatever the image was and whatever REFMEM holds; it succeeds if the payload is well formed under ENC and ends with
DECODING_ERROR otherwise. In both operations the engine runs alone (log 3). -/
def Obligations.RoundTripInReplaceMode : Prop :=
  ∀ (s t u : State) (bw : Nat) (enc : TextEncoding), Accepted .embed s → Transferable bw s → s.cfg.mode = 0#1 →
    runSteps (2 + touchedPixels bw s) s = .next t →
    Accepted .extract u → encodingOf u.cfg.enc = some enc → u.cfg.bitDepth = s.cfg.bitDepth → u.cfg.mode = s.cfg.mode →
    u.geom = s.geom → u.length = s.length → u.params = s.params →
    (∀ p, p < s.params.pixDepth → readWord .pix p u = readWord .pix p t) →
    ∃ t', runSteps (2 + touchedPixels bw s) u = .next t' ∧ t'.phase = .idle ∧ t'.r.toNat = 8 * s.length.toNat ∧
      (∀ j, j < s.length.toNat → readByte .pay j t' = readByte .pay j s) ∧
      (match validate enc (payload s) with
      | none => t'.status.err = false ∧ t'.errCode = .none
      | some info => t'.status.err = true ∧ t'.errCode = .decodingError ∧ t'.errInfo.toNat = info)

/-- 43_extract.md R228: in XOR_SOURCE mode the round trip holds when REFMEM holds the original samples. In both operations the engine
runs alone (log 3). -/
def Obligations.RoundTripInXorSourceMode : Prop :=
  ∀ (s t u : State) (bw : Nat), Accepted .embed s → Transferable bw s → s.cfg.mode = 1#1 →
    runSteps (2 + touchedPixels bw s) s = .next t →
    Accepted .extract u → encodingOf u.cfg.enc ≠ none → u.cfg.bitDepth = s.cfg.bitDepth → u.cfg.mode = s.cfg.mode →
    u.geom = s.geom → u.length = s.length → u.params = s.params →
    (∀ p, p < s.params.pixDepth → readWord .pix p u = readWord .pix p t) →
    (∀ p, p < touchedPixels bw s → readWord .ref p u = readWord .pix p s) →
    ∃ t', runSteps (2 + touchedPixels bw s) u = .next t' ∧ t'.phase = .idle ∧ t'.r.toNat = 8 * s.length.toNat ∧
      ∀ j, j < s.length.toNat → readByte .pay j t' = readByte .pay j s

/-- 43_extract.md R229: in XOR_SOURCE mode with a REFMEM that holds `Y` and not the original `X`, recovered bit `i` is the payload bit
flipped where `X` and `Y` differ in its lane. In both operations the engine runs alone (log 3). -/
def Obligations.WrongReferenceFlipsRecoveredBits : Prop :=
  ∀ (s t u : State) (bw : Nat), Accepted .embed s → Transferable bw s → s.cfg.mode = 1#1 →
    runSteps (2 + touchedPixels bw s) s = .next t →
    Accepted .extract u → encodingOf u.cfg.enc ≠ none → u.cfg.bitDepth = s.cfg.bitDepth → u.cfg.mode = s.cfg.mode →
    u.geom = s.geom → u.length = s.length → u.params = s.params →
    (∀ p, p < s.params.pixDepth → readWord .pix p u = readWord .pix p t) →
    ∃ t', runSteps (2 + touchedPixels bw s) u = .next t' ∧
      ∀ i p L, i < payloadBits s → p = i / bw → L = i % bw →
        payloadBit t' i = (payloadBit s i ^^ lbit (readWord .pix p s ^^^ readWord .ref p u) L bw)

/-! ### Sub-units -/

/-- 41_capacity.md R151 and R154: no input overflows the calculator, and every embeddable bit lies in the image. -/
def Obligations.CapacityStaysInTheImage : Prop :=
  ∀ (g : Geom) (bw : Nat), 1 ≤ bw → bw ≤ 4 →
    pixelCount g ≤ 4294836225 ∧
    capacityOf (pixelCount g) bw ≤ 0x7FFF0000 ∧
    8 * capacityOf (pixelCount g) bw ≤ pixelCount g * bw ∧
    pixelCount g * bw - 8 * capacityOf (pixelCount g) bw ≤ 7 ∧
    (∀ i, i < 8 * capacityOf (pixelCount g) bw → (channelIndex i bw).1 < pixelCount g ∧ (channelIndex i bw).2 < bw) ∧
    (∀ i, i = (channelIndex i bw).1 * bw + (channelIndex i bw).2)

/-- 43_extract.md R211: the unpacker inverts the packer on every byte; and unpacked bits are packed back in their order. -/
def Obligations.UnpackInvertsPack : Prop :=
  (∀ x : Byte, unpack (packBit x) = x) ∧
  (∀ (f : Nat → Bool) (t : Nat), t < 8 → packBit (unpack f) t = f t)

/-- 43_extract.md R215 and R218: UTF_16 checks the parity of the length only; ASCII_7 gives the index of the first byte at or
above 0x80. -/
def Obligations.Utf16AndAscii7Verdicts : Prop :=
  ∀ B : List Byte,
    (validate .utf16 B = none ↔ B.length % 2 = 0) ∧
    (B.length % 2 = 1 → validate .utf16 B = some B.length) ∧
    (validate .ascii7 B = none ↔ ∀ b ∈ B, b.toNat ≤ 0x7F) ∧
    (∀ k, validate .ascii7 B = some k ↔
      (∃ b, B[k]? = some b ∧ 0x80 ≤ b.toNat) ∧ ∀ j b, j < k → B[j]? = some b → b.toNat ≤ 0x7F)

/-- 43_extract.md R216: UTF_8 accepts exactly the sequences that split into rows of the table, written out as `utf8Table`. -/
def Obligations.Utf8AcceptsExactlyTheTable : Prop :=
  ∀ B : List Byte, validate .utf8 B = none ↔ WellFormedUtf8 B

/-- 43_extract.md R217: the scan gives the verdict of the rule's loop over the rows of `utf8Table`, on every byte sequence. -/
def Obligations.Utf8ScanIsTheLoop : Prop :=
  ∀ B : List Byte, validate .utf8 B = utf8Loop B (B.length + 1) 0

/-- 43_extract.md R219: the empty sequence is well formed under every encoding, so an EXTRACT of LENGTH 0 completes. -/
def Obligations.EmptyPayloadCompletes : Prop :=
  ∀ (s : State) (enc : TextEncoding), s.phase = .finish → encodingOf s.cfg.enc = some enc → s.length = 0#32 →
    validate enc [] = none ∧ exec .extract s = .next (complete s)

/-! ### Host transactions -/

/-- 20_memory.md R86, R87, R88: a transaction of the wrong size, misaligned, or outside the map is answered SLVERR and has no effect on
any state; every other one is answered OKAY. -/
def Obligations.BadTransactionsAnswerSlverr : Prop :=
  ∀ (t : BusTxn) (s : State),
    (busStep t s = { s with resp := some .slverr } ↔
      t.size ≠ 4 ∨ t.off.toNat % 4 ≠ 0 ∨
      (0x1000 ≤ t.off.toNat ∧ t.off.toNat < 0x10000000) ∨
      (0x10000000 + 4 * s.params.pixDepth ≤ t.off.toNat ∧ t.off.toNat < 0x20000000) ∨
      (0x20000000 + 4 * s.params.pixDepth ≤ t.off.toNat ∧ t.off.toNat < 0x30000000) ∨
      0x30000000 + s.params.payDepth ≤ t.off.toNat) ∧
    ((busStep t s).resp ≠ some .slverr → t.kind = .write → (busStep t s).resp = some .writeOkay) ∧
    ((busStep t s).resp ≠ some .slverr → t.kind = .read → ∃ v, (busStep t s).resp = some (.readOkay v))

/-- 20_memory.md R89, R99: a read changes no register, no flag and no memory. -/
def Obligations.ReadsHaveNoSideEffect : Prop :=
  ∀ (t : BusTxn) (s : State), t.kind = .read → busStep t s = { s with resp := (busStep t s).resp }

/-- 10_state.md R33, R34, R35, R47, R48: the constant registers read their values at all times. -/
def Obligations.ConstantRegistersRead : Prop :=
  ∀ s : State,
    (busStep (memRead 0x00#32) s).resp = some (.readOkay 0x4C534243#32) ∧
    (busStep (memRead 0x04#32) s).resp = some (.readOkay 0x00010000#32) ∧
    (busStep (memRead 0x08#32) s).resp = some (.readOkay 0x00000000#32) ∧
    (∃ v, (busStep (memRead 0x3C#32) s).resp = some (.readOkay v) ∧ v.toNat = s.params.pixDepth) ∧
    (∃ v, (busStep (memRead 0x40#32) s).resp = some (.readOkay v) ∧ v.toNat = s.params.payDepth)

/-- 20_memory.md R81, R89 with 10_state.md R32, R36 to R38, R42 to R46, R49 to R52 and 60_exceptions.md R281: what a host read of
each offset from 0x0C to 0x38 returns: the register that stands there, its fields at their bits, reserved bits 0. -/
def Obligations.FieldsStandAtTheirBits : Prop :=
  ∀ s : State,
    ((busStep (memRead 0x0C#32) s).resp = some (.readOkay (csrRead .status s)) ∧
      (csrRead .status s).toNat = (if s.phase = .idle then 0 else 1) + 2 * s.status.done.toNat + 4 * s.status.err.toNat
        + 8 * s.status.haz.toNat) ∧
    ((busStep (memRead 0x10#32) s).resp = some (.readOkay (csrRead .irqEn s)) ∧
      (csrRead .irqEn s).toNat = s.irqEn.doneIe.toNat + 2 * s.irqEn.errIe.toNat + 4 * s.irqEn.hazIe.toNat) ∧
    ((busStep (memRead 0x14#32) s).resp = some (.readOkay (csrRead .cfg s)) ∧
      (csrRead .cfg s).toNat = s.cfg.bitDepth.toNat + 256 * s.cfg.enc.toNat + 65536 * s.cfg.mode.toNat) ∧
    ((busStep (memRead 0x18#32) s).resp = some (.readOkay (csrRead .geom s)) ∧
      (csrRead .geom s).toNat = s.geom.width.toNat + 65536 * s.geom.height.toNat) ∧
    (busStep (memRead 0x1C#32) s).resp = some (.readOkay s.length) ∧
    (busStep (memRead 0x20#32) s).resp = some (.readOkay s.capacity) ∧
    ((busStep (memRead 0x24#32) s).resp = some (.readOkay (csrRead .errCode s)) ∧
      (csrRead .errCode s).toNat =
        (match s.errCode with
        | .none => 0
        | .payloadTooLarge => 1
        | .unsupportedChannelLayout => 2
        | .decodingError => 3
        | .sourceUnavailable => 4
        | .illegalCommand => 5
        | .illegalConfig => 6
        | .geometryRange => 7
        | .lengthRange => 8)) ∧
    (busStep (memRead 0x28#32) s).resp = some (.readOkay s.errInfo) ∧
    (busStep (memRead 0x2C#32) s).resp = some (.readOkay s.r) ∧
    (busStep (memRead 0x30#32) s).resp = some (.readOkay s.idxIn) ∧
    (busStep (memRead 0x34#32) s).resp = some (.readOkay s.idxPixel) ∧
    ((busStep (memRead 0x38#32) s).resp = some (.readOkay (csrRead .idxLane s)) ∧
      (csrRead .idxLane s).toNat = s.idxLane.lane.toNat + 256 * s.idxLane.bitpos.toNat)

/-- 10_state.md R38, R42, R43, R50 with 20_memory.md R90: while IDLE a write to CFG, GEOM, LENGTH or IDX_IN is stored, its reserved bits
ignored, and changes nothing else. -/
def Obligations.IdleConfigurationWritesAreStored : Prop :=
  ∀ (s : State) (v : Word), s.phase = .idle →
    (∃ c, busStep (memWrite 0x14#32 v) s = { s with cfg := c, resp := some .writeOkay } ∧
      csrRead .cfg { s with cfg := c } = v &&& 0x000103FF#32) ∧
    (∃ g, busStep (memWrite 0x18#32 v) s = { s with geom := g, resp := some .writeOkay } ∧
      csrRead .geom { s with geom := g } = v) ∧
    busStep (memWrite 0x1C#32 v) s = { s with length := v, resp := some .writeOkay } ∧
    busStep (memWrite 0x30#32 v) s = { s with idxIn := v, resp := some .writeOkay }

/-- 10_state.md R36, R37 with 20_memory.md R95: writes to STATUS clear the flags written 1 and writes to IRQ_EN are stored, at any
time, BUSY or not, and change nothing else. -/
def Obligations.StatusAndIrqEnWritesAlwaysAct : Prop :=
  ∀ (s : State) (v : Word),
    (∃ f, busStep (memWrite 0x0C#32 v) s = { s with status := f, resp := some .writeOkay } ∧
      f.done = (s.status.done && !v.getLsbD 1) ∧ f.err = (s.status.err && !v.getLsbD 2) ∧
      f.haz = (s.status.haz && !v.getLsbD 3)) ∧
    (∃ e, busStep (memWrite 0x10#32 v) s = { s with irqEn := e, resp := some .writeOkay } ∧
      csrRead .irqEn { s with irqEn := e } = v &&& 0x7#32)

/-- 10_state.md R53, R54 with 20_memory.md R95: writes to reserved offsets and to read-only registers are ignored, whether BUSY or not,
and reserved offsets read 0. -/
def Obligations.ReservedAndReadOnlyWritesAreIgnored : Prop :=
  ∀ (s : State) (off v : Word), off.toNat % 4 = 0 →
    (0x44 ≤ off.toNat ∧ off.toNat ≤ 0xFFC →
      busStep (memRead off) s = { s with resp := some (.readOkay 0#32) } ∧
      busStep (memWrite off v) s = { s with resp := some .writeOkay }) ∧
    (off.toNat ∈ [0x00, 0x04, 0x20, 0x24, 0x28, 0x2C, 0x34, 0x38, 0x3C, 0x40] →
      busStep (memWrite off v) s = { s with resp := some .writeOkay })

/-- 20_memory.md R94: while BUSY, an accepted write to CMD, CFG, GEOM, LENGTH or IDX_IN, or to a word of a window, changes nothing at its
target, sets HAZ and is answered OKAY. -/
def Obligations.BusyWritesAreDropped : Prop :=
  ∀ (s : State) (off v : Word), s.phase ≠ .idle → off.toNat % 4 = 0 → GuardedOffset s.params off.toNat →
    busStep (memWrite off v) s =
      { s with status := { s.status with haz := true }, resp := some .writeOkay }

/-- 20_memory.md R82, R84, R91, R92: a read of a PIX or REF word returns the current word at any time, BUSY or not; while IDLE a write of
one is stored, every other byte of every memory keeps its value, and a read then returns the word written. -/
def Obligations.WindowWritesAreReadBack : Prop :=
  ∀ (s : State) (k : Nat) (v off : Word), k < s.params.pixDepth →
    (off.toNat = 0x10000000 + 4 * k →
      busStep (memRead off) s = { s with resp := some (.readOkay (readWord .pix k s)) } ∧
      (s.phase = .idle →
        ∃ m, busStep (memWrite off v) s = { s with pixmem := m, resp := some .writeOkay } ∧
          (busStep (memRead off) { s with pixmem := m }).resp = some (.readOkay v) ∧
          ∀ a, a < 4 * k ∨ 4 * k + 4 ≤ a → readByte .pix a { s with pixmem := m } = readByte .pix a s)) ∧
    (off.toNat = 0x20000000 + 4 * k →
      busStep (memRead off) s = { s with resp := some (.readOkay (readWord .ref k s)) } ∧
      (s.phase = .idle →
        ∃ m, busStep (memWrite off v) s = { s with refmem := m, resp := some .writeOkay } ∧
          (busStep (memRead off) { s with refmem := m }).resp = some (.readOkay v) ∧
          ∀ a, a < 4 * k ∨ 4 * k + 4 ≤ a → readByte .ref a { s with refmem := m } = readByte .ref a s))

/-- 20_memory.md R83: in the PAY window offset `0x3000_0000 + 4k` selects bytes `4k` to `4k + 3`, little-endian, for a read and, while
IDLE, for a write. -/
def Obligations.PayWindowIsLittleEndian : Prop :=
  ∀ (s : State) (k : Nat) (v off : Word), k < s.params.payDepth / 4 → off.toNat = 0x30000000 + 4 * k →
    (∃ d, busStep (memRead off) s = { s with resp := some (.readOkay d) } ∧
      ∀ i, i < 4 → d.extractLsb' (8 * i) 8 = readByte .pay (4 * k + i) s) ∧
    (s.phase = .idle →
      ∃ m, busStep (memWrite off v) s = { s with paymem := m, resp := some .writeOkay } ∧
        (∀ i, i < 4 → readByte .pay (4 * k + i) { s with paymem := m } = v.extractLsb' (8 * i) 8) ∧
        ∀ a, a < 4 * k ∨ 4 * k + 4 ≤ a → readByte .pay a { s with paymem := m } = readByte .pay a s)

/-- 20_memory.md R99: a host transaction other than a CMD write is idempotent: making it twice is the same as making it once. -/
def Obligations.RepeatedTransactionsAreIdempotent : Prop :=
  ∀ (t : BusTxn) (s : State), t.off ≠ 0x08#32 → busStep t (busStep t s) = busStep t s

/-- 10_state.md R55 and 60_exceptions.md R293: `irq` is high exactly when an enabled source is pending, in the same step that changes
the enables or clears flags: enabling a pending source raises it at once, and disabling or clearing it lowers it at once unless
another enabled source is pending. -/
def Obligations.IrqFollowsFlagsAndEnables : Prop :=
  ∀ (s : State) (v : Word),
    (irq s = true ↔
      (s.status.done = true ∧ s.irqEn.doneIe = true) ∨ (s.status.err = true ∧ s.irqEn.errIe = true) ∨
      (s.status.haz = true ∧ s.irqEn.hazIe = true)) ∧
    (irq (busStep (memWrite 0x10#32 v) s) = true ↔
      (s.status.done = true ∧ v.getLsbD 0 = true) ∨ (s.status.err = true ∧ v.getLsbD 1 = true) ∨
      (s.status.haz = true ∧ v.getLsbD 2 = true)) ∧
    (irq (busStep (memWrite 0x0C#32 v) s) = true ↔
      (s.status.done = true ∧ v.getLsbD 1 = false ∧ s.irqEn.doneIe = true) ∨
      (s.status.err = true ∧ v.getLsbD 2 = false ∧ s.irqEn.errIe = true) ∨
      (s.status.haz = true ∧ v.getLsbD 3 = false ∧ s.irqEn.hazIe = true))

/-- 30_encoding.md R128: a POLL reads once; when the data matches it is over, and else it is tried again, after a turn of the engine
(the interleaving is the model's choice, log 5). -/
def Obligations.PollRepeatsUntilTheDataMatches : Prop :=
  ∀ (s : State) (off mask val d : Word) (es : List Event), s.schedule = .poll off mask val :: es →
    (busStep (memRead off) s).resp = some (.readOkay d) →
    (d &&& mask = val → step s = .next { s with schedule := es, resp := some (.readOkay d) }) ∧
    (d &&& mask ≠ val →
      step s = .next { s with schedule := .engine :: .poll off mask val :: es, resp := some (.readOkay d) })

/-- 30_encoding.md R128 to R131: the transactions a base statement stands for, and the expansion of each pseudo-statement, as written
words. LOADPIX and LOADREF write their words one after another; LOADPAY packs its bytes four to a word, the first lowest, and the high
bytes it lacks are 0. -/
def Obligations.PseudoStatementsExpand : Prop :=
  (∀ off v : Word, encodeProgram [.wr off v] = [⟨.write, off, 4, v⟩]) ∧
  (∀ (off : Word) (name : String), encodeProgram [.rd off name] = [⟨.read, off, 4, 0#32⟩]) ∧
  (∀ off mask val : Word, encodeProgram [.poll off mask val] = [⟨.read, off, 4, 0#32⟩]) ∧
  (∀ bd enc mode : Nat, (HostStmt.setcfg bd enc mode).wellFormed = true →
    ∃ v, expand (.setcfg bd enc mode) = [.wr 0x14#32 v] ∧ v.toNat = bd + 256 * enc + 65536 * mode) ∧
  (∀ w h : Nat, (HostStmt.setgeom w h).wellFormed = true →
    ∃ v, expand (.setgeom w h) = [.wr 0x18#32 v] ∧ v.toNat = w + 65536 * h) ∧
  (∀ i, expand (.cmd i) = [.wr 0x08#32 (encode i)]) ∧
  expand .wait = [.poll 0x0C#32 0x2#32 0x2#32] ∧
  expand .ack = [.wr 0x0C#32 0xE#32] ∧
  (∀ (p : Nat) (vs : List Word), (HostStmt.loadpix p vs).wellFormed = true →
    (expand (.loadpix p vs)).length = vs.length ∧
    ∀ j v, vs[j]? = some v →
      ∃ off, (expand (.loadpix p vs))[j]? = some (.wr off v) ∧ off.toNat = 0x10000000 + 4 * (p + j)) ∧
  (∀ (p : Nat) (vs : List Word), (HostStmt.loadref p vs).wellFormed = true →
    (expand (.loadref p vs)).length = vs.length ∧
    ∀ j v, vs[j]? = some v →
      ∃ off, (expand (.loadref p vs))[j]? = some (.wr off v) ∧ off.toNat = 0x20000000 + 4 * (p + j)) ∧
  (∀ bs : List Byte, (HostStmt.loadpay bs).wellFormed = true →
    (expand (.loadpay bs)).length = (bs.length + 3) / 4 ∧
    ∀ k, k < (bs.length + 3) / 4 →
      ∃ off w, (expand (.loadpay bs))[k]? = some (.wr off w) ∧ off.toNat = 0x30000000 + 4 * k ∧
        ∀ i, i < 4 → w.extractLsb' (8 * i) 8 = bs[4 * k + i]?.getD 0#8)

/-- 30_encoding.md R128, R131 with 00_scope.md R13: a loaded program makes the transactions of its encoding, in order, whatever number of
engine turns `gaps` puts before each, and every interleaving of its statements with engine turns is some choice of `gaps`, with
turns after the last statement. How many turns fall there is the model's argument (log 13). -/
def Obligations.LoadedProgramsInterleaveFreely : Prop :=
  ∀ (prog : List HostStmt) (s : State),
    (∀ gaps, ∃ es, loadProgram gaps prog s = { s with schedule := s.schedule ++ es } ∧
      es.filterMap eventTxn = encodeProgram prog ∧
      es.filter (fun e => decide (e ≠ .engine)) = (expandAll prog).map BaseStmt.event) ∧
    (∀ es : List Event, es.filter (fun e => decide (e ≠ .engine)) = (expandAll prog).map BaseStmt.event →
      ∃ gaps n, s.schedule ++ es = (loadProgram gaps prog s).schedule ++ List.replicate n .engine)

/-! ### Reset -/

/-- 70_reset_and_hazards.md R320, R321: a reset, when it is scheduled (log 3), sets every CSR field and the engine to their reset values
and changes no memory. -/
def Obligations.ResetClearsRegistersAndKeepsMemories : Prop :=
  ∀ (s : State) (es : List Event), s.schedule = .reset :: es →
    ∃ t, step s = .next t ∧
      (∀ c, csrRead c t =
        match c with
        | .id => 0x4C534243#32
        | .version => 0x00010000#32
        | .pixDepth => BitVec.ofNat 32 s.params.pixDepth
        | .payDepth => BitVec.ofNat 32 s.params.payDepth
        | _ => 0#32) ∧
      t.phase = .idle ∧ t.opw = 0#32 ∧ t.r = 0#32 ∧ t.xacc = 0#8 ∧ irq t = false ∧
      t.pixmem = s.pixmem ∧ t.refmem = s.refmem ∧ t.paymem = s.paymem ∧ t.params = s.params ∧ t.schedule = es

/-- 70_reset_and_hazards.md R320, R324: the state after power-up and reset reads 0 in every register but the constant ones, with the
engine IDLE and no byte written. -/
def Obligations.ResetStateReadsItsResetValues : Prop :=
  (∀ c, csrRead c State.reset =
    match c with
    | .id => 0x4C534243#32
    | .version => 0x00010000#32
    | .pixDepth => BitVec.ofNat 32 Config.params.pixDepth
    | .payDepth => BitVec.ofNat 32 Config.params.payDepth
    | _ => 0#32) ∧
  State.reset.phase = .idle ∧ irq State.reset = false ∧
  ∀ id, State.reset.memory id = []

/-! ### Whole-machine rules -/

/-- The invariant holds at reset. -/
def Obligations.ResetMeetsTheInvariant : Prop := Inv State.reset

/-- Every step, of the host, of the engine or a reset, keeps the invariant. -/
def Obligations.StepKeepsTheInvariant : Prop :=
  ∀ s s' : State, Inv s → step s = .next s' → Inv s'

/-- 44_operation_selector.md R266, 60_exceptions.md R280: the block has no hang and no stuck state, and never traps: from a state that
meets the invariant every step answers a next state. -/
def Obligations.NoStepIsStuck : Prop :=
  ∀ s : State, Inv s → ∃ s', step s = .next s'

/-- 44_operation_selector.md R259: the phase transitions, and that no other exists. -/
def Obligations.PhaseTransitionsAreTheTable : Prop :=
  ∀ s s' : State, Inv s → NoResetNext s → step s = .next s' →
    s'.phase = s.phase ∨
    (s.phase = .idle ∧ s'.phase = .check ∧ ∃ t es, s.schedule = .bus t :: es ∧ t.kind = .write ∧ t.off = 0x08#32) ∨
    (s.phase = .check ∧ s'.phase = .idle ∧ s'.status.done = true) ∨
    (s.phase = .check ∧ s'.phase = .finish ∧ payloadBits s = 0) ∨
    (s.phase = .check ∧ s'.phase = .run ∧ 0 < payloadBits s) ∨
    (s.phase = .run ∧ s'.phase = .finish ∧ s'.r.toNat = payloadBits s) ∨
    (s.phase = .finish ∧ s'.phase = .idle ∧ s'.status.done = true)

/-- 30_encoding.md R124, 10_state.md R61, 20_memory.md R94: between acceptance and completion the operation's word and operands cannot
change, whatever the host does. -/
def Obligations.OperandsAreStableWhileBusy : Prop :=
  ∀ s s' : State, s.phase ≠ .idle → NoResetNext s → step s = .next s' →
    s'.opw = s.opw ∧ s'.cfg = s.cfg ∧ s'.geom = s.geom ∧ s'.length = s.length ∧ s'.idxIn = s.idxIn ∧
    s'.refmem = s.refmem ∧ s'.params = s.params

/-- 20_memory.md R105, R106, R107 and 10_state.md R58: the engine writes PIXMEM only in an EMBED and PAYMEM only in an EXTRACT, and
never REFMEM. -/
def Obligations.EngineWritesOnlyItsMemory : Prop :=
  ∀ s t s' : State, EngineTurn s t → step s = .next s' →
    s'.refmem = s.refmem ∧
    (s.opw ≠ encode .embed → s'.pixmem = s.pixmem) ∧
    (s.opw ≠ encode .extract → s'.paymem = s.paymem)

/-- 42_embed.md R188, 60_exceptions.md R289: an operation that ends in its CHECK step leaves every memory as it was and BITCNT 0. -/
def Obligations.CheckErrorsLeaveMemoriesAlone : Prop :=
  ∀ s t s' : State, Inv s → EngineTurn s t → s.phase = .check → step s = .next s' →
    s'.pixmem = s.pixmem ∧ s'.refmem = s.refmem ∧ s'.paymem = s.paymem ∧ s'.r = 0#32

/-- 44_operation_selector.md R262, 60_exceptions.md R288, R281: an engine step that ends an operation sets DONE; it sets ERR exactly when
it leaves an error code, the code is one the block may raise, and with no error ERR_INFO is 0. HAZ, IRQ_EN and the
configuration are unchanged. -/
def Obligations.EveryCompletionIsReported : Prop :=
  ∀ s t s' : State, Inv s → EngineTurn s t → s.phase ≠ .idle → step s = .next s' → s'.phase = .idle →
    s'.status.done = true ∧
    (s'.status.err = true ↔ s'.errCode ≠ .none) ∧
    (s'.errCode = .none → s'.errInfo = 0#32) ∧
    s'.errCode ≠ .sourceUnavailable ∧
    s'.status.haz = s.status.haz ∧ s'.irqEn = s.irqEn ∧ s'.cfg = s.cfg ∧ s'.geom = s.geom ∧ s'.length = s.length

/-- 10_state.md R56 with 20_memory.md R94: HAZ is set only by a host write that is dropped while BUSY (4 bytes, aligned, to a guarded
offset) and cleared only by a host's write of 1 to it or by reset. -/
def Obligations.HazIsSticky : Prop :=
  ∀ s s' : State, step s = .next s' →
    (s.status.haz = false → s'.status.haz = true →
      s.phase ≠ .idle ∧ ∃ t es, s.schedule = .bus t :: es ∧ t.kind = .write ∧ t.size = 4 ∧ t.off.toNat % 4 = 0 ∧
        GuardedOffset s.params t.off.toNat) ∧
    (s.status.haz = true → s'.status.haz = false →
      (∃ es, s.schedule = .reset :: es) ∨
        ∃ t es, s.schedule = .bus t :: es ∧ t.kind = .write ∧ t.off = 0x0C#32 ∧ t.wdata.getLsbD 3 = true)

/-- 44_operation_selector.md R266 with R261: from any state that meets the invariant with nothing scheduled, the engine alone (log 3) ends the
operation in progress within `2 + N` steps: every accepted operation completes. -/
def Obligations.EveryOperationEnds : Prop :=
  ∀ s : State, Inv s → s.schedule = [] → s.phase ≠ .idle →
    ∃ n t, n ≤ 2 + payloadBits s ∧ runSteps n s = .next t ∧ t.phase = .idle ∧ t.status.done = true
end

