-- ==== Sys2Proof/Laws/State.lean ====
section
/-! SUPPORT. One lemma per field and update: what each shared update of the state leaves in each field. -/

namespace Sys2Proof.Machine

variable (s : State)

/-! ### raiseError -/

@[simp] theorem raiseError_status (c : ErrKind) (i : Word) : (raiseError c i s).status = { s.status with err := true, done := true } := by rfl
@[simp] theorem raiseError_irqEn (c : ErrKind) (i : Word) : (raiseError c i s).irqEn = s.irqEn := by rfl
@[simp] theorem raiseError_cfg (c : ErrKind) (i : Word) : (raiseError c i s).cfg = s.cfg := by rfl
@[simp] theorem raiseError_geom (c : ErrKind) (i : Word) : (raiseError c i s).geom = s.geom := by rfl
@[simp] theorem raiseError_length (c : ErrKind) (i : Word) : (raiseError c i s).length = s.length := by rfl
@[simp] theorem raiseError_capacity (c : ErrKind) (i : Word) : (raiseError c i s).capacity = s.capacity := by rfl
@[simp] theorem raiseError_errCode (c : ErrKind) (i : Word) : (raiseError c i s).errCode = c := by rfl
@[simp] theorem raiseError_errInfo (c : ErrKind) (i : Word) : (raiseError c i s).errInfo = i := by rfl
@[simp] theorem raiseError_idxIn (c : ErrKind) (i : Word) : (raiseError c i s).idxIn = s.idxIn := by rfl
@[simp] theorem raiseError_idxPixel (c : ErrKind) (i : Word) : (raiseError c i s).idxPixel = s.idxPixel := by rfl
@[simp] theorem raiseError_idxLane (c : ErrKind) (i : Word) : (raiseError c i s).idxLane = s.idxLane := by rfl
@[simp] theorem raiseError_phase (c : ErrKind) (i : Word) : (raiseError c i s).phase = .idle := by rfl
@[simp] theorem raiseError_opw (c : ErrKind) (i : Word) : (raiseError c i s).opw = s.opw := by rfl
@[simp] theorem raiseError_r (c : ErrKind) (i : Word) : (raiseError c i s).r = s.r := by rfl
@[simp] theorem raiseError_xacc (c : ErrKind) (i : Word) : (raiseError c i s).xacc = s.xacc := by rfl
@[simp] theorem raiseError_pixmem (c : ErrKind) (i : Word) : (raiseError c i s).pixmem = s.pixmem := by rfl
@[simp] theorem raiseError_refmem (c : ErrKind) (i : Word) : (raiseError c i s).refmem = s.refmem := by rfl
@[simp] theorem raiseError_paymem (c : ErrKind) (i : Word) : (raiseError c i s).paymem = s.paymem := by rfl
@[simp] theorem raiseError_params (c : ErrKind) (i : Word) : (raiseError c i s).params = s.params := by rfl
@[simp] theorem raiseError_schedule (c : ErrKind) (i : Word) : (raiseError c i s).schedule = s.schedule := by rfl
@[simp] theorem raiseError_resp (c : ErrKind) (i : Word) : (raiseError c i s).resp = s.resp := by rfl

/-! ### complete -/

@[simp] theorem complete_status : (complete s).status = { s.status with done := true } := by rfl
@[simp] theorem complete_irqEn : (complete s).irqEn = s.irqEn := by rfl
@[simp] theorem complete_cfg : (complete s).cfg = s.cfg := by rfl
@[simp] theorem complete_geom : (complete s).geom = s.geom := by rfl
@[simp] theorem complete_length : (complete s).length = s.length := by rfl
@[simp] theorem complete_capacity : (complete s).capacity = s.capacity := by rfl
@[simp] theorem complete_errCode : (complete s).errCode = s.errCode := by rfl
@[simp] theorem complete_errInfo : (complete s).errInfo = s.errInfo := by rfl
@[simp] theorem complete_idxIn : (complete s).idxIn = s.idxIn := by rfl
@[simp] theorem complete_idxPixel : (complete s).idxPixel = s.idxPixel := by rfl
@[simp] theorem complete_idxLane : (complete s).idxLane = s.idxLane := by rfl
@[simp] theorem complete_phase : (complete s).phase = .idle := by rfl
@[simp] theorem complete_opw : (complete s).opw = s.opw := by rfl
@[simp] theorem complete_r : (complete s).r = s.r := by rfl
@[simp] theorem complete_xacc : (complete s).xacc = s.xacc := by rfl
@[simp] theorem complete_pixmem : (complete s).pixmem = s.pixmem := by rfl
@[simp] theorem complete_refmem : (complete s).refmem = s.refmem := by rfl
@[simp] theorem complete_paymem : (complete s).paymem = s.paymem := by rfl
@[simp] theorem complete_params : (complete s).params = s.params := by rfl
@[simp] theorem complete_schedule : (complete s).schedule = s.schedule := by rfl
@[simp] theorem complete_resp : (complete s).resp = s.resp := by rfl

/-! ### acceptCommand -/

@[simp] theorem acceptCommand_status (w : Word) : (acceptCommand w s).status = { s.status with done := false, err := false } := by rfl
@[simp] theorem acceptCommand_irqEn (w : Word) : (acceptCommand w s).irqEn = s.irqEn := by rfl
@[simp] theorem acceptCommand_cfg (w : Word) : (acceptCommand w s).cfg = s.cfg := by rfl
@[simp] theorem acceptCommand_geom (w : Word) : (acceptCommand w s).geom = s.geom := by rfl
@[simp] theorem acceptCommand_length (w : Word) : (acceptCommand w s).length = s.length := by rfl
@[simp] theorem acceptCommand_capacity (w : Word) : (acceptCommand w s).capacity = s.capacity := by rfl
@[simp] theorem acceptCommand_errCode (w : Word) : (acceptCommand w s).errCode = .none := by rfl
@[simp] theorem acceptCommand_errInfo (w : Word) : (acceptCommand w s).errInfo = 0#32 := by rfl
@[simp] theorem acceptCommand_idxIn (w : Word) : (acceptCommand w s).idxIn = s.idxIn := by rfl
@[simp] theorem acceptCommand_idxPixel (w : Word) : (acceptCommand w s).idxPixel = s.idxPixel := by rfl
@[simp] theorem acceptCommand_idxLane (w : Word) : (acceptCommand w s).idxLane = s.idxLane := by rfl
@[simp] theorem acceptCommand_phase (w : Word) : (acceptCommand w s).phase = .check := by rfl
@[simp] theorem acceptCommand_opw (w : Word) : (acceptCommand w s).opw = w := by rfl
@[simp] theorem acceptCommand_r (w : Word) : (acceptCommand w s).r = 0#32 := by rfl
@[simp] theorem acceptCommand_xacc (w : Word) : (acceptCommand w s).xacc = 0#8 := by rfl
@[simp] theorem acceptCommand_pixmem (w : Word) : (acceptCommand w s).pixmem = s.pixmem := by rfl
@[simp] theorem acceptCommand_refmem (w : Word) : (acceptCommand w s).refmem = s.refmem := by rfl
@[simp] theorem acceptCommand_paymem (w : Word) : (acceptCommand w s).paymem = s.paymem := by rfl
@[simp] theorem acceptCommand_params (w : Word) : (acceptCommand w s).params = s.params := by rfl
@[simp] theorem acceptCommand_schedule (w : Word) : (acceptCommand w s).schedule = s.schedule := by rfl
@[simp] theorem acceptCommand_resp (w : Word) : (acceptCommand w s).resp = s.resp := by rfl

/-! ### resetBlock -/

@[simp] theorem resetBlock_status : (resetBlock s).status = State.reset.status := by rfl
@[simp] theorem resetBlock_irqEn : (resetBlock s).irqEn = State.reset.irqEn := by rfl
@[simp] theorem resetBlock_cfg : (resetBlock s).cfg = State.reset.cfg := by rfl
@[simp] theorem resetBlock_geom : (resetBlock s).geom = State.reset.geom := by rfl
@[simp] theorem resetBlock_length : (resetBlock s).length = State.reset.length := by rfl
@[simp] theorem resetBlock_capacity : (resetBlock s).capacity = State.reset.capacity := by rfl
@[simp] theorem resetBlock_errCode : (resetBlock s).errCode = State.reset.errCode := by rfl
@[simp] theorem resetBlock_errInfo : (resetBlock s).errInfo = State.reset.errInfo := by rfl
@[simp] theorem resetBlock_idxIn : (resetBlock s).idxIn = State.reset.idxIn := by rfl
@[simp] theorem resetBlock_idxPixel : (resetBlock s).idxPixel = State.reset.idxPixel := by rfl
@[simp] theorem resetBlock_idxLane : (resetBlock s).idxLane = State.reset.idxLane := by rfl
@[simp] theorem resetBlock_phase : (resetBlock s).phase = State.reset.phase := by rfl
@[simp] theorem resetBlock_opw : (resetBlock s).opw = State.reset.opw := by rfl
@[simp] theorem resetBlock_r : (resetBlock s).r = State.reset.r := by rfl
@[simp] theorem resetBlock_xacc : (resetBlock s).xacc = State.reset.xacc := by rfl
@[simp] theorem resetBlock_pixmem : (resetBlock s).pixmem = s.pixmem := by rfl
@[simp] theorem resetBlock_refmem : (resetBlock s).refmem = s.refmem := by rfl
@[simp] theorem resetBlock_paymem : (resetBlock s).paymem = s.paymem := by rfl
@[simp] theorem resetBlock_params : (resetBlock s).params = s.params := by rfl
@[simp] theorem resetBlock_schedule : (resetBlock s).schedule = s.schedule := by rfl
@[simp] theorem resetBlock_resp : (resetBlock s).resp = s.resp := by rfl

/-! ### setHaz -/

@[simp] theorem setHaz_status : (setHaz s).status = { s.status with haz := true } := by rfl
@[simp] theorem setHaz_irqEn : (setHaz s).irqEn = s.irqEn := by rfl
@[simp] theorem setHaz_cfg : (setHaz s).cfg = s.cfg := by rfl
@[simp] theorem setHaz_geom : (setHaz s).geom = s.geom := by rfl
@[simp] theorem setHaz_length : (setHaz s).length = s.length := by rfl
@[simp] theorem setHaz_capacity : (setHaz s).capacity = s.capacity := by rfl
@[simp] theorem setHaz_errCode : (setHaz s).errCode = s.errCode := by rfl
@[simp] theorem setHaz_errInfo : (setHaz s).errInfo = s.errInfo := by rfl
@[simp] theorem setHaz_idxIn : (setHaz s).idxIn = s.idxIn := by rfl
@[simp] theorem setHaz_idxPixel : (setHaz s).idxPixel = s.idxPixel := by rfl
@[simp] theorem setHaz_idxLane : (setHaz s).idxLane = s.idxLane := by rfl
@[simp] theorem setHaz_phase : (setHaz s).phase = s.phase := by rfl
@[simp] theorem setHaz_opw : (setHaz s).opw = s.opw := by rfl
@[simp] theorem setHaz_r : (setHaz s).r = s.r := by rfl
@[simp] theorem setHaz_xacc : (setHaz s).xacc = s.xacc := by rfl
@[simp] theorem setHaz_pixmem : (setHaz s).pixmem = s.pixmem := by rfl
@[simp] theorem setHaz_refmem : (setHaz s).refmem = s.refmem := by rfl
@[simp] theorem setHaz_paymem : (setHaz s).paymem = s.paymem := by rfl
@[simp] theorem setHaz_params : (setHaz s).params = s.params := by rfl
@[simp] theorem setHaz_schedule : (setHaz s).schedule = s.schedule := by rfl
@[simp] theorem setHaz_resp : (setHaz s).resp = s.resp := by rfl

/-! ### respond -/

@[simp] theorem respond_status (a : BusResp) : (respond a s).status = s.status := by rfl
@[simp] theorem respond_irqEn (a : BusResp) : (respond a s).irqEn = s.irqEn := by rfl
@[simp] theorem respond_cfg (a : BusResp) : (respond a s).cfg = s.cfg := by rfl
@[simp] theorem respond_geom (a : BusResp) : (respond a s).geom = s.geom := by rfl
@[simp] theorem respond_length (a : BusResp) : (respond a s).length = s.length := by rfl
@[simp] theorem respond_capacity (a : BusResp) : (respond a s).capacity = s.capacity := by rfl
@[simp] theorem respond_errCode (a : BusResp) : (respond a s).errCode = s.errCode := by rfl
@[simp] theorem respond_errInfo (a : BusResp) : (respond a s).errInfo = s.errInfo := by rfl
@[simp] theorem respond_idxIn (a : BusResp) : (respond a s).idxIn = s.idxIn := by rfl
@[simp] theorem respond_idxPixel (a : BusResp) : (respond a s).idxPixel = s.idxPixel := by rfl
@[simp] theorem respond_idxLane (a : BusResp) : (respond a s).idxLane = s.idxLane := by rfl
@[simp] theorem respond_phase (a : BusResp) : (respond a s).phase = s.phase := by rfl
@[simp] theorem respond_opw (a : BusResp) : (respond a s).opw = s.opw := by rfl
@[simp] theorem respond_r (a : BusResp) : (respond a s).r = s.r := by rfl
@[simp] theorem respond_xacc (a : BusResp) : (respond a s).xacc = s.xacc := by rfl
@[simp] theorem respond_pixmem (a : BusResp) : (respond a s).pixmem = s.pixmem := by rfl
@[simp] theorem respond_refmem (a : BusResp) : (respond a s).refmem = s.refmem := by rfl
@[simp] theorem respond_paymem (a : BusResp) : (respond a s).paymem = s.paymem := by rfl
@[simp] theorem respond_params (a : BusResp) : (respond a s).params = s.params := by rfl
@[simp] theorem respond_schedule (a : BusResp) : (respond a s).schedule = s.schedule := by rfl
@[simp] theorem respond_resp (a : BusResp) : (respond a s).resp = some a := by rfl

/-! ### writeCapacity -/

@[simp] theorem writeCapacity_status (bw : Nat) : (writeCapacity bw s).status = s.status := by rfl
@[simp] theorem writeCapacity_irqEn (bw : Nat) : (writeCapacity bw s).irqEn = s.irqEn := by rfl
@[simp] theorem writeCapacity_cfg (bw : Nat) : (writeCapacity bw s).cfg = s.cfg := by rfl
@[simp] theorem writeCapacity_geom (bw : Nat) : (writeCapacity bw s).geom = s.geom := by rfl
@[simp] theorem writeCapacity_length (bw : Nat) : (writeCapacity bw s).length = s.length := by rfl
@[simp] theorem writeCapacity_capacity (bw : Nat) : (writeCapacity bw s).capacity = BitVec.ofNat 32 (capacityOf (pixelCount s.geom) bw) := by rfl
@[simp] theorem writeCapacity_errCode (bw : Nat) : (writeCapacity bw s).errCode = s.errCode := by rfl
@[simp] theorem writeCapacity_errInfo (bw : Nat) : (writeCapacity bw s).errInfo = s.errInfo := by rfl
@[simp] theorem writeCapacity_idxIn (bw : Nat) : (writeCapacity bw s).idxIn = s.idxIn := by rfl
@[simp] theorem writeCapacity_idxPixel (bw : Nat) : (writeCapacity bw s).idxPixel = s.idxPixel := by rfl
@[simp] theorem writeCapacity_idxLane (bw : Nat) : (writeCapacity bw s).idxLane = s.idxLane := by rfl
@[simp] theorem writeCapacity_phase (bw : Nat) : (writeCapacity bw s).phase = s.phase := by rfl
@[simp] theorem writeCapacity_opw (bw : Nat) : (writeCapacity bw s).opw = s.opw := by rfl
@[simp] theorem writeCapacity_r (bw : Nat) : (writeCapacity bw s).r = s.r := by rfl
@[simp] theorem writeCapacity_xacc (bw : Nat) : (writeCapacity bw s).xacc = s.xacc := by rfl
@[simp] theorem writeCapacity_pixmem (bw : Nat) : (writeCapacity bw s).pixmem = s.pixmem := by rfl
@[simp] theorem writeCapacity_refmem (bw : Nat) : (writeCapacity bw s).refmem = s.refmem := by rfl
@[simp] theorem writeCapacity_paymem (bw : Nat) : (writeCapacity bw s).paymem = s.paymem := by rfl
@[simp] theorem writeCapacity_params (bw : Nat) : (writeCapacity bw s).params = s.params := by rfl
@[simp] theorem writeCapacity_schedule (bw : Nat) : (writeCapacity bw s).schedule = s.schedule := by rfl
@[simp] theorem writeCapacity_resp (bw : Nat) : (writeCapacity bw s).resp = s.resp := by rfl

/-! ### beginTransfer -/

@[simp] theorem beginTransfer_status : (beginTransfer s).status = s.status := by rfl
@[simp] theorem beginTransfer_irqEn : (beginTransfer s).irqEn = s.irqEn := by rfl
@[simp] theorem beginTransfer_cfg : (beginTransfer s).cfg = s.cfg := by rfl
@[simp] theorem beginTransfer_geom : (beginTransfer s).geom = s.geom := by rfl
@[simp] theorem beginTransfer_length : (beginTransfer s).length = s.length := by rfl
@[simp] theorem beginTransfer_capacity : (beginTransfer s).capacity = s.capacity := by rfl
@[simp] theorem beginTransfer_errCode : (beginTransfer s).errCode = s.errCode := by rfl
@[simp] theorem beginTransfer_errInfo : (beginTransfer s).errInfo = s.errInfo := by rfl
@[simp] theorem beginTransfer_idxIn : (beginTransfer s).idxIn = s.idxIn := by rfl
@[simp] theorem beginTransfer_idxPixel : (beginTransfer s).idxPixel = s.idxPixel := by rfl
@[simp] theorem beginTransfer_idxLane : (beginTransfer s).idxLane = s.idxLane := by rfl
@[simp] theorem beginTransfer_phase : (beginTransfer s).phase = if payloadBits s = 0 then .finish else .run := by rfl
@[simp] theorem beginTransfer_opw : (beginTransfer s).opw = s.opw := by rfl
@[simp] theorem beginTransfer_r : (beginTransfer s).r = s.r := by rfl
@[simp] theorem beginTransfer_xacc : (beginTransfer s).xacc = s.xacc := by rfl
@[simp] theorem beginTransfer_pixmem : (beginTransfer s).pixmem = s.pixmem := by rfl
@[simp] theorem beginTransfer_refmem : (beginTransfer s).refmem = s.refmem := by rfl
@[simp] theorem beginTransfer_paymem : (beginTransfer s).paymem = s.paymem := by rfl
@[simp] theorem beginTransfer_params : (beginTransfer s).params = s.params := by rfl
@[simp] theorem beginTransfer_schedule : (beginTransfer s).schedule = s.schedule := by rfl
@[simp] theorem beginTransfer_resp : (beginTransfer s).resp = s.resp := by rfl

/-! ### advanceCursor -/

@[simp] theorem advanceCursor_status (k : Nat) : (advanceCursor k s).status = s.status := by rfl
@[simp] theorem advanceCursor_irqEn (k : Nat) : (advanceCursor k s).irqEn = s.irqEn := by rfl
@[simp] theorem advanceCursor_cfg (k : Nat) : (advanceCursor k s).cfg = s.cfg := by rfl
@[simp] theorem advanceCursor_geom (k : Nat) : (advanceCursor k s).geom = s.geom := by rfl
@[simp] theorem advanceCursor_length (k : Nat) : (advanceCursor k s).length = s.length := by rfl
@[simp] theorem advanceCursor_capacity (k : Nat) : (advanceCursor k s).capacity = s.capacity := by rfl
@[simp] theorem advanceCursor_errCode (k : Nat) : (advanceCursor k s).errCode = s.errCode := by rfl
@[simp] theorem advanceCursor_errInfo (k : Nat) : (advanceCursor k s).errInfo = s.errInfo := by rfl
@[simp] theorem advanceCursor_idxIn (k : Nat) : (advanceCursor k s).idxIn = s.idxIn := by rfl
@[simp] theorem advanceCursor_idxPixel (k : Nat) : (advanceCursor k s).idxPixel = s.idxPixel := by rfl
@[simp] theorem advanceCursor_idxLane (k : Nat) : (advanceCursor k s).idxLane = s.idxLane := by rfl
@[simp] theorem advanceCursor_phase (k : Nat) : (advanceCursor k s).phase = if s.r.toNat + k = payloadBits s then .finish else s.phase := by rfl
@[simp] theorem advanceCursor_opw (k : Nat) : (advanceCursor k s).opw = s.opw := by rfl
@[simp] theorem advanceCursor_r (k : Nat) : (advanceCursor k s).r = BitVec.ofNat 32 (s.r.toNat + k) := by rfl
@[simp] theorem advanceCursor_xacc (k : Nat) : (advanceCursor k s).xacc = s.xacc := by rfl
@[simp] theorem advanceCursor_pixmem (k : Nat) : (advanceCursor k s).pixmem = s.pixmem := by rfl
@[simp] theorem advanceCursor_refmem (k : Nat) : (advanceCursor k s).refmem = s.refmem := by rfl
@[simp] theorem advanceCursor_paymem (k : Nat) : (advanceCursor k s).paymem = s.paymem := by rfl
@[simp] theorem advanceCursor_params (k : Nat) : (advanceCursor k s).params = s.params := by rfl
@[simp] theorem advanceCursor_schedule (k : Nat) : (advanceCursor k s).schedule = s.schedule := by rfl
@[simp] theorem advanceCursor_resp (k : Nat) : (advanceCursor k s).resp = s.resp := by rfl

/-! ### writeByte and writeWord: every field but the memory written -/

@[simp] theorem State.setMemory_status (id : MemId) (m : Memory) : (s.setMemory id m).status = s.status := by
  cases id <;> rfl
@[simp] theorem State.setMemory_irqEn (id : MemId) (m : Memory) : (s.setMemory id m).irqEn = s.irqEn := by
  cases id <;> rfl
@[simp] theorem State.setMemory_cfg (id : MemId) (m : Memory) : (s.setMemory id m).cfg = s.cfg := by
  cases id <;> rfl
@[simp] theorem State.setMemory_geom (id : MemId) (m : Memory) : (s.setMemory id m).geom = s.geom := by
  cases id <;> rfl
@[simp] theorem State.setMemory_length (id : MemId) (m : Memory) : (s.setMemory id m).length = s.length := by
  cases id <;> rfl
@[simp] theorem State.setMemory_capacity (id : MemId) (m : Memory) : (s.setMemory id m).capacity = s.capacity := by
  cases id <;> rfl
@[simp] theorem State.setMemory_errCode (id : MemId) (m : Memory) : (s.setMemory id m).errCode = s.errCode := by
  cases id <;> rfl
@[simp] theorem State.setMemory_errInfo (id : MemId) (m : Memory) : (s.setMemory id m).errInfo = s.errInfo := by
  cases id <;> rfl
@[simp] theorem State.setMemory_idxIn (id : MemId) (m : Memory) : (s.setMemory id m).idxIn = s.idxIn := by
  cases id <;> rfl
@[simp] theorem State.setMemory_idxPixel (id : MemId) (m : Memory) : (s.setMemory id m).idxPixel = s.idxPixel := by
  cases id <;> rfl
@[simp] theorem State.setMemory_idxLane (id : MemId) (m : Memory) : (s.setMemory id m).idxLane = s.idxLane := by
  cases id <;> rfl
@[simp] theorem State.setMemory_phase (id : MemId) (m : Memory) : (s.setMemory id m).phase = s.phase := by
  cases id <;> rfl
@[simp] theorem State.setMemory_opw (id : MemId) (m : Memory) : (s.setMemory id m).opw = s.opw := by
  cases id <;> rfl
@[simp] theorem State.setMemory_r (id : MemId) (m : Memory) : (s.setMemory id m).r = s.r := by
  cases id <;> rfl
@[simp] theorem State.setMemory_xacc (id : MemId) (m : Memory) : (s.setMemory id m).xacc = s.xacc := by
  cases id <;> rfl
@[simp] theorem State.setMemory_params (id : MemId) (m : Memory) : (s.setMemory id m).params = s.params := by
  cases id <;> rfl
@[simp] theorem State.setMemory_schedule (id : MemId) (m : Memory) : (s.setMemory id m).schedule = s.schedule := by
  cases id <;> rfl
@[simp] theorem State.setMemory_resp (id : MemId) (m : Memory) : (s.setMemory id m).resp = s.resp := by
  cases id <;> rfl

@[simp] theorem writeByte_status (id : MemId) (a : Nat) (b : Byte) : (writeByte id a b s).status = s.status := by
  simp only [writeByte, State.setMemory_status]
@[simp] theorem writeByte_irqEn (id : MemId) (a : Nat) (b : Byte) : (writeByte id a b s).irqEn = s.irqEn := by
  simp only [writeByte, State.setMemory_irqEn]
@[simp] theorem writeByte_cfg (id : MemId) (a : Nat) (b : Byte) : (writeByte id a b s).cfg = s.cfg := by
  simp only [writeByte, State.setMemory_cfg]
@[simp] theorem writeByte_geom (id : MemId) (a : Nat) (b : Byte) : (writeByte id a b s).geom = s.geom := by
  simp only [writeByte, State.setMemory_geom]
@[simp] theorem writeByte_length (id : MemId) (a : Nat) (b : Byte) : (writeByte id a b s).length = s.length := by
  simp only [writeByte, State.setMemory_length]
@[simp] theorem writeByte_capacity (id : MemId) (a : Nat) (b : Byte) : (writeByte id a b s).capacity = s.capacity := by
  simp only [writeByte, State.setMemory_capacity]
@[simp] theorem writeByte_errCode (id : MemId) (a : Nat) (b : Byte) : (writeByte id a b s).errCode = s.errCode := by
  simp only [writeByte, State.setMemory_errCode]
@[simp] theorem writeByte_errInfo (id : MemId) (a : Nat) (b : Byte) : (writeByte id a b s).errInfo = s.errInfo := by
  simp only [writeByte, State.setMemory_errInfo]
@[simp] theorem writeByte_idxIn (id : MemId) (a : Nat) (b : Byte) : (writeByte id a b s).idxIn = s.idxIn := by
  simp only [writeByte, State.setMemory_idxIn]
@[simp] theorem writeByte_idxPixel (id : MemId) (a : Nat) (b : Byte) : (writeByte id a b s).idxPixel = s.idxPixel := by
  simp only [writeByte, State.setMemory_idxPixel]
@[simp] theorem writeByte_idxLane (id : MemId) (a : Nat) (b : Byte) : (writeByte id a b s).idxLane = s.idxLane := by
  simp only [writeByte, State.setMemory_idxLane]
@[simp] theorem writeByte_phase (id : MemId) (a : Nat) (b : Byte) : (writeByte id a b s).phase = s.phase := by
  simp only [writeByte, State.setMemory_phase]
@[simp] theorem writeByte_opw (id : MemId) (a : Nat) (b : Byte) : (writeByte id a b s).opw = s.opw := by
  simp only [writeByte, State.setMemory_opw]
@[simp] theorem writeByte_r (id : MemId) (a : Nat) (b : Byte) : (writeByte id a b s).r = s.r := by
  simp only [writeByte, State.setMemory_r]
@[simp] theorem writeByte_xacc (id : MemId) (a : Nat) (b : Byte) : (writeByte id a b s).xacc = s.xacc := by
  simp only [writeByte, State.setMemory_xacc]
@[simp] theorem writeByte_params (id : MemId) (a : Nat) (b : Byte) : (writeByte id a b s).params = s.params := by
  simp only [writeByte, State.setMemory_params]
@[simp] theorem writeByte_schedule (id : MemId) (a : Nat) (b : Byte) : (writeByte id a b s).schedule = s.schedule := by
  simp only [writeByte, State.setMemory_schedule]
@[simp] theorem writeByte_resp (id : MemId) (a : Nat) (b : Byte) : (writeByte id a b s).resp = s.resp := by
  simp only [writeByte, State.setMemory_resp]

@[simp] theorem writeWord_status (id : MemId) (k : Nat) (v : Word) : (writeWord id k v s).status = s.status := by
  simp only [writeWord, State.setMemory_status]
@[simp] theorem writeWord_irqEn (id : MemId) (k : Nat) (v : Word) : (writeWord id k v s).irqEn = s.irqEn := by
  simp only [writeWord, State.setMemory_irqEn]
@[simp] theorem writeWord_cfg (id : MemId) (k : Nat) (v : Word) : (writeWord id k v s).cfg = s.cfg := by
  simp only [writeWord, State.setMemory_cfg]
@[simp] theorem writeWord_geom (id : MemId) (k : Nat) (v : Word) : (writeWord id k v s).geom = s.geom := by
  simp only [writeWord, State.setMemory_geom]
@[simp] theorem writeWord_length (id : MemId) (k : Nat) (v : Word) : (writeWord id k v s).length = s.length := by
  simp only [writeWord, State.setMemory_length]
@[simp] theorem writeWord_capacity (id : MemId) (k : Nat) (v : Word) : (writeWord id k v s).capacity = s.capacity := by
  simp only [writeWord, State.setMemory_capacity]
@[simp] theorem writeWord_errCode (id : MemId) (k : Nat) (v : Word) : (writeWord id k v s).errCode = s.errCode := by
  simp only [writeWord, State.setMemory_errCode]
@[simp] theorem writeWord_errInfo (id : MemId) (k : Nat) (v : Word) : (writeWord id k v s).errInfo = s.errInfo := by
  simp only [writeWord, State.setMemory_errInfo]
@[simp] theorem writeWord_idxIn (id : MemId) (k : Nat) (v : Word) : (writeWord id k v s).idxIn = s.idxIn := by
  simp only [writeWord, State.setMemory_idxIn]
@[simp] theorem writeWord_idxPixel (id : MemId) (k : Nat) (v : Word) : (writeWord id k v s).idxPixel = s.idxPixel := by
  simp only [writeWord, State.setMemory_idxPixel]
@[simp] theorem writeWord_idxLane (id : MemId) (k : Nat) (v : Word) : (writeWord id k v s).idxLane = s.idxLane := by
  simp only [writeWord, State.setMemory_idxLane]
@[simp] theorem writeWord_phase (id : MemId) (k : Nat) (v : Word) : (writeWord id k v s).phase = s.phase := by
  simp only [writeWord, State.setMemory_phase]
@[simp] theorem writeWord_opw (id : MemId) (k : Nat) (v : Word) : (writeWord id k v s).opw = s.opw := by
  simp only [writeWord, State.setMemory_opw]
@[simp] theorem writeWord_r (id : MemId) (k : Nat) (v : Word) : (writeWord id k v s).r = s.r := by
  simp only [writeWord, State.setMemory_r]
@[simp] theorem writeWord_xacc (id : MemId) (k : Nat) (v : Word) : (writeWord id k v s).xacc = s.xacc := by
  simp only [writeWord, State.setMemory_xacc]
@[simp] theorem writeWord_params (id : MemId) (k : Nat) (v : Word) : (writeWord id k v s).params = s.params := by
  simp only [writeWord, State.setMemory_params]
@[simp] theorem writeWord_schedule (id : MemId) (k : Nat) (v : Word) : (writeWord id k v s).schedule = s.schedule := by
  simp only [writeWord, State.setMemory_schedule]
@[simp] theorem writeWord_resp (id : MemId) (k : Nat) (v : Word) : (writeWord id k v s).resp = s.resp := by
  simp only [writeWord, State.setMemory_resp]

end Sys2Proof.Machine
end

