-- ==== Sys2Proof/Laws/Memory.lean ====
section
/-! SUPPORT. The laws of memory: read after write, canonical form, and what a byte or word write leaves in every byte and word. -/

namespace Sys2Proof.Machine

/-! ### One memory -/

theorem Memory.read_write (m : Memory) (a a' : Nat) (b : Byte) :
    Memory.read (Memory.write m a b) a' = if a = a' then some b else Memory.read m a' := by
  induction m with
  | nil => rfl
  | cons c m ih =>
    obtain ⟨k, v⟩ := c
    simp only [Memory.write]
    split
    · rfl
    · split
      · rename_i h; subst h; simp only [Memory.read]; split <;> rfl
      · simp only [Memory.read, ih]
        split <;> split <;> simp_all

/-- Every key of a list is at least `lo`, and the keys rise strictly: the form `Memory.wf` checks, by recursion. -/
def Memory.risingFrom : Nat → Memory → Bool
  | _, [] => true
  | lo, (k, _) :: m => decide (lo ≤ k) && Memory.risingFrom (k + 1) m

theorem Memory.wf_cons (k : Nat) (v : Byte) (m : Memory) :
    Memory.wf ((k, v) :: m) = Memory.risingFrom (k + 1) m := by
  induction m generalizing k v with
  | nil => rfl
  | cons c m ih =>
    obtain ⟨k', v'⟩ := c
    simp only [Memory.wf, Memory.risingFrom, ih]
    rfl

theorem Memory.wf_eq (m : Memory) : Memory.wf m = Memory.risingFrom 0 m := by
  cases m with
  | nil => rfl
  | cons c m =>
    obtain ⟨k, v⟩ := c
    simp [Memory.wf_cons, Memory.risingFrom]

theorem Memory.risingFrom_write (m : Memory) (lo a : Nat) (b : Byte) (hlo : lo ≤ a)
    (h : Memory.risingFrom lo m = true) : Memory.risingFrom lo (Memory.write m a b) = true := by
  induction m generalizing lo with
  | nil => simpa [Memory.write, Memory.risingFrom] using hlo
  | cons c m ih =>
    obtain ⟨k, v⟩ := c
    simp only [Memory.risingFrom, Bool.and_eq_true, decide_eq_true_eq] at h
    simp only [Memory.write]
    split
    · simp only [Memory.risingFrom, Bool.and_eq_true, decide_eq_true_eq]; exact ⟨hlo, by omega, h.2⟩
    · split
      · rename_i h2; subst h2
        simp only [Memory.risingFrom, Bool.and_eq_true, decide_eq_true_eq]; exact ⟨hlo, h.2⟩
      · simp only [Memory.risingFrom, Bool.and_eq_true, decide_eq_true_eq]
        exact ⟨h.1, ih (k + 1) (by omega) h.2⟩

/-- A write keeps the canonical form. -/
theorem Memory.wf_write (m : Memory) (a : Nat) (b : Byte) (h : Memory.wf m = true) :
    Memory.wf (Memory.write m a b) = true := by
  rw [Memory.wf_eq] at *
  exact Memory.risingFrom_write m 0 a b (Nat.zero_le a) h

/-- A write inside the depth keeps every listed address inside it. -/
theorem Memory.below_write (m : Memory) (n a : Nat) (b : Byte) (ha : a < n) (h : Memory.below n m = true) :
    Memory.below n (Memory.write m a b) = true := by
  simp only [Memory.below, List.all_eq_true, decide_eq_true_eq] at *
  induction m with
  | nil => simpa [Memory.write] using ha
  | cons c m ih =>
    obtain ⟨k, v⟩ := c
    have hm : ∀ x ∈ m, x.1 < n := fun x hx => h x (List.mem_cons_of_mem _ hx)
    have hk : k < n := h (k, v) List.mem_cons_self
    simp only [Memory.write]
    split
    · intro x hx
      rcases List.mem_cons.1 hx with rfl | hx
      · exact ha
      · exact h x hx
    · split
      · intro x hx
        rcases List.mem_cons.1 hx with rfl | hx
        · exact ha
        · exact hm x hx
      · intro x hx
        rcases List.mem_cons.1 hx with rfl | hx
        · exact hk
        · exact ih hm x hx

/-- Writing the same byte twice is writing it once. -/
theorem Memory.write_write (m : Memory) (a : Nat) (b c : Byte) :
    Memory.write (Memory.write m a b) a c = Memory.write m a c := by
  induction m with
  | nil => simp [Memory.write]
  | cons e m ih =>
    obtain ⟨k, v⟩ := e
    simp only [Memory.write]
    split
    · simp [Memory.write]
    · split
      · simp [Memory.write]
      · simp only [Memory.write]
        split
        · omega
        · simp_all

/-- Two canonical memories that read alike are the same list: equal memories are equal data. -/
theorem Memory.ext_of_read (m m' : Memory) (h : Memory.wf m = true) (h' : Memory.wf m' = true)
    (hr : ∀ a, Memory.read m a = Memory.read m' a) : m = m' := by
  rw [Memory.wf_eq] at h h'
  suffices H : ∀ lo, Memory.risingFrom lo m = true → Memory.risingFrom lo m' = true → m = m' from H 0 h h'
  clear h h'
  have low : ∀ (m : Memory) (lo a : Nat), Memory.risingFrom lo m = true → a < lo → Memory.read m a = none := by
    intro m
    induction m with
    | nil => intros; rfl
    | cons c m ih =>
      intro lo a hm ha
      obtain ⟨k, v⟩ := c
      simp only [Memory.risingFrom, Bool.and_eq_true, decide_eq_true_eq] at hm
      simp only [Memory.read]
      rw [if_neg (by omega)]
      exact ih (k + 1) a hm.2 (by omega)
  induction m generalizing m' with
  | nil =>
    intro lo _ h'
    cases m' with
    | nil => rfl
    | cons c m' =>
      have := hr c.1
      simp [Memory.read] at this
  | cons c m ih =>
    intro lo h h'
    obtain ⟨k, v⟩ := c
    cases m' with
    | nil => have := hr k; simp [Memory.read] at this
    | cons c' m' =>
      obtain ⟨k', v'⟩ := c'
      simp only [Memory.risingFrom, Bool.and_eq_true, decide_eq_true_eq] at h h'
      have hk : k = k' := by
        rcases Nat.lt_trichotomy k k' with hlt | heq | hgt
        · have := hr k
          simp only [Memory.read, if_true, if_neg (show ¬ k' = k by omega)] at this
          rw [low m' (k' + 1) k h'.2 (by omega)] at this
          cases this
        · exact heq
        · have := hr k'
          simp only [Memory.read, if_true, if_neg (show ¬ k = k' by omega)] at this
          rw [low m (k + 1) k' h.2 (by omega)] at this
          cases this
      subst hk
      have hv : v = v' := by simpa [Memory.read] using hr k
      subst hv
      congr 1
      refine ih m' (fun a => ?_) (k + 1) h.2 h'.2
      by_cases ha : a ≤ k
      · rw [low m (k + 1) a h.2 (by omega), low m' (k + 1) a h'.2 (by omega)]
      · have := hr a
        simpa [Memory.read, show ¬ k = a by omega] using this

/-! ### The memories of the state -/

@[simp] theorem memory_setMemory (s : State) (id id' : MemId) (m : Memory) :
    (s.setMemory id m).memory id' = if id = id' then m else s.memory id' := by
  cases id <;> cases id' <;> rfl

/-- What a byte write leaves in every byte of every memory. -/
theorem readByte_writeByte (s : State) (id id' : MemId) (a a' : Nat) (b : Byte) :
    readByte id' a' (writeByte id a b s) = if id = id' ∧ a = a' then b else readByte id' a' s := by
  unfold readByte writeByte
  by_cases h : id = id'
  · subst h
    simp only [memory_setMemory, if_true, Memory.read_write, true_and]
    split <;> rfl
  · simp [h]

/-- `readByte` looks at the memory of its name only. -/
theorem readByte_congr (s t : State) (id : MemId) (a : Nat) (h : s.memory id = t.memory id) :
    readByte id a s = readByte id a t := by
  unfold readByte; rw [h]

/-- `readWord` looks at the memory of its name only. -/
theorem readWord_congr (s t : State) (id : MemId) (k : Nat) (h : s.memory id = t.memory id) :
    readWord id k s = readWord id k t := by
  unfold readWord; simp only [readByte_congr s t id _ h]

/-- A word is determined by its four bytes, the lowest first. -/
theorem word_bytes (v : Word) :
    v.extractLsb' 24 8 ++ v.extractLsb' 16 8 ++ v.extractLsb' 8 8 ++ v.extractLsb' 0 8 = v := by
  apply BitVec.eq_of_getLsbD_eq
  intro i hi
  simp only [BitVec.getLsbD_append, BitVec.getLsbD_extractLsb']
  rcases Nat.lt_or_ge i 8 with h | h
  · simp [h]
  · rcases Nat.lt_or_ge i 16 with h2 | h2
    · simp [show ¬ i < 8 by omega, show i - 8 < 8 by omega, show 8 + (i - 8) = i by omega]
    · rcases Nat.lt_or_ge i 24 with h3 | h3
      · simp [show ¬ i < 8 by omega, show ¬ i - 8 < 8 by omega, show i - 8 - 8 < 8 by omega,
          show 16 + (i - 8 - 8) = i by omega]
      · simp [show ¬ i < 8 by omega, show ¬ i - 8 < 8 by omega, show ¬ i - 8 - 8 < 8 by omega,
          show i - 8 - 8 - 8 < 8 by omega, show 24 + (i - 8 - 8 - 8) = i by omega]

/-- What a word write leaves in every byte of one memory. -/
theorem Memory.read_writeWord (m : Memory) (k a : Nat) (v : Word) :
    Memory.read (Memory.writeWord m k v) a =
      if 4 * k ≤ a ∧ a < 4 * k + 4 then some (v.extractLsb' (8 * (a - 4 * k)) 8) else Memory.read m a := by
  unfold Memory.writeWord
  simp only [Memory.read_write]
  rcases Nat.lt_or_ge a (4 * k) with h1 | h1
  · simp [show ¬ 4 * k + 3 = a by omega, show ¬ 4 * k + 2 = a by omega, show ¬ 4 * k + 1 = a by omega,
      show ¬ 4 * k = a by omega, show ¬ 4 * k ≤ a by omega]
  · obtain ⟨i, rfl⟩ := Nat.exists_eq_add_of_le h1
    match i with
    | 0 => simp
    | 1 => simp
    | 2 => simp
    | 3 => simp
    | i + 4 => simp

theorem Memory.wf_writeWord (m : Memory) (k : Nat) (v : Word) (h : Memory.wf m = true) :
    Memory.wf (Memory.writeWord m k v) = true :=
  wf_write _ _ _ (wf_write _ _ _ (wf_write _ _ _ (wf_write _ _ _ h)))

theorem Memory.below_writeWord (m : Memory) (n k : Nat) (v : Word) (hk : k < n) (h : Memory.below (4 * n) m = true) :
    Memory.below (4 * n) (Memory.writeWord m k v) = true :=
  below_write _ _ _ _ (by omega) (below_write _ _ _ _ (by omega)
    (below_write _ _ _ _ (by omega) (below_write _ _ _ _ (by omega) h)))

/-- What a word write leaves in every byte of every memory. -/
theorem readByte_writeWord (s : State) (id id' : MemId) (k a : Nat) (v : Word) :
    readByte id' a (writeWord id k v s) =
      if id = id' ∧ 4 * k ≤ a ∧ a < 4 * k + 4 then v.extractLsb' (8 * (a - 4 * k)) 8 else readByte id' a s := by
  unfold readByte writeWord
  by_cases h : id = id'
  · subst h
    simp only [memory_setMemory, if_true, Memory.read_writeWord, true_and]
    split <;> rfl
  · simp [h]

/-- What a word write leaves in every word of every memory. -/
theorem readWord_writeWord (s : State) (id id' : MemId) (k k' : Nat) (v : Word) :
    readWord id' k' (writeWord id k v s) = if id = id' ∧ k = k' then v else readWord id' k' s := by
  unfold readWord
  simp only [readByte_writeWord]
  by_cases h : id = id'
  · subst h
    by_cases hk : k = k'
    · subst hk
      simp only [Nat.le_add_right, Nat.le_refl, if_true,
        show 4 * k + 3 < 4 * k + 4 by omega, show 4 * k + 2 < 4 * k + 4 by omega,
        show 4 * k + 1 < 4 * k + 4 by omega, show 4 * k < 4 * k + 4 by omega, and_self,
        Nat.add_sub_cancel_left, Nat.sub_self]
      exact word_bytes v
    · simp only [true_and, hk, if_false]
      rw [if_neg (by omega), if_neg (by omega), if_neg (by omega), if_neg (by omega)]
  · simp [h]

theorem memory_writeByte (s : State) (id id' : MemId) (a : Nat) (b : Byte) :
    (writeByte id a b s).memory id' = if id = id' then Memory.write (s.memory id) a b else s.memory id' := by
  unfold writeByte; simp

theorem memory_writeWord (s : State) (id id' : MemId) (k : Nat) (v : Word) :
    (writeWord id k v s).memory id' = if id = id' then Memory.writeWord (s.memory id) k v else s.memory id' := by
  unfold writeWord; simp

/-- Writes at two addresses commute. -/
theorem Memory.write_comm (m : Memory) (a a' : Nat) (b b' : Byte) (h : a < a') :
    Memory.write (Memory.write m a b) a' b' = Memory.write (Memory.write m a' b') a b := by
  induction m with
  | nil => simp [Memory.write]; split_ifs <;> first | omega | rfl
  | cons c m ih =>
    obtain ⟨k, v⟩ := c
    simp only [Memory.write]
    split_ifs <;> simp only [Memory.write] <;> split_ifs <;> first | omega | rfl | (rw [ih])

/-- Writing the same word twice is writing it once. -/
theorem Memory.writeWord_writeWord (m : Memory) (k : Nat) (v : Word) :
    Memory.writeWord (Memory.writeWord m k v) k v = Memory.writeWord m k v := by
  unfold Memory.writeWord
  generalize v.extractLsb' 0 8 = b0
  generalize v.extractLsb' 8 8 = b1
  generalize v.extractLsb' 16 8 = b2
  generalize v.extractLsb' 24 8 = b3
  rw [← Memory.write_comm _ (4 * k) (4 * k + 3) _ _ (by omega), ← Memory.write_comm _ (4 * k) (4 * k + 2) _ _ (by omega),
    ← Memory.write_comm _ (4 * k) (4 * k + 1) _ _ (by omega), Memory.write_write,
    ← Memory.write_comm _ (4 * k + 1) (4 * k + 3) _ _ (by omega),
    ← Memory.write_comm _ (4 * k + 1) (4 * k + 2) _ _ (by omega), Memory.write_write,
    ← Memory.write_comm _ (4 * k + 2) (4 * k + 3) _ _ (by omega), Memory.write_write, Memory.write_write]

/-- The bytes of a word, the lowest first. -/
theorem readWord_extract (id : MemId) (k : Nat) (s : State) (i : Nat) (hi : i < 4) :
    (readWord id k s).extractLsb' (8 * i) 8 = readByte id (4 * k + i) s := by
  unfold readWord
  apply BitVec.eq_of_getLsbD_eq
  intro j hj
  simp only [BitVec.getLsbD_extractLsb', BitVec.getLsbD_append, hj, decide_true, Bool.true_and]
  interval_cases i
  · simp [hj]
  · simp [show ¬ 8 + j < 8 by omega, hj]
  · simp [show ¬ 16 + j < 8 by omega, show ¬ 16 + j - 8 < 8 by omega, show 16 + j - 8 - 8 = j by omega, hj]
  · simp [show ¬ 24 + j < 8 by omega, show ¬ 24 + j - 8 < 8 by omega, show ¬ 24 + j - 8 - 8 < 8 by omega,
      show 24 + j - 8 - 8 - 8 = j by omega]

end Sys2Proof.Machine
end

