-- ==== Sys2Proof/Laws/Bits.lean ====
section
/-! SUPPORT. The laws of the packer and the unpacker, bit by bit (spec/42_embed.md R174 to R180, 43_extract.md R210 to R213). -/

namespace Sys2Proof.Machine

theorem laneBit_getLsbD (bw L : Nat) (b : Bool) (j : Nat) :
    (laneBit bw L b).getLsbD j = (decide (j < 32 ∧ j = lanePos L bw) && b) := by
  unfold laneBit
  cases b
  · simp
  · simp only [if_true, BitVec.getLsbD_shiftLeft, BitVec.getLsbD_one, Bool.and_true]
    by_cases h : j < 32 <;> by_cases h2 : j = lanePos L bw
    · simp [h2]
    · simp only [h, h2, decide_true, Bool.true_and, and_false, decide_false]
      by_cases h3 : j < lanePos L bw
      · simp [h3]
      · simp only [h3, decide_false, Bool.not_false, Bool.true_and]
        simp; omega
    · simp [h]
    · simp [h]

theorem laneGroup_succ (f : Nat → Bool) (bw r k : Nat) :
    laneGroup f bw r (k + 1) = laneGroup f bw r k ||| laneBit bw k (f (r + k)) := by
  simp [laneGroup, List.range_succ]

/-- `acc`, bit by bit (42_embed.md R171, R176): sample bit `bw - 1 - L` is the bit of lane `L`. -/
theorem laneGroup_getLsbD (f : Nat → Bool) (bw r k j : Nat) (hk : k ≤ bw) (hbw : bw ≤ 32) :
    (laneGroup f bw r k).getLsbD j = (decide (j < bw ∧ bw - 1 - j < k) && f (r + (bw - 1 - j))) := by
  induction k with
  | zero => simp [laneGroup]
  | succ k ih =>
    rw [laneGroup_succ, BitVec.getLsbD_or, ih (by omega), laneBit_getLsbD]
    unfold lanePos
    by_cases h : j < bw ∧ bw - 1 - j = k
    · obtain ⟨h1, h2⟩ := h
      have e1 : decide (j < 32 ∧ j = bw - 1 - k) = true := by simp; omega
      have e2 : decide (j < bw ∧ bw - 1 - j < k + 1) = true := by simp; omega
      have e3 : decide (j < bw ∧ bw - 1 - j < k) = false := by simp; omega
      rw [e1, e2, e3, h2]; simp
    · have e1 : decide (j < 32 ∧ j = bw - 1 - k) = false := by simp; omega
      have e2 : decide (j < bw ∧ bw - 1 - j < k + 1) = decide (j < bw ∧ bw - 1 - j < k) := by
        simp only [decide_eq_decide]; omega
      rw [e1, e2]; simp

/-- `mask`, bit by bit (42_embed.md R176). -/
theorem laneMask_getLsbD (bw k j : Nat) (hk : k ≤ bw) (hbw : bw ≤ 32) :
    (laneMask bw k).getLsbD j = decide (j < bw ∧ bw - 1 - j < k) := by
  unfold laneMask; rw [laneGroup_getLsbD _ _ _ _ _ hk hbw]; simp

/-- The combination, bit by bit (42_embed.md R178, R179): a lane that carries payload is replaced or flipped, every other bit
stays. -/
theorem combine_getLsbD (m : Mode) (old : Word) (f : Nat → Bool) (bw r k j : Nat) (hk : k ≤ bw) (hbw : bw ≤ 32) :
    (combine m old (laneGroup f bw r k) (laneMask bw k)).getLsbD j =
      if j < bw ∧ bw - 1 - j < k then
        (match m with
        | .replace => f (r + (bw - 1 - j))
        | .xorSource => old.getLsbD j ^^ f (r + (bw - 1 - j)))
      else old.getLsbD j := by
  cases m
  · simp only [combine, BitVec.getLsbD_or, BitVec.getLsbD_and, BitVec.getLsbD_not,
      laneGroup_getLsbD _ _ _ _ _ hk hbw, laneMask_getLsbD _ _ _ hk hbw]
    by_cases h : j < bw ∧ bw - 1 - j < k
    · simp [h]
    · simp only [h, decide_false, Bool.false_and, Bool.or_false, Bool.not_false, Bool.and_true, if_false]
      by_cases hj : j < 32
      · simp [hj]
      · simp [BitVec.getLsbD_of_ge _ _ (show 32 ≤ j by omega)]
  · simp only [combine, BitVec.getLsbD_xor, laneGroup_getLsbD _ _ _ _ _ hk hbw]
    by_cases h : j < bw ∧ bw - 1 - j < k <;> simp [h]

theorem stepLanes_le (bw : Nat) (s : State) : stepLanes bw s ≤ bw := by
  unfold stepLanes laneCount; omega

theorem pixelLanes_le (bw p : Nat) (s : State) : pixelLanes bw p s ≤ bw := by
  unfold pixelLanes laneCount; omega

/-- The bit of lane `L` after EMBED's combination (42_embed.md R178, R179): lane `L` of pixel `p` carries payload bit `p * bw + L`
when that bit exists. -/
theorem lbit_embeddedSample (s : State) (bw p L : Nat) (x : Word) (hL : L < bw) (hbw : bw ≤ 32) :
    lbit (embeddedSample bw p x s) L bw =
      if p * bw + L < payloadBits s then
        (match modeOf s.cfg.mode with
        | .replace => payloadBit s (p * bw + L)
        | .xorSource => lbit x L bw ^^ payloadBit s (p * bw + L))
      else lbit x L bw := by
  unfold lbit embeddedSample pixelAcc pixelMask
  rw [combine_getLsbD _ _ _ _ _ _ _ (pixelLanes_le bw p s) hbw]
  unfold lanePos pixelLanes laneCount
  rw [show bw - 1 - (bw - 1 - L) = L by omega]
  by_cases h : p * bw + L < payloadBits s
  · rw [if_pos h, if_pos (by omega)]
  · rw [if_neg h, if_neg (by omega)]

/-- Every bit of an unpacked byte (43_extract.md R210). -/
theorem unpack_getLsbD (f : Nat → Bool) (m : Nat) (hm : m < 8) : (unpack f).getLsbD m = f (7 - m) := by
  have hb : ∀ (b : Bool) (n : Nat), ((if b then 1#8 else 0#8) <<< n).getLsbD m = (decide (m = n) && b) := by
    intro b n
    cases b
    · simp
    · simp only [if_true, BitVec.getLsbD_shiftLeft, hm, decide_true, Bool.true_and, BitVec.getLsbD_one, Bool.and_true]
      by_cases h : m = n
      · subst h; simp
      · by_cases h3 : m < n
        · simp [h3, h]
        · simp only [h3, h, decide_false, Bool.not_false, Bool.true_and]
          simp; omega
  have e : unpack f = (((((((((0#8) ||| ((if f 0 then 1#8 else 0#8) <<< 7)) ||| ((if f 1 then 1#8 else 0#8) <<< 6)) |||
      ((if f 2 then 1#8 else 0#8) <<< 5)) ||| ((if f 3 then 1#8 else 0#8) <<< 4)) |||
      ((if f 4 then 1#8 else 0#8) <<< 3)) ||| ((if f 5 then 1#8 else 0#8) <<< 2)) |||
      ((if f 6 then 1#8 else 0#8) <<< 1)) ||| ((if f 7 then 1#8 else 0#8) <<< 0)) := rfl
  rw [e]
  simp only [BitVec.getLsbD_or, hb]
  interval_cases m <;> simp

/-- An appended vector as a number. -/
theorem append_toNat {m n : Nat} (a : BitVec m) (b : BitVec n) : (a ++ b).toNat = a.toNat * 2^n + b.toNat := by
  rw [BitVec.toNat_append, ← Nat.shiftLeft_add_eq_or_of_lt b.isLt, Nat.shiftLeft_eq]

theorem ofBool_getLsbD (b : Bool) (i : Nat) : (BitVec.ofBool b).getLsbD i = (decide (i = 0) && b) := by
  cases b <;> simp [BitVec.ofBool, BitVec.getLsbD_one]

/-- One bit shifted into a byte from the right (43_extract.md R221). -/
theorem shiftIn_getLsbD (x : Byte) (b : Bool) (m : Nat) (hm : m < 8) :
    ((x <<< 1) ||| (if b then 1#8 else 0#8)).getLsbD m = if m = 0 then b else x.getLsbD (m - 1) := by
  cases b
  · simp only [Bool.false_eq_true, if_false, BitVec.getLsbD_or, BitVec.getLsbD_shiftLeft, hm, decide_true, Bool.true_and, BitVec.getLsbD_zero, Bool.or_false]
    by_cases h : m = 0
    · simp [h]
    · simp [h]
  · simp only [if_true, BitVec.getLsbD_or, BitVec.getLsbD_shiftLeft, hm, decide_true, BitVec.getLsbD_one, Bool.true_and]
    by_cases h : m = 0
    · simp [h]
    · simp [h, show ¬ m < 1 by omega]

end Sys2Proof.Machine
end

