-- ==== Sys2Proof/Laws/Command.lean ====
section
/-! SUPPORT. The laws of the decoder and of operand assembly (spec/30_encoding.md R120 to R127), and the CHECK-step checks as
equations (44_operation_selector.md R255). -/

namespace Sys2Proof.Machine

theorem word_of_fields (w : Word) : (cmdFields w).word = w := by
  apply BitVec.eq_of_getLsbD_eq
  intro i hi
  simp only [CmdFields.word, cmdFields, BitVec.getLsbD_append, BitVec.getLsbD_extractLsb']
  by_cases h : i < 8
  · simp [h]
  · simp [h, show i - 8 < 24 by omega, show 8 + (i - 8) = i by omega]

theorem fields_of_word (f : CmdFields) : cmdFields f.word = f := by
  obtain ⟨op, rs⟩ := f
  simp only [cmdFields, CmdFields.word, CmdFields.mk.injEq]
  constructor <;> apply BitVec.eq_of_getLsbD_eq <;> intro i hi <;>
    simp only [BitVec.getLsbD_extractLsb', BitVec.getLsbD_append, hi, decide_true, Bool.true_and]
  · simp [hi]
  · simp [show ¬ 8 + i < 8 by omega]

theorem opcodeMap_eq_some (op : BitVec 8) (i : Instr) : opcodeMap op = some i ↔ op = opcodeOf i := by
  unfold opcodeMap
  constructor
  · intro h
    split at h
    · cases h; assumption
    · split at h
      · cases h; assumption
      · split at h
        · cases h; assumption
        · split at h
          · cases h; assumption
          · cases h
  · rintro rfl; cases i <;> rfl

/-- A word decodes to a command exactly when it is that command's encoding (R123). -/
theorem decode_command_iff (w : Word) (i : Instr) : decode w = .command i ↔ w = encode i := by
  have hw := word_of_fields w
  unfold decode encode
  constructor
  · intro h
    split at h
    · rename_i h0
      split at h
      · rename_i j hj
        cases h
        rw [opcodeMap_eq_some] at hj
        rw [← hw]
        congr 1
        rw [← h0, ← hj]
      · cases h
    · cases h
  · intro h
    have hf : cmdFields w = ⟨opcodeOf i, 0#24⟩ := by rw [h, fields_of_word]
    rw [hf]
    cases i <;> rfl

theorem decode_encode (i : Instr) : decode (encode i) = .command i := (decode_command_iff _ _).2 rfl

theorem encode_injective {i j : Instr} (h : encode i = encode j) : i = j := by
  have := decode_encode i
  rw [h, decode_encode] at this
  cases this; rfl

/-- The byte widths of the legal depths (10_state.md R39). -/
theorem byteWidth_eq_some (bd : BitVec 8) (bw : Nat) :
    byteWidth? bd = some bw ↔ 1 ≤ bw ∧ bw ≤ 4 ∧ bd.toNat = 8 * bw := by
  unfold byteWidth? legalDepth
  constructor
  · intro h
    split at h
    · rename_i hl
      simp only [Option.some.injEq] at h
      subst h
      simp only [Bool.or_eq_true, beq_iff_eq] at hl
      rcases hl with ((rfl | rfl) | rfl) | rfl <;> decide
    · cases h
  · rintro ⟨h1, h2, h3⟩
    have : bd = BitVec.ofNat 8 (8 * bw) := by
      apply BitVec.eq_of_toNat_eq
      rw [h3, BitVec.toNat_ofNat, Nat.mod_eq_of_lt (by omega)]
    subst this
    interval_cases bw <;> rfl

theorem byteWidth_eq_none (bd : BitVec 8) : byteWidth? bd = none ↔ bd.toNat ∉ [8, 16, 24, 32] := by
  rw [Option.eq_none_iff_forall_not_mem]
  simp only [Option.mem_def, byteWidth_eq_some, List.mem_cons, List.not_mem_nil, or_false]
  constructor
  · rintro h (h8 | h8 | h8 | h8)
    · exact h 1 (by omega)
    · exact h 2 (by omega)
    · exact h 3 (by omega)
    · exact h 4 (by omega)
  · intro h bw hbw
    apply h
    omega

theorem encodingOf_eq_none (enc : BitVec 2) : encodingOf enc = none ↔ enc = 3#2 := by
  revert enc; decide

/-! ### Bounds of the parameters and operands -/

theorem pixDepth_pos (p : Params) : 1 ≤ p.pixDepth := by unfold Params.pixDepth; omega

theorem pixDepth_le (p : Params) : p.pixDepth ≤ 2 ^ 26 := by
  have := p.pixLast.isLt
  unfold Params.pixDepth; omega

theorem payDepth_le (p : Params) : p.payDepth ≤ 2 ^ 28 := by
  have := p.payLast.isLt
  unfold Params.payDepth; omega

theorem payDepth_div (p : Params) : 4 * (p.payDepth / 4) = p.payDepth := by
  unfold Params.payDepth; omega

theorem pixelCount_le (g : Geom) : pixelCount g ≤ 65535 * 65535 := by
  have h1 := g.width.isLt
  have h2 := g.height.isLt
  exact Nat.mul_le_mul (by omega) (by omega)

theorem capacityOf_le (g : Geom) (bw : Nat) (hbw : bw ≤ 4) : capacityOf (pixelCount g) bw ≤ 0x7FFF0000 := by
  have h := pixelCount_le g
  unfold capacityOf
  have : pixelCount g * bw ≤ 65535 * 65535 * 4 := Nat.mul_le_mul h hbw
  omega

/-- Reading CAPACITY back gives the capacity: no truncation (41_capacity.md R151). -/
theorem capacityOf_toNat (g : Geom) (bw : Nat) (hbw : bw ≤ 4) :
    (BitVec.ofNat 32 (capacityOf (pixelCount g) bw)).toNat = capacityOf (pixelCount g) bw := by
  have := capacityOf_le g bw hbw
  rw [BitVec.toNat_ofNat, Nat.mod_eq_of_lt (by omega)]

/-! ### The checks -/

theorem withByteWidth_some (body : Nat → State → State) (s : State) (bw : Nat)
    (h : byteWidth? s.cfg.bitDepth = some bw) : withByteWidth body s = body bw s := by
  unfold withByteWidth; rw [h]

theorem withByteWidth_none (body : Nat → State → State) (s : State) (h : byteWidth? s.cfg.bitDepth = none) :
    withByteWidth body s = raiseError .unsupportedChannelLayout (s.cfg.bitDepth.setWidth 32) s := by
  unfold withByteWidth; rw [h]

/-- Everything checks 4 to 6 can end in: an error, or `go` after all passed (44_operation_selector.md R255). -/
theorem rangeChecks_cases (go : State → State) (bw : Nat) (s : State) :
    (rangeChecks go bw s = go s ∧ pixelCount s.geom ≤ s.params.pixDepth ∧
      s.length.toNat ≤ capacityOf (pixelCount s.geom) bw ∧ s.length.toNat ≤ s.params.payDepth) ∨
    ∃ code info, rangeChecks go bw s = raiseError code info s ∧
      (code = .geometryRange ∨ code = .payloadTooLarge ∨ code = .lengthRange) := by
  unfold rangeChecks
  by_cases h1 : s.params.pixDepth < pixelCount s.geom
  · rw [if_pos h1]; exact .inr ⟨_, _, rfl, .inl rfl⟩
  · by_cases h2 : capacityOf (pixelCount s.geom) bw < s.length.toNat
    · rw [if_neg h1, if_pos h2]; exact .inr ⟨_, _, rfl, .inr (.inl rfl)⟩
    · by_cases h3 : s.params.payDepth < s.length.toNat
      · rw [if_neg h1, if_neg h2, if_pos h3]; exact .inr ⟨_, _, rfl, .inr (.inr rfl)⟩
      · rw [if_neg h1, if_neg h2, if_neg h3]; exact .inl ⟨rfl, by omega, by omega, by omega⟩

/-- Everything the CHECK of a transfer can end in: an error after the CAPACITY write, or `go` after all checks passed. -/
theorem transferBody_cases (go : State → State) (bw : Nat) (s : State) :
    (transferBody go bw s = go (writeCapacity bw s) ∧ pixelCount s.geom ≤ s.params.pixDepth ∧
      s.length.toNat ≤ capacityOf (pixelCount s.geom) bw ∧ s.length.toNat ≤ s.params.payDepth) ∨
    ∃ code info, transferBody go bw s = raiseError code info (writeCapacity bw s) ∧
      (code = .geometryRange ∨ code = .payloadTooLarge ∨ code = .lengthRange) :=
  rangeChecks_cases go bw (writeCapacity bw s)

/-- The checks of a transfer that all pass. -/
theorem rangeChecks_pass (go : State → State) (bw : Nat) (s : State)
    (h1 : pixelCount s.geom ≤ s.params.pixDepth) (h2 : s.length.toNat ≤ capacityOf (pixelCount s.geom) bw)
    (h3 : s.length.toNat ≤ s.params.payDepth) : rangeChecks go bw s = go s := by
  unfold rangeChecks
  rw [if_neg (by omega), if_neg (by omega), if_neg (by omega)]

/-- A RUN step that answers a next state ran its body in a state that meets its entry invariant. -/
theorem runStep_next (body : Nat → State → State) (s s' : State) (h : runStep body s = .next s') :
    ∃ bw, byteWidth? s.cfg.bitDepth = some bw ∧ 1 ≤ bw ∧ bw ≤ 4 ∧ s.r.toNat < payloadBits s ∧ s.r.toNat % bw = 0 ∧
      s.r.toNat / bw < s.params.pixDepth ∧ s.length.toNat ≤ s.params.payDepth ∧ s' = body bw s := by
  unfold runStep at h
  split at h
  · cases h
  · rename_i bw hbw
    obtain ⟨h1, h2, -⟩ := (byteWidth_eq_some _ _).1 hbw
    split at h
    · rename_i he
      split at h
      · rename_i hr
        simp only [runEntry, runReachable, Bool.and_eq_true, decide_eq_true_eq] at he hr
        cases h
        exact ⟨bw, hbw, h1, h2, he.1, he.2, hr.1, hr.2, rfl⟩
      · cases h
    · cases h

/-- A RUN step whose entry invariant holds runs its body. -/
theorem runStep_of_entry (body : Nat → State → State) (s : State) (bw : Nat)
    (hbw : byteWidth? s.cfg.bitDepth = some bw) (h1 : s.r.toNat < payloadBits s) (h2 : s.r.toNat % bw = 0)
    (h3 : s.r.toNat / bw < s.params.pixDepth) (h4 : s.length.toNat ≤ s.params.payDepth) :
    runStep body s = .next (body bw s) := by
  unfold runStep
  simp [hbw, runEntry, runReachable, h1, h2, h3, h4]

/-- The pixel at a cursor inside a checked payload exists (41_capacity.md R154). -/
theorem cursor_pixel_lt (bw pc n r depth : Nat) (hbw : 1 ≤ bw) (hn : n ≤ capacityOf pc bw) (hr : r < 8 * n)
    (hd : pc ≤ depth) : r / bw < depth := by
  unfold capacityOf at hn
  have h : r < pc * bw := by omega
  exact Nat.lt_of_lt_of_le ((Nat.div_lt_iff_lt_mul (by omega)).2 h) hd

end Sys2Proof.Machine
end

