-- ==== Sys2Proof/Laws/Bus.lean ====
section
/-! SUPPORT. What a host transaction can do (spec/20_memory.md R85 to R95), said once. -/

namespace Sys2Proof.Machine

/-! ### The address map -/

/-- An offset names a register exactly when it is that register's offset (R81). -/
theorem csrAt_eq_some (off : Nat) (c : Csr) : csrAt off = some c ↔ off = csrOffset c := by
  constructor
  · intro h
    have := List.find?_some h
    simp only [beq_iff_eq] at this
    exact this.symm
  · rintro rfl; cases c <;> rfl

theorem csrOffset_lt (c : Csr) : csrOffset c < 0x1000 := by cases c <;> decide

theorem addressMap_csr (p : Params) (c : Csr) : addressMap p (csrOffset c) = some (.csr c) := by
  unfold addressMap
  rw [if_pos (csrOffset_lt c), (csrAt_eq_some _ _).2 rfl]

/-- A word of a window is selected by its offset (R82 to R84). -/
theorem addressMap_window (p : Params) (id : MemId) (k : Nat) (hk : k < memWords p id) :
    addressMap p (windowBase id + 4 * k) = some (.word id k) := by
  have h1 := pixDepth_le p
  have h2 := payDepth_le p
  have hw : windowTarget p id (windowBase id + 4 * k) = some (.word id k) := by
    unfold windowTarget
    rw [show windowBase id + 4 * k - windowBase id = 4 * k by omega, show 4 * k / 4 = k by omega, if_pos hk]
  have hb : windowBase .pix = 0x10000000 ∧ windowBase .ref = 0x20000000 ∧ windowBase .pay = 0x30000000 := ⟨rfl, rfl, rfl⟩
  have hm : memWords p .pix = p.pixDepth ∧ memWords p .ref = p.pixDepth ∧ memWords p .pay = p.payDepth / 4 :=
    ⟨rfl, rfl, rfl⟩
  unfold addressMap
  cases id
  · rw [if_neg (by omega), if_neg (by omega), if_pos (by omega), hw]
  · rw [if_neg (by omega), if_neg (by omega), if_neg (by omega), if_pos (by omega), hw]
  · rw [if_neg (by omega), if_neg (by omega), if_neg (by omega), if_neg (by omega), if_pos (by omega), hw]

/-- What the address map can give: a register at its offset, a reserved offset, or a word of a window inside its depth. -/
theorem addressMap_some (p : Params) (off : Nat) (g : Target) (h : addressMap p off = some g) :
    (∃ c, g = .csr c ∧ off = csrOffset c) ∨ (g = .reserved ∧ off < 0x1000 ∧ ∀ c, off ≠ csrOffset c) ∨
      ∃ id k, g = .word id k ∧ k < memWords p id ∧ windowBase id ≤ off ∧ k = (off - windowBase id) / 4 := by
  have win : ∀ id, windowTarget p id off = some g → windowBase id ≤ off →
      ∃ id k, g = .word id k ∧ k < memWords p id ∧ windowBase id ≤ off ∧ k = (off - windowBase id) / 4 := by
    intro id hw hb
    unfold windowTarget at hw
    split at hw
    · cases hw; exact ⟨id, _, rfl, by assumption, hb, rfl⟩
    · cases hw
  unfold addressMap at h
  split at h
  · split at h
    · rename_i c hc
      cases h
      exact .inl ⟨c, rfl, (csrAt_eq_some _ _).1 hc⟩
    · rename_i hlt _ hn
      cases h
      refine .inr (.inl ⟨rfl, hlt, fun c hc => ?_⟩)
      rw [(csrAt_eq_some off c).2 hc] at hn
      cases hn
  · split at h
    · cases h
    · split at h
      · exact .inr (.inr (win .pix h (by simp only [windowBase]; omega)))
      · split at h
        · exact .inr (.inr (win .ref h (by simp only [windowBase]; omega)))
        · split at h
          · exact .inr (.inr (win .pay h (by simp only [windowBase]; omega)))
          · cases h

theorem busTarget_some (p : Params) (t : BusTxn) (g : Target) (h : busTarget p t = some g) :
    t.size = 4 ∧ t.off.toNat % 4 = 0 ∧ addressMap p t.off.toNat = some g := by
  unfold busTarget at h
  split at h
  · split at h
    · exact ⟨by assumption, by assumption, h⟩
    · cases h
  · cases h

theorem busTarget_aligned (p : Params) (kind : BusKind) (off w : Word) (h : off.toNat % 4 = 0) :
    busTarget p ⟨kind, off, 4, w⟩ = addressMap p off.toNat := by
  unfold busTarget; simp [h]

theorem busTarget_csr (p : Params) (kind : BusKind) (off w : Word) (c : Csr) (h : off.toNat = csrOffset c) :
    busTarget p ⟨kind, off, 4, w⟩ = some (.csr c) := by
  rw [busTarget_aligned _ _ _ _ (by rw [h]; cases c <;> rfl), h, addressMap_csr]

theorem windowWord_toNat (p : Params) (id : MemId) (k : Nat) (hk : k < memWords p id) :
    (windowWord id k).toNat = windowBase id + 4 * k := by
  have h1 := pixDepth_le p
  have h2 := payDepth_le p
  unfold windowWord
  rw [BitVec.toNat_ofNat, Nat.mod_eq_of_lt]
  cases id <;> simp only [windowBase, memWords] at hk ⊢ <;> omega

theorem busTarget_window (p : Params) (kind : BusKind) (id : MemId) (k : Nat) (w : Word) (hk : k < memWords p id) :
    busTarget p ⟨kind, windowWord id k, 4, w⟩ = some (.word id k) := by
  rw [busTarget_aligned, windowWord_toNat p id k hk, addressMap_window p id k hk]
  rw [windowWord_toNat p id k hk]
  cases id <;> simp only [windowBase] <;> omega

/-- A word of a window, by the number its offset is (20_memory.md R82 to R84). -/
theorem busTarget_windowOffset (p : Params) (kind : BusKind) (id : MemId) (k : Nat) (off w : Word) (hk : k < memWords p id)
    (h : off.toNat = windowBase id + 4 * k) : busTarget p ⟨kind, off, 4, w⟩ = some (.word id k) := by
  rw [busTarget_aligned, h, addressMap_window p id k hk]
  rw [h]
  cases id <;> simp only [windowBase] <;> omega

/-- The targets whose writes are dropped while BUSY stand at the offsets of 20_memory.md R94. -/
theorem targetGuarded_iff (p : Params) (off : Nat) (g : Target) (h4 : off % 4 = 0) (h : addressMap p off = some g) :
    targetGuarded g = true ↔ GuardedOffset p off := by
  have h2 := payDepth_div p
  unfold GuardedOffset
  simp only [List.mem_cons, List.not_mem_nil, or_false]
  rcases addressMap_some p off g h with ⟨c, rfl, rfl⟩ | ⟨rfl, hlt, hn⟩ | ⟨id, k, rfl, hk, hb, he⟩
  · cases c <;> simp [targetGuarded, csrGuarded, csrOffset]
  · have hc : ∀ c, off ≠ csrOffset c := hn
    have h8 := hc .cmd
    have h14 := hc .cfg
    have h18 := hc .geom
    have h1c := hc .length
    have h30 := hc .idxIn
    simp only [csrOffset] at h8 h14 h18 h1c h30
    simp only [targetGuarded, Bool.false_eq_true, false_iff]
    omega
  · simp only [targetGuarded, true_iff]
    cases id <;> simp only [windowBase, memWords] at hk hb he <;> omega

/-- The offsets that select nothing (20_memory.md R80, R88). -/
theorem addressMap_none_iff (p : Params) (off : Nat) (h32 : off < 2 ^ 32) (h4 : off % 4 = 0) :
    addressMap p off = none ↔
      (0x1000 ≤ off ∧ off < 0x10000000) ∨ (0x10000000 + 4 * p.pixDepth ≤ off ∧ off < 0x20000000) ∨
      (0x20000000 + 4 * p.pixDepth ≤ off ∧ off < 0x30000000) ∨ 0x30000000 + p.payDepth ≤ off := by
  have h1 := pixDepth_le p
  have h2 := payDepth_le p
  have h3 := payDepth_div p
  have win : ∀ id, windowTarget p id off = none ↔ ¬ (off - windowBase id) / 4 < memWords p id := by
    intro id; unfold windowTarget; split <;> simp_all
  have wp := win .pix
  have wr := win .ref
  have wy := win .pay
  simp only [windowBase, memWords] at wp wr wy
  unfold addressMap
  split
  · split
    · simp; omega
    · simp; omega
  · split
    · simp; omega
    · split
      · rw [wp]; omega
      · split
        · rw [wr]; omega
        · split
          · rw [wy]; omega
          · simp; omega

/-- What an accepted transaction's offset selects exists at every guarded offset. -/
theorem addressMap_of_guarded (p : Params) (off : Nat) (h32 : off < 2 ^ 32) (h4 : off % 4 = 0) (h : GuardedOffset p off) :
    ∃ g, addressMap p off = some g ∧ targetGuarded g = true := by
  have h1 := pixDepth_le p
  have h2 := payDepth_le p
  cases hg : addressMap p off with
  | some g => exact ⟨g, rfl, (targetGuarded_iff p off g h4 hg).2 h⟩
  | none =>
    rw [addressMap_none_iff p off h32 h4] at hg
    simp only [GuardedOffset, List.mem_cons, List.not_mem_nil, or_false] at h
    omega

/-! ### One transaction -/

/-- Everything a host transaction can do: be refused, be an accepted read, or be an accepted write. -/
theorem busStep_cases (t : BusTxn) (s : State) :
    (busTarget s.params t = none ∧ busStep t s = respond .slverr s) ∨
    (∃ g, busTarget s.params t = some g ∧ t.kind = .read ∧ busStep t s = respond (.readOkay (targetRead g s)) s) ∨
    ∃ g, busTarget s.params t = some g ∧ t.kind = .write ∧
      busStep t s = respond .writeOkay (acceptedWrite g t.wdata s) := by
  unfold busStep
  cases hg : busTarget s.params t with
  | none => exact .inl ⟨rfl, rfl⟩
  | some g =>
    cases hk : t.kind with
    | read => exact .inr (.inl ⟨g, rfl, rfl, rfl⟩)
    | write => exact .inr (.inr ⟨g, rfl, rfl, rfl⟩)

theorem busStep_none (t : BusTxn) (s : State) (h : busTarget s.params t = none) : busStep t s = respond .slverr s := by
  unfold busStep; rw [h]

theorem busStep_memRead (s : State) (off : Word) (g : Target) (h : busTarget s.params (memRead off) = some g) :
    busStep (memRead off) s = respond (.readOkay (targetRead g s)) s := by
  unfold busStep; rw [h]; rfl

theorem busStep_memWrite (s : State) (off v : Word) (g : Target) (h : busTarget s.params (memWrite off v) = some g) :
    busStep (memWrite off v) s = respond .writeOkay (acceptedWrite g v s) := by
  unfold busStep; rw [h]; rfl

/-- A read of the bus changes nothing but the response. -/
theorem busStep_read (t : BusTxn) (s : State) (hk : t.kind = .read) : ∃ a, busStep t s = respond a s := by
  rcases busStep_cases t s with ⟨-, h⟩ | ⟨g, -, -, h⟩ | ⟨g, -, hw, -⟩
  · exact ⟨_, h⟩
  · exact ⟨_, h⟩
  · rw [hk] at hw; cases hw

theorem busy_iff (s : State) : s.busy = true ↔ s.phase ≠ .idle := by
  unfold State.busy; simp

theorem acceptedWrite_idle (g : Target) (v : Word) (s : State) (h : s.phase = .idle) :
    acceptedWrite g v s = targetWrite g v s := by
  unfold acceptedWrite State.busy; simp [h]

theorem acceptedWrite_open (g : Target) (v : Word) (s : State) (h : targetGuarded g = false) :
    acceptedWrite g v s = targetWrite g v s := by
  unfold acceptedWrite; simp [h]

theorem acceptedWrite_dropped (g : Target) (v : Word) (s : State) (hb : s.phase ≠ .idle) (h : targetGuarded g = true) :
    acceptedWrite g v s = setHaz s := by
  unfold acceptedWrite; simp [h, (busy_iff s).2 hb]

/-- Everything an accepted write can do while BUSY: set HAZ, clear flags, set the interrupt enables, or nothing (R94, R95). -/
theorem acceptedWrite_busy_cases (g : Target) (v : Word) (s : State) (hb : s.phase ≠ .idle) :
    (targetGuarded g = true ∧ acceptedWrite g v s = setHaz s) ∨
    (g = .csr .status ∧ acceptedWrite g v s = { s with status := statusWrite1Clear v s.status }) ∨
    (g = .csr .irqEn ∧ acceptedWrite g v s = { s with irqEn := irqEnOfWord v }) ∨
    acceptedWrite g v s = s := by
  cases hg : targetGuarded g with
  | true => exact .inl ⟨rfl, acceptedWrite_dropped g v s hb hg⟩
  | false =>
    rw [acceptedWrite_open g v s hg]
    cases g with
    | csr c => cases c <;> simp_all [targetGuarded, csrGuarded, targetWrite, csrWrite]
    | reserved => exact .inr (.inr (.inr rfl))
    | word id k => simp [targetGuarded] at hg

/-- What a POLL's read leaves: only the response, and the POLL still scheduled when it has not matched (30_encoding.md R128). -/
theorem pollStep_cases (off mask val : Word) (s : State) :
    ∃ a, pollStep off mask val s = respond a s ∨
      pollStep off mask val s = { respond a s with schedule := .engine :: .poll off mask val :: s.schedule } := by
  obtain ⟨a, ha⟩ := busStep_read (memRead off) s rfl
  unfold pollStep
  rw [ha]
  by_cases h : pollMatches mask val (respond a s).resp
  · exact ⟨a, .inl (by rw [if_pos h])⟩
  · exact ⟨a, .inr (by rw [if_neg h])⟩

/-- While BUSY a transaction changes flags, interrupt enables and the response only (R94, R95). -/
theorem busStep_busy_frame (t : BusTxn) (s : State) (hb : s.phase ≠ .idle) :
    ∃ st ie re, busStep t s = { s with status := st, irqEn := ie, resp := re } := by
  rcases busStep_cases t s with ⟨h', e⟩ | ⟨g, h', hk, e⟩ | ⟨g, h', hk, e⟩ <;> rw [e]
  · exact ⟨s.status, s.irqEn, _, rfl⟩
  · exact ⟨s.status, s.irqEn, _, rfl⟩
  · rcases acceptedWrite_busy_cases g t.wdata s hb with ⟨-, e⟩ | ⟨-, e⟩ | ⟨-, e⟩ | e <;> rw [e]
    · exact ⟨_, s.irqEn, _, rfl⟩
    · exact ⟨_, s.irqEn, _, rfl⟩
    · exact ⟨s.status, _, _, rfl⟩
    · exact ⟨s.status, s.irqEn, _, rfl⟩

end Sys2Proof.Machine
end

