-- ==== Sys2Proof/Laws/HostProgram.lean ====
section
/-! SUPPORT. The laws of the host-program notation (spec/30_encoding.md R128 to R131): what a loaded program puts into the schedule, the
writes a list of words expands to, and the words a list of bytes packs to. -/

namespace Sys2Proof.Machine

/-! ### Loading -/

/-- A base statement is never a turn of the engine. -/
theorem BaseStmt.event_ne_engine (b : BaseStmt) : b.event ≠ .engine := by cases b <;> simp [BaseStmt.event]

/-- An event of a base statement makes the statement's transaction. -/
theorem eventTxn_event (b : BaseStmt) : eventTxn b.event = some b.txn := by cases b <;> rfl

/-- Interleaving adds engine turns only. -/
theorem filter_interleave (es : List Event) (h : ∀ e ∈ es, e ≠ .engine) :
    ∀ gaps, (interleave gaps es).filter (fun e => decide (e ≠ .engine)) = es := by
  induction es with
  | nil => intro gaps; cases gaps <;> rfl
  | cons e es ih =>
    have he := h e (by simp)
    have ih := ih fun x hx => h x (by simp [hx])
    intro gaps
    cases gaps <;> simp [interleave, he] <;> simpa using ih _

/-- Interleaving adds no transaction. -/
theorem filterMap_interleave (es : List Event) :
    ∀ gaps, (interleave gaps es).filterMap eventTxn = es.filterMap eventTxn := by
  induction es with
  | nil => intro gaps; cases gaps <;> rfl
  | cons e es ih =>
    intro gaps
    cases gaps <;> simp [interleave, List.filterMap_cons, List.filterMap_append, List.filterMap_replicate, eventTxn, ih]

/-! ### Words and bytes -/

/-- The word that four bytes pack to (20_memory.md R83). -/
theorem extract_packed (a b c d : Byte) (i : Nat) (hi : i < 4) :
    (d ++ c ++ b ++ a : Word).extractLsb' (8 * i) 8 = [a, b, c, d][i]?.getD 0#8 := by
  apply BitVec.eq_of_getLsbD_eq
  intro j hj
  simp only [BitVec.getLsbD_extractLsb', BitVec.getLsbD_append, hj, decide_true, Bool.true_and]
  match i, hi with
  | 0, _ => simp [hj]
  | 1, _ => simp [show ¬ 8 + j < 8 by omega, hj]
  | 2, _ => simp [show ¬ 16 + j < 8 by omega, show ¬ 16 + j - 8 < 8 by omega, show 16 + j - 8 - 8 = j by omega, hj]
  | 3, _ =>
    simp [show ¬ 24 + j < 8 by omega, show ¬ 24 + j - 8 < 8 by omega, show ¬ 24 + j - 8 - 8 < 8 by omega,
      show 24 + j - 8 - 8 - 8 = j by omega]

/-- LOADPAY's words, each by its bytes: missing high bytes are 0 (30_encoding.md R130). -/
theorem packBytes_spec (bs : List Byte) :
    (packBytes bs).length = (bs.length + 3) / 4 ∧
    ∀ k, k < (bs.length + 3) / 4 →
      ∃ w, (packBytes bs)[k]? = some w ∧ ∀ i, i < 4 → w.extractLsb' (8 * i) 8 = bs[4 * k + i]?.getD 0#8 := by
  have z3 (a : Byte) : (0#24 ++ a : Word) = 0#8 ++ 0#8 ++ 0#8 ++ a := by
    apply BitVec.eq_of_toNat_eq; simp
  have z2 (a b : Byte) : (0#16 ++ b ++ a : Word) = 0#8 ++ 0#8 ++ b ++ a := by
    apply BitVec.eq_of_toNat_eq; simp
  induction bs using packBytes.induct with
  | case1 => exact ⟨rfl, fun k hk => absurd hk (by simp)⟩
  | case2 a =>
    refine ⟨by simp [packBytes], fun k hk => ?_⟩
    obtain rfl : k = 0 := by simp at hk; omega
    refine ⟨_, rfl, fun i hi => ?_⟩
    rw [z3, extract_packed _ _ _ _ i hi]
    interval_cases i <;> rfl
  | case3 a b =>
    refine ⟨by simp [packBytes], fun k hk => ?_⟩
    obtain rfl : k = 0 := by simp at hk; omega
    refine ⟨_, rfl, fun i hi => ?_⟩
    rw [z2, extract_packed _ _ _ _ i hi]
    interval_cases i <;> rfl
  | case4 a b c =>
    refine ⟨by simp [packBytes], fun k hk => ?_⟩
    obtain rfl : k = 0 := by simp at hk; omega
    refine ⟨_, rfl, fun i hi => ?_⟩
    rw [extract_packed _ _ _ _ i hi]
    interval_cases i <;> rfl
  | case5 a b c d bs ih =>
    refine ⟨by simp only [packBytes, List.length_cons, ih.1]; omega, fun k hk => ?_⟩
    cases k with
    | zero =>
      refine ⟨_, rfl, fun i hi => ?_⟩
      rw [extract_packed _ _ _ _ i hi]
      interval_cases i <;> rfl
    | succ k =>
      obtain ⟨w, hw, hb⟩ := ih.2 k (by simp only [List.length_cons] at hk; omega)
      refine ⟨w, by simpa [packBytes] using hw, fun i hi => ?_⟩
      rw [hb i hi, show 4 * (k + 1) + i = 4 * k + i + 1 + 1 + 1 + 1 by omega]
      simp only [List.getElem?_cons_succ]

/-- The writes of consecutive words of a window. -/
theorem getElem?_loadWords (id : MemId) (vs : List Word) :
    ∀ k j : Nat, (loadWords id k vs)[j]? = vs[j]?.map fun v => BaseStmt.wr (windowWord id (k + j)) v := by
  induction vs with
  | nil => intro k j; simp [loadWords]
  | cons v vs ih =>
    intro k j
    cases j with
    | zero => simp [loadWords]
    | succ j => simp [loadWords, ih, show k + 1 + j = k + (j + 1) by omega]

theorem length_loadWords (id : MemId) (vs : List Word) : ∀ k, (loadWords id k vs).length = vs.length := by
  induction vs with
  | nil => intro k; rfl
  | cons v vs ih => intro k; simp [loadWords, ih]

end Sys2Proof.Machine
end

