-- ==== Sys2Proof/Laws/Step.lean ====
section
/-! SUPPORT. What one step can do, said once: whose turn it is (`step_cases`), and everything an engine step can end in
(`EngineMove`, `engineStep_cases`), with the frame of EXTRACT's lanes. -/

namespace Sys2Proof.Machine

/-! ### Whose turn it is -/

theorem step_of_engineTurn (s t : State) (h : EngineTurn s t) : step s = engineStep t := by
  unfold step takeTurn
  rcases h with ⟨hs, rfl⟩ | ⟨es, hs, rfl⟩ <;> rw [hs]

/-- A step that answers a next state is an engine step, a host transaction, a POLL's read or a reset. -/
theorem step_cases (s s' : State) (h : step s = .next s') :
    (∃ t, EngineTurn s t ∧ engineStep t = .next s') ∨
    (∃ t es, s.schedule = .bus t :: es ∧ s' = busStep t { s with schedule := es }) ∨
    (∃ off mask val es, s.schedule = .poll off mask val :: es ∧ s' = pollStep off mask val { s with schedule := es }) ∨
    ∃ es, s.schedule = .reset :: es ∧ s' = resetBlock { s with schedule := es } := by
  unfold step takeTurn at h
  split at h
  · rename_i hs; exact .inl ⟨s, .inl ⟨hs, rfl⟩, h⟩
  · rename_i es hs; exact .inl ⟨_, .inr ⟨es, hs, rfl⟩, h⟩
  · rename_i t es hs; cases h; exact .inr (.inl ⟨t, es, hs, rfl⟩)
  · rename_i off mask val es hs; cases h; exact .inr (.inr (.inl ⟨off, mask, val, es, hs, rfl⟩))
  · rename_i es hs; cases h; exact .inr (.inr (.inr ⟨es, hs, rfl⟩))

/-- The state the engine reads differs from the whole state in its schedule only. -/
theorem EngineTurn.eq {s t : State} (h : EngineTurn s t) : ∃ es, t = { s with schedule := es } := by
  rcases h with ⟨-, rfl⟩ | ⟨es, -, rfl⟩
  · exact ⟨t.schedule, rfl⟩
  · exact ⟨es, rfl⟩

/-! ### What an engine step can do -/

/-- Everything a step of an operation can end in (44_operation_selector.md R253, R259, R260). -/
inductive EngineMove (s : State) : State → Prop where
  /-- A CHECK that fails before CAPACITY is written. -/
  | checkError (code : ErrKind) (info : Word) (hp : s.phase = .check)
      (hc : code = .illegalCommand ∨ code = .illegalConfig ∨ code = .unsupportedChannelLayout) :
      EngineMove s (raiseError code info s)
  /-- A CHECK that fails after CAPACITY is written. -/
  | rangeError (bw : Nat) (code : ErrKind) (info : Word) (hp : s.phase = .check)
      (hbw : byteWidth? s.cfg.bitDepth = some bw)
      (hc : code = .geometryRange ∨ code = .payloadTooLarge ∨ code = .lengthRange) :
      EngineMove s (raiseError code info (writeCapacity bw s))
  /-- CAP completes. -/
  | cap (bw : Nat) (hp : s.phase = .check) (ho : s.opw = encode .cap)
      (hbw : byteWidth? s.cfg.bitDepth = some bw) : EngineMove s (capBody bw s)
  /-- INDEX completes. -/
  | index (bw : Nat) (hp : s.phase = .check) (ho : s.opw = encode .index)
      (hbw : byteWidth? s.cfg.bitDepth = some bw) : EngineMove s (indexBody bw s)
  /-- EMBED's CHECK passes. -/
  | beginEmbed (bw : Nat) (hp : s.phase = .check) (ho : s.opw = encode .embed)
      (hbw : byteWidth? s.cfg.bitDepth = some bw) (hg : pixelCount s.geom ≤ s.params.pixDepth)
      (hf : s.length.toNat ≤ capacityOf (pixelCount s.geom) bw) (hl : s.length.toNat ≤ s.params.payDepth) :
      EngineMove s (beginTransfer (writeCapacity bw s))
  /-- EXTRACT's CHECK passes. -/
  | beginExtract (bw : Nat) (hp : s.phase = .check) (ho : s.opw = encode .extract)
      (he : encodingOf s.cfg.enc ≠ none)
      (hbw : byteWidth? s.cfg.bitDepth = some bw) (hg : pixelCount s.geom ≤ s.params.pixDepth)
      (hf : s.length.toNat ≤ capacityOf (pixelCount s.geom) bw) (hl : s.length.toNat ≤ s.params.payDepth) :
      EngineMove s (beginExtract (writeCapacity bw s))
  /-- EMBED's RUN step. -/
  | embedPixel (bw : Nat) (hp : s.phase = .run) (ho : s.opw = encode .embed)
      (hbw : byteWidth? s.cfg.bitDepth = some bw) (hr : s.r.toNat < payloadBits s) (hm : s.r.toNat % bw = 0)
      (hx : s.r.toNat / bw < s.params.pixDepth) (hl : s.length.toNat ≤ s.params.payDepth) :
      EngineMove s (embedPixel bw s)
  /-- EXTRACT's RUN step. -/
  | extractPixel (bw : Nat) (hp : s.phase = .run) (ho : s.opw = encode .extract)
      (hbw : byteWidth? s.cfg.bitDepth = some bw) (hr : s.r.toNat < payloadBits s) (hm : s.r.toNat % bw = 0)
      (hx : s.r.toNat / bw < s.params.pixDepth) (hl : s.length.toNat ≤ s.params.payDepth) :
      EngineMove s (extractPixel bw s)
  /-- EMBED's FINISH step, or EXTRACT's when the bytes are well formed. -/
  | finish (hp : s.phase = .finish) (ho : s.opw = encode .embed ∨ s.opw = encode .extract) :
      EngineMove s (complete s)
  /-- EXTRACT's FINISH step when the bytes are not well formed. -/
  | decodingError (info : Word) (hp : s.phase = .finish) (ho : s.opw = encode .extract) :
      EngineMove s (raiseError .decodingError info s)

theorem execCap_move (s s' : State) (ho : s.opw = encode .cap) (h : execCap s = .next s') : EngineMove s s' := by
  unfold execCap at h
  split at h
  · rename_i hp
    cases h
    cases hb : byteWidth? s.cfg.bitDepth with
    | none => rw [withByteWidth_none _ _ hb]; exact .checkError _ _ hp (.inr (.inr rfl))
    | some bw => rw [withByteWidth_some _ _ _ hb]; exact .cap bw hp ho hb
  all_goals cases h

theorem execIndex_move (s s' : State) (ho : s.opw = encode .index) (h : execIndex s = .next s') : EngineMove s s' := by
  unfold execIndex at h
  split at h
  · rename_i hp
    cases h
    cases hb : byteWidth? s.cfg.bitDepth with
    | none => rw [withByteWidth_none _ _ hb]; exact .checkError _ _ hp (.inr (.inr rfl))
    | some bw => rw [withByteWidth_some _ _ _ hb]; exact .index bw hp ho hb
  all_goals cases h

theorem execEmbed_move (s s' : State) (ho : s.opw = encode .embed) (h : execEmbed s = .next s') : EngineMove s s' := by
  unfold execEmbed at h
  split at h
  · rename_i hp
    cases h
    cases hb : byteWidth? s.cfg.bitDepth with
    | none => rw [withByteWidth_none _ _ hb]; exact .checkError _ _ hp (.inr (.inr rfl))
    | some bw =>
      rw [withByteWidth_some _ _ _ hb]
      rcases transferBody_cases beginTransfer bw s with ⟨he, hg, hf, hl⟩ | ⟨code, info, he, hc⟩
      · rw [he]; exact .beginEmbed bw hp ho hb hg hf hl
      · rw [he]; exact .rangeError bw code info hp hb hc
  · rename_i hp
    obtain ⟨bw, hb, -, -, hr, hm, hx, hl, rfl⟩ := runStep_next _ _ _ h
    exact .embedPixel bw hp ho hb hr hm hx hl
  · rename_i hp
    cases h
    exact .finish hp (.inl ho)
  · cases h

theorem extractFinish_move (s s' : State) (hp : s.phase = .finish) (ho : s.opw = encode .extract)
    (h : extractFinish s = .next s') : EngineMove s s' := by
  unfold extractFinish at h
  split at h
  · cases h
  · split at h
    · split at h
      · cases h; exact .finish hp (.inr ho)
      · cases h; exact .decodingError _ hp ho
    · cases h

theorem execExtract_move (s s' : State) (ho : s.opw = encode .extract) (h : execExtract s = .next s') :
    EngineMove s s' := by
  unfold execExtract at h
  split at h
  · rename_i hp
    cases h
    unfold extractCheck
    cases hec : encodingOf s.cfg.enc with
    | none => exact .checkError _ _ hp (.inr (.inl rfl))
    | some enc =>
      simp only
      cases hb : byteWidth? s.cfg.bitDepth with
      | none => rw [withByteWidth_none _ _ hb]; exact .checkError _ _ hp (.inr (.inr rfl))
      | some bw =>
        rw [withByteWidth_some _ _ _ hb]
        rcases transferBody_cases Machine.beginExtract bw s with ⟨he, hg, hf, hl⟩ | ⟨code, info, he, hc⟩
        · rw [he]; exact .beginExtract bw hp ho (by rw [hec]; simp) hb hg hf hl
        · rw [he]; exact .rangeError bw code info hp hb hc
  · rename_i hp
    obtain ⟨bw, hb, -, -, hr, hm, hx, hl, rfl⟩ := runStep_next _ _ _ h
    exact .extractPixel bw hp ho hb hr hm hx hl
  · rename_i hp; exact extractFinish_move s s' hp ho h
  · cases h

/-- An engine step that answers a next state is the wait in IDLE or one of the moves of an operation. -/
theorem engineStep_cases (s s' : State) (h : engineStep s = .next s') :
    (s.phase = .idle ∧ s' = s) ∨ (s.phase ≠ .idle ∧ EngineMove s s') := by
  by_cases hi : s.phase = .idle
  · left
    unfold engineStep at h
    rw [hi] at h
    cases h
    exact ⟨hi, rfl⟩
  · right
    refine ⟨hi, ?_⟩
    have ho : operationStep s = .next s' := by
      unfold engineStep at h
      split at h
      · contradiction
      all_goals exact h
    unfold operationStep at ho
    split at ho
    · rename_i i hd
      have hw := (decode_command_iff _ _).1 hd
      cases i
      · exact execCap_move s s' hw ho
      · exact execEmbed_move s s' hw ho
      · exact execExtract_move s s' hw ho
      · exact execIndex_move s s' hw ho
    · unfold illegalCommand at ho
      split at ho
      · rename_i hp; cases ho; exact .checkError _ _ hp (.inl rfl)
      all_goals cases ho

/-- The step of an operation in progress is its command's meaning (44_operation_selector.md R260). -/
theorem engineStep_of_opw (s : State) (i : Instr) (hp : s.phase ≠ .idle) (ho : s.opw = encode i) :
    engineStep s = exec i s := by
  have hd : decode s.opw = .command i := (decode_command_iff _ _).2 ho
  unfold engineStep operationStep
  rw [hd]
  split
  · contradiction
  all_goals rfl

/-! ### The lanes of EXTRACT -/

theorem extractLanes_succ (bw : Nat) (v : Word) (r c : Nat) (s : State) :
    extractLanes bw v r (c + 1) s = extractLane bw v r (extractLanes bw v r c s) c := by
  simp [extractLanes, List.range_succ]

/-- One lane changes PAYMEM and `xacc` only. -/
theorem extractLane_frame (bw : Nat) (v : Word) (r L : Nat) (s : State) :
    ∃ m x, extractLane bw v r s L = { s with paymem := m, xacc := x } := by
  unfold extractLane
  split
  · exact ⟨_, _, rfl⟩
  · exact ⟨s.paymem, _, rfl⟩

/-- The lanes change PAYMEM and `xacc` only. -/
theorem extractLanes_frame (bw : Nat) (v : Word) (r c : Nat) (s : State) :
    ∃ m x, extractLanes bw v r c s = { s with paymem := m, xacc := x } := by
  induction c with
  | zero => exact ⟨s.paymem, s.xacc, rfl⟩
  | succ c ih =>
    obtain ⟨m, x, ih⟩ := ih
    rw [extractLanes_succ, ih]
    obtain ⟨m', x', h⟩ := extractLane_frame bw v r c { s with paymem := m, xacc := x }
    exact ⟨m', x', h⟩

/-- EXTRACT's RUN step changes PAYMEM, `xacc`, the cursor and the phase only. -/
theorem extractPixel_frame (bw : Nat) (s : State) :
    ∃ m x, extractPixel bw s = advanceCursor (stepLanes bw s) { s with paymem := m, xacc := x } := by
  obtain ⟨m, x, h⟩ := extractLanes_frame bw (recoveryValue s (s.r.toNat / bw)) s.r.toNat (stepLanes bw s) s
  exact ⟨m, x, by unfold extractPixel; rw [h]⟩

/-- EMBED's RUN step changes PIXMEM, the cursor and the phase only. -/
theorem embedPixel_frame (bw : Nat) (s : State) :
    ∃ m, embedPixel bw s = advanceCursor (stepLanes bw s) { s with pixmem := m } := ⟨_, rfl⟩

end Sys2Proof.Machine
end

