-- ==== Sys2Proof/Laws/Transfer.lean ====
section
/-! SUPPORT. The laws of EMBED's and EXTRACT's RUN steps (spec/42_embed.md R176 to R184, 43_extract.md R221, R226): what one pixel
and one lane leave, and how a run is stepped. -/

namespace Sys2Proof.Machine

/-! ### Payload bits and pixels -/

theorem payloadBits_zero (s : State) : payloadBits s = 0 ↔ s.length = 0#32 := by
  unfold payloadBits
  rw [← BitVec.toNat_inj]; simp

/-- Pixel `p` is touched exactly when a payload bit falls in it (42_embed.md R177). -/
theorem lt_touchedPixels_iff (bw : Nat) (s : State) (hbw : 1 ≤ bw) (p : Nat) :
    p < touchedPixels bw s ↔ p * bw < payloadBits s := by
  unfold touchedPixels
  rw [← Nat.succ_le_iff, Nat.le_div_iff_mul_le (by omega), Nat.succ_mul]
  omega

/-- The cursor after a RUN step inside a payload that fits PAYMEM. -/
theorem advanceCursor_toNat (s : State) (bw : Nat) (h : s.r.toNat < payloadBits s) (hl : s.length.toNat ≤ s.params.payDepth) :
    (advanceCursor (stepLanes bw s) s).r.toNat = s.r.toNat + stepLanes bw s ∧
      s.r.toNat + stepLanes bw s ≤ payloadBits s := by
  have h1 := payDepth_le s.params
  have h2 : payloadBits s = 8 * s.length.toNat := rfl
  unfold stepLanes laneCount
  constructor
  · simp only [advanceCursor_r, BitVec.toNat_ofNat]
    omega
  · omega

/-! ### EMBED -/

theorem payloadBit_congr (s t : State) (h : t.paymem = s.paymem) (i : Nat) : payloadBit t i = payloadBit s i := by
  unfold payloadBit; rw [readByte_congr t s .pay _ h]

theorem embeddedSample_congr (s t : State) (bw p : Nat) (x : Word) (h1 : t.paymem = s.paymem) (h2 : t.cfg = s.cfg)
    (h3 : t.length = s.length) : embeddedSample bw p x t = embeddedSample bw p x s := by
  have e : payloadBit t = payloadBit s := funext fun i => payloadBit_congr s t h1 i
  unfold embeddedSample pixelAcc pixelMask pixelLanes payloadBits
  rw [e, h2, h3]

/-- What a RUN step at pixel `p` writes is the closed form's sample of that pixel (42_embed.md R181, R184). -/
theorem embeddedWord_eq (bw : Nat) (s : State) (h : s.r.toNat % bw = 0) :
    embeddedWord bw s = embeddedSample bw (s.r.toNat / bw) (readWord .pix (s.r.toNat / bw) s) s := by
  unfold embeddedWord embeddedSample pixelAcc pixelMask pixelLanes stepLanes
  rw [Nat.div_mul_cancel (Nat.dvd_of_mod_eq_zero h)]

/-- The pixels after EMBED's RUN step. -/
theorem readWord_embedPixel (bw : Nat) (s : State) (p : Nat) :
    readWord .pix p (embedPixel bw s) = if p = s.r.toNat / bw then embeddedWord bw s else readWord .pix p s := by
  unfold embedPixel
  rw [readWord_congr (advanceCursor _ _) (writeWord .pix (s.r.toNat / bw) (embeddedWord bw s) s) .pix p rfl,
    readWord_writeWord]
  simp [eq_comm]

/-! ### EXTRACT -/

theorem recoveredBit_congr (s t : State) (bw i : Nat) (h1 : t.pixmem = s.pixmem) (h2 : t.refmem = s.refmem)
    (h3 : t.cfg = s.cfg) : recoveredBit t bw i = recoveredBit s bw i := by
  unfold recoveredBit recoveryValue
  rw [h3, readWord_congr t s .pix _ h1, readWord_congr t s .ref _ h2]

/-- Everything the first `c` lanes of a RUN step leave: either no byte is complete and `xacc` holds the old bits and the new ones, or
the byte that lane `L0` completes is stored and `xacc` holds the lanes after it (43_extract.md R221). -/
theorem extractLanes_form (bw : Nat) (v : Word) (r : Nat) (s : State) (c : Nat) (hc : c ≤ 8) :
    ((∀ L, L < c → (r + L) % 8 ≠ 7) ∧ ∃ x, extractLanes bw v r c s = { s with xacc := x } ∧
      ∀ m, m < 8 → x.getLsbD m = if m < c then lbit v (c - 1 - m) bw else s.xacc.getLsbD (m - c)) ∨
    (∃ L0, L0 < c ∧ (r + L0) % 8 = 7 ∧ ∃ b x,
      extractLanes bw v r c s = writeByte .pay ((r + L0) / 8) b { s with xacc := x } ∧
      (∀ m, m < 8 → b.getLsbD m = if m ≤ L0 then lbit v (L0 - m) bw else s.xacc.getLsbD (m - (L0 + 1))) ∧
      ∀ m, x.getLsbD m = (decide (m + L0 + 1 < c) && lbit v (c - 1 - m) bw)) := by
  induction c with
  | zero =>
    left
    refine ⟨fun L h => by omega, s.xacc, rfl, fun m hm => by simp⟩
  | succ c ih =>
    rw [extractLanes_succ]
    rcases ih (by omega) with ⟨hno, x, hx, hb⟩ | ⟨L0, hL, h7, b, x, hx, hb, hxb⟩
    · rw [hx]
      unfold extractLane
      by_cases h7 : (r + c) % 8 = 7
      · rw [if_pos h7]
        right
        refine ⟨c, by omega, h7, _, 0#8, rfl, ?_, ?_⟩
        · intro m hm
          rw [shiftIn_getLsbD _ _ _ hm]
          by_cases h0 : m = 0
          · subst h0; simp
          · rw [if_neg h0, hb _ (by omega)]
            by_cases hmc : m ≤ c
            · rw [if_pos (by omega), if_pos hmc, show c - 1 - (m - 1) = c - m by omega]
            · rw [if_neg (by omega), if_neg hmc, show m - 1 - c = m - (c + 1) by omega]
        · intro m
          simp
      · rw [if_neg h7]
        left
        refine ⟨?_, _, rfl, ?_⟩
        · intro L hL
          rcases Nat.lt_succ_iff_lt_or_eq.1 hL with h | h
          · exact hno L h
          · rw [h]; exact h7
        · intro m hm
          rw [shiftIn_getLsbD _ _ _ hm]
          by_cases h0 : m = 0
          · subst h0; simp
          · rw [if_neg h0, hb _ (by omega)]
            by_cases hmc : m < c + 1
            · rw [if_pos (by omega), if_pos hmc, show c - 1 - (m - 1) = c + 1 - 1 - m by omega]
            · rw [if_neg (by omega), if_neg hmc, show m - 1 - c = m - (c + 1) by omega]
    · rw [hx]
      right
      unfold extractLane
      rw [if_neg (by omega)]
      refine ⟨L0, by omega, h7, b, _, rfl, hb, ?_⟩
      intro m
      by_cases hm : m < 8
      · show ((x <<< 1) ||| _).getLsbD m = _
        rw [shiftIn_getLsbD _ _ _ hm]
        by_cases h0 : m = 0
        · subst h0
          rw [if_pos rfl]
          simp; omega
        · rw [if_neg h0, hxb]
          rw [show c - 1 - (m - 1) = c + 1 - 1 - m by omega]
          congr 1
          simp; omega
      · rw [BitVec.getLsbD_of_ge _ _ (by omega)]
        simp; omega

/-- `xacc` holds no more than the bits of the byte in progress (10_state.md R63). -/
theorem extractLanes_xacc_lt (bw : Nat) (v : Word) (r : Nat) (s : State) (c : Nat) (h : s.xacc.toNat < 2 ^ (r % 8)) :
    (extractLanes bw v r c s).xacc.toNat < 2 ^ ((r + c) % 8) := by
  induction c with
  | zero => exact h
  | succ c ih =>
    rw [extractLanes_succ]
    generalize extractLanes bw v r c s = u at *
    unfold extractLane
    by_cases h7 : (r + c) % 8 = 7
    · rw [if_pos h7]
      show (0#8).toNat < _
      exact Nat.two_pow_pos _
    · rw [if_neg h7]
      have e : (r + (c + 1)) % 8 = (r + c) % 8 + 1 := by omega
      rw [e]
      show ((u.xacc <<< 1) ||| (if lbit v c bw then 1#8 else 0#8)).toNat < _
      have hlt : (r + c) % 8 < 7 := by omega
      have hp : 2 ^ ((r + c) % 8 + 1) = 2 * 2 ^ ((r + c) % 8) := by rw [Nat.pow_succ]; omega
      have hq : 2 ^ ((r + c) % 8) ≤ 2 ^ 6 := Nat.pow_le_pow_right (by omega) (by omega)
      rw [BitVec.toNat_or]
      have h1 : (u.xacc <<< 1).toNat = 2 * u.xacc.toNat := by
        simp only [BitVec.toNat_shiftLeft, Nat.shiftLeft_eq]; omega
      apply Nat.or_lt_two_pow
      · rw [h1]; omega
      · have : 2 ≤ 2 ^ ((r + c) % 8 + 1) := by rw [hp]; have := Nat.two_pow_pos ((r + c) % 8); omega
        split
        · show 1 < _; omega
        · show 0 < _; omega

/-- EXTRACT's RUN step changes PAYMEM, `xacc`, the cursor and the phase, the last two as EMBED's does. -/
theorem extractPixel_eq (bw : Nat) (s : State) :
    extractPixel bw s = { s with
      paymem := (extractPixel bw s).paymem
      xacc := (extractPixel bw s).xacc
      r := BitVec.ofNat 32 (s.r.toNat + stepLanes bw s)
      phase := if s.r.toNat + stepLanes bw s = payloadBits s then .finish else s.phase } := by
  obtain ⟨m, x, hfr⟩ := extractPixel_frame bw s
  rw [hfr]; rfl

/-! ### Runs -/

theorem runSteps_zero (s : State) : runSteps 0 s = .next s := rfl

theorem runSteps_succ (n : Nat) (s t : State) (h : step s = .next t) : runSteps (n + 1) s = runSteps n t := by
  simp only [runSteps, Host.Core.run]
  rw [show core.step s = .next t from h]

/-- A run's last step. -/
theorem runSteps_last (n : Nat) (a b : State) : runSteps n a = .next b → runSteps (n + 1) a = step b := by
  revert a b
  induction n with
  | zero =>
    intro a b h
    obtain rfl : a = b := by cases h; rfl
    simp only [runSteps, Host.Core.run]
    have e : core.step a = step a := rfl
    rw [← e]
    cases core.step a <;> rfl
  | succ n ih =>
    intro a b h
    cases hst : step a with
    | next a' =>
      rw [runSteps_succ n a a' hst] at h
      rw [runSteps_succ _ a a' hst]
      exact ih _ _ h
    | fault f =>
      simp only [runSteps, Host.Core.run] at h
      rw [show core.step a = .fault f from hst] at h
      cases h
    | refused f =>
      simp only [runSteps, Host.Core.run] at h
      rw [show core.step a = .refused f from hst] at h
      cases h

end Sys2Proof.Machine
end

