-- ==== Sys2Proof/Laws/Invariant.lean ====
section
/-! SUPPORT. The laws of the invariant: what it says of each phase, and updates that keep its parts. -/

namespace Sys2Proof.Machine

/-! ### What the invariant says of each phase -/

theorem Inv.check {s : State} (h : Inv s) (hp : s.phase = .check) : Unreported s ∧ s.r = 0#32 ∧ s.xacc = 0#8 := by
  have := h.engine; unfold EngineOk at this; rw [hp] at this; exact this

theorem Inv.run {s : State} (h : Inv s) (hp : s.phase = .run) :
    Unreported s ∧ TransferOp s ∧ ∃ bw, Checked bw s ∧ s.r.toNat < payloadBits s ∧ s.r.toNat % bw = 0 := by
  have := h.engine; unfold EngineOk at this; rw [hp] at this; exact this

theorem Inv.finish {s : State} (h : Inv s) (hp : s.phase = .finish) :
    Unreported s ∧ TransferOp s ∧ ∃ bw, Checked bw s ∧ s.r.toNat = payloadBits s := by
  have := h.engine; unfold EngineOk at this; rw [hp] at this; exact this

theorem engineOk_idle (s : State) (h : s.phase = .idle) (hx : s.xacc = 0#8) : EngineOk s := by
  unfold EngineOk; rw [h]; exact hx

theorem TransferOp.embed {s : State} (h : TransferOp s) (ho : s.opw = encode .embed) : s.xacc = 0#8 := by
  rcases h with ⟨-, h⟩ | ⟨h, -⟩
  · exact h
  · rw [h] at ho; cases encode_injective ho

theorem TransferOp.extract {s : State} (h : TransferOp s) (ho : s.opw = encode .extract) :
    encodingOf s.cfg.enc ≠ none ∧ s.xacc.toNat < 2 ^ (s.r.toNat % 8) := by
  rcases h with ⟨h, -⟩ | ⟨-, h⟩
  · rw [h] at ho; cases encode_injective ho
  · exact h

/-! ### Updates that keep it -/

/-- Two states agree on everything the invariant looks at besides the flags. -/
structure SameCore (s t : State) : Prop where
  pix : t.pixmem = s.pixmem
  ref : t.refmem = s.refmem
  pay : t.paymem = s.paymem
  params : t.params = s.params
  capacity : t.capacity = s.capacity
  r : t.r = s.r
  idxLane : t.idxLane = s.idxLane
  errCode : t.errCode = s.errCode
  errInfo : t.errInfo = s.errInfo
  phase : t.phase = s.phase
  opw : t.opw = s.opw
  xacc : t.xacc = s.xacc
  cfg : t.cfg = s.cfg
  geom : t.geom = s.geom
  length : t.length = s.length

/-- An update that touches only the flags, and sets neither DONE nor ERR, keeps the invariant. -/
theorem Inv.of_sameCore {s t : State} (hi : Inv s) (h : SameCore s t) (hd : t.status.done = true → s.status.done = true)
    (he : t.status.err = true → s.status.err = true) : Inv t := by
  obtain ⟨p1, p2, p3, p4, p5, p6, p7, p8, p9, p10, p11, p12, p13, p14, p15⟩ := h
  obtain ⟨h1, h2, h3, h4, h5, h6, h7, h8⟩ := hi
  have hu : Unreported s → Unreported t := by
    rintro ⟨a, b, c, d⟩
    refine ⟨?_, ?_, by rw [p8, c], by rw [p9, d]⟩
    · cases h : t.status.done
      · rfl
      · rw [hd h] at a; cases a
    · cases h : t.status.err
      · rfl
      · rw [he h] at b; cases b
  have hc : ∀ bw, Checked bw s → Checked bw t := by
    rintro bw ⟨a, b, c, d, e⟩
    exact ⟨by rw [p13]; exact a, by rw [p14, p4]; exact b, by rw [p14, p15]; exact c, by rw [p15, p4]; exact d,
      by rw [p5, p14]; exact e⟩
  have hn : payloadBits t = payloadBits s := by unfold payloadBits; rw [p15]
  have ht : TransferOp s → TransferOp t := by
    unfold TransferOp; rw [p11, p12, p13, p6]; exact id
  refine ⟨fun id => ?_, by rw [p5]; exact h2, by rw [p6]; exact h3, by rw [p7]; exact h4, by rw [p8]; exact h5,
    by rw [p8, p9]; exact h6, fun h => by rw [p8]; exact h7 (he h), ?_⟩
  · have := h1 id
    unfold MemoryOk at *
    rw [p4]
    cases id
    · show Memory.wf t.pixmem = true ∧ Memory.below _ t.pixmem = true; rw [p1]; exact this
    · show Memory.wf t.refmem = true ∧ Memory.below _ t.refmem = true; rw [p2]; exact this
    · show Memory.wf t.paymem = true ∧ Memory.below _ t.paymem = true; rw [p3]; exact this
  · unfold EngineOk at h8 ⊢
    rw [p10, p6, p12, hn]
    cases hp : s.phase <;> simp only [hp] at h8 ⊢
    · exact h8
    · exact ⟨hu h8.1, h8.2⟩
    · obtain ⟨a, b, bw, c, d⟩ := h8; exact ⟨hu a, ht b, bw, hc bw c, d⟩
    · obtain ⟨a, b, bw, c, d⟩ := h8; exact ⟨hu a, ht b, bw, hc bw c, d⟩

/-- A word write inside a memory's depth keeps every memory canonical and inside its depth. -/
theorem memoryOk_writeWord (s : State) (id : MemId) (k : Nat) (v : Word) (hk : k < memWords s.params id)
    (h : ∀ id, MemoryOk s id) : ∀ id', MemoryOk (writeWord id k v s) id' := by
  intro id'
  unfold MemoryOk
  rw [memory_writeWord]
  have hp : (writeWord id k v s).params = s.params := by cases id <;> rfl
  rw [hp]
  by_cases e : id = id'
  · subst e; rw [if_pos rfl]
    exact ⟨Memory.wf_writeWord _ _ _ (h id).1, Memory.below_writeWord _ _ _ _ hk (h id).2⟩
  · rw [if_neg e]; exact h id'

/-- A byte write inside a memory's depth keeps every memory canonical and inside its depth. -/
theorem memoryOk_writeByte (s : State) (id : MemId) (a : Nat) (v : Byte) (hk : a < 4 * memWords s.params id)
    (h : ∀ id, MemoryOk s id) : ∀ id', MemoryOk (writeByte id a v s) id' := by
  intro id'
  unfold MemoryOk
  rw [memory_writeByte]
  have hp : (writeByte id a v s).params = s.params := by cases id <;> rfl
  rw [hp]
  by_cases e : id = id'
  · subst e; rw [if_pos rfl]
    exact ⟨Memory.wf_write _ _ _ (h id).1, Memory.below_write _ _ _ _ hk (h id).2⟩
  · rw [if_neg e]; exact h id'

end Sys2Proof.Machine
end

