-- ==== Sys2Proof/Laws/PerInstr.lean ====
section
/-! SUPPORT. What holds of every command as syntax, one lemma per constructor: its one word has reserved bits 0 and the opcode of
spec/30_encoding.md R122, decodes to it, and is well formed. -/

namespace Sys2Proof.Laws.Encoding

/-- A command is well formed, its word's fields are legal (R120, R126) and its word decodes to it (R123). -/
def Statement (i : Instr) : Prop :=
  i.wellFormed = true ∧ (cmdFields (encode i)).wellFormed = true ∧ decode (encode i) = .command i

theorem cap : Statement .cap := ⟨rfl, rfl, Machine.decode_encode .cap⟩

theorem embed : Statement .embed := ⟨rfl, rfl, Machine.decode_encode .embed⟩

theorem extract : Statement .extract := ⟨rfl, rfl, Machine.decode_encode .extract⟩

theorem index : Statement .index := ⟨rfl, rfl, Machine.decode_encode .index⟩

end Sys2Proof.Laws.Encoding
end

