-- ==== Sys2Proof/Laws/Validator.lean ====
section
/-! SUPPORT. The laws of the encoding validator (spec/43_extract.md R214 to R219). -/

namespace Sys2Proof.Machine

/-- A scan that stops, stops between where it began and the end. -/
theorem utf8Scan_le (B : List Byte) :
    ∀ (owed : Ranges) (k info : Nat), utf8Scan owed k B = some info → k ≤ info ∧ info ≤ k + B.length := by
  induction B with
  | nil =>
    intro owed k info h
    cases owed <;> simp [utf8Scan] at h
    omega
  | cons b B ih =>
    intro owed k info h
    cases owed with
    | nil =>
      simp only [utf8Scan] at h
      split at h
      · have := ih _ _ _ h; simp; omega
      · cases h; simp
    | cons r owed =>
      simp only [utf8Scan] at h
      split at h
      · have := ih _ _ _ h; simp; omega
      · cases h; simp

/-- The information word of a verdict is at most the length (43_extract.md R214). -/
theorem validate_le (enc : TextEncoding) (B : List Byte) (info : Nat) (h : validate enc B = some info) : info ≤ B.length := by
  cases enc with
  | utf16 =>
    simp only [validate, validateUtf16] at h
    split at h <;> cases h
    omega
  | utf8 =>
    have := utf8Scan_le B [] 0 info h
    omega
  | ascii7 =>
    simp only [validate, validateAscii7] at h
    rw [List.findIdx?_eq_some_iff_getElem] at h
    obtain ⟨h, -⟩ := h
    omega

/-- The ranges of a row as numbers. -/
def rangesNat (owed : Ranges) : List (Nat × Nat) := owed.map fun r => (r.1.toNat, r.2.toNat)

/-- A byte lies in a range exactly when its value does. -/
theorem inRange_iff (b : Byte) (r : Byte × Byte) : inRange b r = true ↔ InByteRange (r.1.toNat, r.2.toNat) b := by
  simp [inRange, InByteRange, BitVec.le_def]

/-- The validator's rows are those of the table of 43_extract.md R216. -/
theorem utf8Row_eq_leadRow? : ∀ b : Byte, (utf8Row b).map rangesNat = leadRow? b := by decide

/-- A scan passes over the bytes a row still owes. -/
theorem utf8Scan_matchesRow (owed : Ranges) :
    ∀ (bs rest : List Byte) (k : Nat), MatchesRow (rangesNat owed) bs →
      utf8Scan owed k (bs ++ rest) = utf8Scan [] (k + bs.length) rest := by
  induction owed with
  | nil => intro bs rest k h; cases h; rfl
  | cons r owed ih =>
    intro bs rest k h
    cases bs with
    | nil => cases h
    | cons b bs =>
      obtain ⟨h1, h2⟩ := h
      simp only [List.cons_append, utf8Scan, (inRange_iff b r).2 h1, if_true]
      rw [ih bs rest (k + 1) h2]
      congr 1
      simp
      omega

end Sys2Proof.Machine
end

