-- ==== Sys2Proof/Tests/Slice0.lean ====
section
/-! SUPPORT. The model's own tests: words written out from spec/opcode_table.json, an ill-formed term for each check of WellFormed, steps
with the expected values of spec/95_test_vectors.md, and a witness for the hypotheses of each obligation. -/

namespace Sys2Proof.Tests

open Sys2Proof.Machine

/-! ### Decoding -/

theorem test_decode_cap : decode 0b00000000000000000000000000000001#32 = .command .cap := by decide
theorem test_decode_embed : decode 0b00000000000000000000000000000010#32 = .command .embed := by decide
theorem test_decode_extract : decode 0b00000000000000000000000000000011#32 = .command .extract := by decide
theorem test_decode_index : decode 0b00000000000000000000000000000100#32 = .command .index := by decide

/-- V-D1 to V-D5: illegal words. -/
theorem test_decode_illegal :
    decode 0x00000000#32 = .illegal .opcodeUnassigned ∧ decode 0x00000005#32 = .illegal .opcodeUnassigned ∧
    decode 0x000000FF#32 = .illegal .opcodeUnassigned ∧ decode 0x00000102#32 = .illegal .reservedBitsSet ∧
    decode 0x80000001#32 = .illegal .reservedBitsSet := by decide

theorem test_decodeTableWord :
    decodeTableWord 32 1 = some .cap ∧ decodeTableWord 32 2 = some .embed ∧ decodeTableWord 32 3 = some .extract ∧
    decodeTableWord 32 4 = some .index ∧ decodeTableWord 32 0x102 = none := by decide

/-! ### WellFormed: an ill-formed term for each check -/

theorem test_wf_rsvd : (CmdFields.mk 0x02#8 0x000001#24).rsvdZero = false ∧
    (CmdFields.mk 0x02#8 0x000001#24).wellFormed = false := by decide
theorem test_wf_opcode : (CmdFields.mk 0x05#8 0#24).opcodeAssigned = false ∧
    (CmdFields.mk 0x05#8 0#24).wellFormed = false := by decide
theorem test_wf_size : (BusTxn.mk .read 0x10000000#32 2 0#32).sizeOk = false ∧
    (BusTxn.mk .read 0x10000000#32 2 0#32).wellFormed = false := by decide
theorem test_wf_aligned : (BusTxn.mk .read 0x10000002#32 4 0#32).aligned = false ∧
    (BusTxn.mk .read 0x10000002#32 4 0#32).wellFormed = false := by decide
theorem test_wf_setcfg : (HostStmt.setcfg 256 0 0).wellFormed = false ∧ (HostStmt.setcfg 8 4 0).wellFormed = false ∧
    (HostStmt.setcfg 8 0 2).wellFormed = false := by decide
theorem test_wf_setgeom : (HostStmt.setgeom 65536 1).wellFormed = false ∧
    (HostStmt.setgeom 1 65536).wellFormed = false := by decide
theorem test_wf_loadpix : (HostStmt.loadpix 67108863 [0#32, 0#32]).wellFormed = false := by decide
theorem test_wf_loadref : (HostStmt.loadref 67108863 [0#32, 0#32]).wellFormed = false := by decide

/-- The number of bytes is the one thing the check looks at. -/
theorem test_wf_loadpay (bs : List Byte) (h : bs.length = 268435457) : (HostStmt.loadpay bs).wellFormed = false := by
  simp [HostStmt.wellFormed, h]

theorem test_wf_good : (CmdFields.mk 0x02#8 0#24).wellFormed = true ∧ (memRead 0x1C#32).wellFormed = true ∧
    (HostStmt.setcfg 255 3 1).wellFormed = true ∧ (HostStmt.setgeom 65535 65535).wellFormed = true ∧
    (HostStmt.loadpix 67108862 [0#32, 0#32]).wellFormed = true ∧ (HostStmt.loadpay [0#8]).wellFormed = true := by decide

/-! ### A small block: PIX_DEPTH 16, PAY_DEPTH 8 -/

/-- The state an outcome holds. -/
def after : Result → State
  | .next s => s
  | .fault _ => State.reset
  | .refused _ => State.reset

/-- The outcome is a next state. -/
def isNext : Result → Bool
  | .next _ => true
  | .fault _ => false
  | .refused _ => false

theorem next_after (o : Result) (h : isNext o = true) : o = .next (after o) := by
  cases o <;> first | rfl | cases h

/-- A block after reset, configured with BIT_DEPTH `bd`, ENC `enc`, MODE `mode`, `w` pixels in one row and LENGTH `len`. -/
def block (bd : BitVec 8) (enc : BitVec 2) (mode : BitVec 1) (w : BitVec 16) (len : Word) : State :=
  { State.reset with params := ⟨15, 1⟩, cfg := ⟨bd, enc, mode⟩, geom := ⟨w, 1#16⟩, length := len }

/-- The pixels 0, 1, … and the payload written. -/
def withImage (px : List Word) (pay : Memory) (s : State) : State :=
  { (px.zipIdx.foldl (fun s v => writeWord .pix v.2 v.1 s) s) with paymem := pay }

/-- A command accepted. -/
def accepted (i : Instr) (s : State) : State := acceptCommand (encode i) s

/-- V-E1: two zero pixels of 32 bits, payload 0x41, REPLACE; ENC is ASCII_7. -/
def vE1 : State := withImage [0#32, 0#32] [(0, 0x41#8)] (block 32#8 2#2 0#1 8#16 1#32)

/-- V-E3: three pixels of 24 bits, payload 0x41, REPLACE. -/
def vE3 : State := withImage [0x00FFFFFF#32, 0x00FFFFFF#32, 0x00FFFFFF#32] [(0, 0x41#8)] (block 24#8 2#2 0#1 3#16 1#32)

/-- V-E2: two pixels of ones, payload 0x41, XOR_SOURCE. -/
def vE2 : State :=
  withImage [0xFFFFFFFF#32, 0xFFFFFFFF#32] [(0, 0x41#8)]
    { block 32#8 2#2 1#1 8#16 1#32 with
      refmem := Memory.writeWord (Memory.writeWord [] 0 0xFFFFFFFF#32) 1 0xFFFFFFFF#32 }

/-! ### Steps, against the vectors -/

/-- V-C1, V-C6. -/
theorem test_cap :
    (after (step (accepted .cap (block 32#8 0#2 0#1 8#16 0#32)))).capacity = 4#32 ∧
    (after (step (accepted .cap { block 32#8 0#2 0#1 0#16 0#32 with geom := ⟨65535#16, 65535#16⟩ }))).capacity =
      0x7FFF0000#32 := by decide

/-- V-C10. -/
theorem test_cap_unsupported :
    statusWord (after (step (accepted .cap (block 12#8 0#2 0#1 8#16 0#32)))) = 6#32 ∧
    (after (step (accepted .cap (block 12#8 0#2 0#1 8#16 0#32)))).errInfo = 0xC#32 := by decide

/-- V-I1, V-I6. -/
theorem test_index :
    csrRead .idxLane (after (step (accepted .index { block 24#8 0#2 0#1 8#16 0#32 with idxIn := 7#32 }))) = 0x101#32 ∧
    (after (step (accepted .index { block 24#8 0#2 0#1 8#16 0#32 with idxIn := 0xFFFFFFFF#32 }))).idxPixel =
      0x55555555#32 := by decide

/-- V-I10. -/
theorem test_index_unsupported :
    csrRead .errCode (after (step (accepted .index (block 20#8 0#2 0#1 8#16 0#32)))) = 2#32 ∧
    (after (step (accepted .index (block 20#8 0#2 0#1 8#16 0#32)))).errInfo = 0x14#32 := by decide

/-- The state in RUN with the cursor at `r`. -/
def running (i : Instr) (r : Word) (s : State) : State := { accepted i s with phase := .run, r := r }

/-- V-E3, the partial last pixel. -/
theorem test_embed_partial : readWord .pix 2 (after (step (running .embed 6#32 vE3))) = 0x00FFFFFB#32 ∧
    (after (step (running .embed 6#32 vE3))).phase = .finish := by decide

/-- V-E2, XOR_SOURCE. -/
theorem test_embed_xor : readWord .pix 0 (after (step (running .embed 0#32 vE2))) = 0xFFFFFFFB#32 := by decide

/-- V-X1: the second half of 0x41 arrives from pixel 1 of V-E1's end state. -/
theorem test_extract_byte :
    readByte .pay 0 (after (step { running .extract 4#32 (writeWord .pix 1 1#32 vE1) with xacc := 4#8 })) = 0x41#8 ∧
    (after (step { running .extract 4#32 (writeWord .pix 1 1#32 vE1) with xacc := 4#8 })).xacc = 0#8 := by decide

/-- V-X9: an odd LENGTH under UTF_16. -/
theorem test_extract_decoding_error :
    csrRead .errCode (after (step { running .extract 8#32 (block 32#8 0#2 0#1 8#16 1#32) with phase := .finish })) = 3#32 := by
  decide

/-- V-V3, V-V10, V-V11, V-V12, V-V26. -/
theorem test_validate :
    validate .utf8 [0xC3#8, 0xA9#8] = none ∧ validate .utf8 [0xE2#8, 0x82#8] = some 2 ∧
    validate .utf8 [0xED#8, 0xA0#8, 0x80#8] = some 1 ∧ validate .utf8 [0x41#8, 0x80#8] = some 1 ∧
    validate .ascii7 [0x41#8, 0x42#8, 0xFF#8, 0x80#8] = some 2 := by decide

/-- V-M11, V-M12, V-M9. -/
theorem test_bus :
    csrRead .cfg (busStep (memWrite 0x14#32 0xFFFFFFFF#32) vE1) = 0x000103FF#32 ∧
    statusWord (busStep (memWrite 0x0C#32 2#32) { vE1 with status := ⟨true, true, false⟩ }) = 4#32 ∧
    (busStep (memRead 0x10000040#32) vE1).resp = some .slverr := by decide

/-- V-D4: an illegal word, through `withFetchWord`. -/
theorem test_illegal_command :
    csrRead .errCode (after (step (vE1.withFetchWord 32 0x102))) = 5#32 ∧
    (after (step (vE1.withFetchWord 32 0x102))).errInfo = 0x102#32 := by decide

/-- V-E10: the capacity check, through `withFetchWord`. -/
theorem test_payload_too_large :
    csrRead .errCode (after (step ((block 32#8 0#2 0#1 8#16 5#32).withFetchWord 32 2))) = 1#32 ∧
    (after (step ((block 32#8 0#2 0#1 8#16 5#32).withFetchWord 32 2))).errInfo = 4#32 := by decide

/-! ### Witnesses of the obligations' hypotheses -/

theorem witness_DecodingIsAnExactMatch : (5#32 : Word) ≠ 1#32 ∧ (5#32 : Word) ≠ 2#32 ∧ (5#32 : Word) ≠ 3#32 ∧
    (5#32 : Word) ≠ 4#32 := by decide

theorem witness_DecodeAndEncodeAgree : Instr.wellFormed .index = true := rfl

theorem witness_EngineTurnRunsTheDecodedCommand : EngineTurn (accepted .embed vE1) (accepted .embed vE1) ∧
    (accepted .embed vE1).phase ≠ .idle ∧ decode (accepted .embed vE1).opw = .command .embed :=
  ⟨.inl ⟨rfl, rfl⟩, by decide, by decide⟩

theorem witness_PlacedCommandRunsNext : decodeTableWord 32 4 = some .index := by decide

theorem witness_IdleEngineWaits : EngineTurn { vE1 with schedule := [.engine] } vE1 ∧ vE1.phase = .idle :=
  ⟨.inr ⟨[], rfl, rfl⟩, rfl⟩

theorem witness_EveryIdleCommandWriteIsAccepted :
    ({ vE1 with schedule := [.bus (memWrite 0x08#32 5#32), .engine] } : State).phase = .idle ∧
    ({ vE1 with schedule := [.bus (memWrite 0x08#32 5#32), .engine] } : State).schedule =
      .bus (memWrite 0x08#32 5#32) :: .engine :: [] := ⟨rfl, rfl⟩

theorem witness_AcceptanceStartsTheOperation : vE1.phase = .idle ∧ (accepted .cap vE1).phase ≠ .idle := by decide

theorem witness_CapComputesTheCapacity :
    ((accepted .cap vE1).phase = .check ∧ (accepted .cap vE1).cfg.bitDepth.toNat = 8 * 4) ∧
    (accepted .cap (block 8#8 0#2 0#1 8#16 0#32)).cfg.bitDepth.toNat = 8 * 1 ∧
    (accepted .cap (block 33#8 0#2 0#1 8#16 0#32)).phase = .check ∧
    (accepted .cap (block 33#8 0#2 0#1 8#16 0#32)).cfg.bitDepth.toNat ∉ [8, 16, 24, 32] := by decide

theorem witness_IndexMapsTheBitIndex :
    ((accepted .index vE3).phase = .check ∧ (accepted .index vE3).cfg.bitDepth.toNat = 8 * 3) ∧
    (accepted .index (block 0#8 0#2 0#1 8#16 0#32)).phase = .check ∧
    (accepted .index (block 0#8 0#2 0#1 8#16 0#32)).cfg.bitDepth.toNat ∉ [8, 16, 24, 32] := by decide

theorem transferable_vE1 : Transferable 4 (accepted .embed vE1) := ⟨by decide, by decide, by decide, by decide⟩

theorem transferable_full : Transferable 4 (accepted .embed (block 32#8 2#2 0#1 8#16 4#32)) :=
  ⟨by decide, by decide, by decide, by decide⟩

theorem transferable_empty : Transferable 1 (accepted .embed (block 8#8 2#2 0#1 0#16 0#32)) :=
  ⟨by decide, by decide, by decide, by decide⟩

theorem witness_EmbedCheckPasses :
    ((accepted .embed (block 32#8 2#2 0#1 8#16 4#32)).phase = .check ∧
      Transferable 4 (accepted .embed (block 32#8 2#2 0#1 8#16 4#32))) ∧
    (accepted .embed (block 8#8 2#2 0#1 0#16 0#32)).phase = .check ∧
      Transferable 1 (accepted .embed (block 8#8 2#2 0#1 0#16 0#32)) :=
  ⟨⟨rfl, transferable_full⟩, rfl, transferable_empty⟩

/-- 8 bytes in a PAYMEM of 4: the geometry fits PIXMEM and the payload fits the capacity. -/
def tooLong : State := { block 32#8 0#2 0#1 16#16 8#32 with params := ⟨15, 0⟩ }

/-- One state per clause, each at the edge of its check: BIT_DEPTH 12, 17 pixels in 16 words, 5 bytes in a capacity of 4, 8 bytes in a
PAYMEM of 4. -/
theorem witness_EmbedRaisesTheFirstError :
    ((accepted .embed (block 12#8 0#2 0#1 8#16 0#32)).phase = .check ∧
      (accepted .embed (block 12#8 0#2 0#1 8#16 0#32)).cfg.bitDepth.toNat ∉ [8, 16, 24, 32]) ∧
    ((accepted .embed (block 8#8 0#2 0#1 17#16 0#32)).cfg.bitDepth.toNat = 8 * 1 ∧
      (accepted .embed (block 8#8 0#2 0#1 17#16 0#32)).params.pixDepth < 17 * 1) ∧
    ((accepted .embed (block 32#8 0#2 0#1 8#16 5#32)).cfg.bitDepth.toNat = 8 * 4 ∧
      8 * 1 ≤ (accepted .embed (block 32#8 0#2 0#1 8#16 5#32)).params.pixDepth ∧
      8 * 1 * 4 / 8 < (accepted .embed (block 32#8 0#2 0#1 8#16 5#32)).length.toNat) ∧
    ((accepted .embed tooLong).cfg.bitDepth.toNat = 8 * 4 ∧ 16 * 1 ≤ (accepted .embed tooLong).params.pixDepth ∧
      (accepted .embed tooLong).length.toNat ≤ 16 * 1 * 4 / 8 ∧
      (accepted .embed tooLong).params.payDepth < (accepted .embed tooLong).length.toNat) := by decide

/-- The partial last pixel of V-E3. -/
theorem witness_EmbedRunStepWritesOnePixel :
    (running .embed 6#32 vE3).phase = .run ∧ (running .embed 6#32 vE3).cfg.bitDepth.toNat = 8 * 3 ∧
    6 < 8 * (running .embed 6#32 vE3).length.toNat ∧ 6 % 3 = 0 ∧ 6 / 3 < (running .embed 6#32 vE3).params.pixDepth ∧
    (running .embed 6#32 vE3).length.toNat ≤ (running .embed 6#32 vE3).params.payDepth ∧ 2 = min 3 (8 - 6) := by decide

theorem witness_EmbedFinishCompletes : ({ running .embed 8#32 vE1 with phase := .finish } : State).phase = .finish := rfl

theorem accepted_vE1 : Accepted .embed (accepted .embed vE1) := ⟨rfl, rfl, rfl, ⟨rfl, rfl, rfl, rfl⟩, rfl, rfl⟩

theorem witness_EmbedReachesItsClosedForm : Accepted .embed (accepted .embed vE1) ∧ Transferable 4 (accepted .embed vE1) :=
  ⟨accepted_vE1, transferable_vE1⟩

/-- V-E1's run, at its first pixel: an EMBED in RUN that meets the invariant. -/
def embedRun : State := after (step (accepted .embed vE1))

theorem inv_embedRun : Inv embedRun where
  memory := fun id => by cases id <;> exact ⟨by decide, by decide⟩
  capacity := by decide
  cursor := by decide
  lane := by decide
  code := by decide
  info := by decide
  errFlag := by decide
  engine := ⟨⟨by decide, by decide, by decide, by decide⟩, .inl ⟨by decide, by decide⟩, 4,
    ⟨by decide, by decide, by decide, by decide, by decide⟩, by decide, by decide⟩

theorem inv_accepted_vE1 : Inv (accepted .embed vE1) where
  memory := fun id => by cases id <;> exact ⟨by decide, by decide⟩
  capacity := by decide
  cursor := by decide
  lane := by decide
  code := by decide
  info := by decide
  errFlag := by decide
  engine := ⟨⟨by decide, by decide, by decide, by decide⟩, by decide, by decide⟩

theorem witness_EmbedProgressSurvivesTheHost :
    Inv embedRun ∧ embedRun.phase ≠ .idle ∧ embedRun.opw = encode .embed ∧ byteWidth? embedRun.cfg.bitDepth = some 4 ∧
    NoResetNext embedRun ∧ step embedRun = .next (after (step embedRun)) ∧
    EmbedProgress 4 (fun p => readWord .pix p embedRun) embedRun := by
  refine ⟨inv_embedRun, by decide, by decide, by decide, fun es h => ?_, next_after _ (by decide), fun p _ => ?_⟩
  · cases h
  · rw [if_neg (by rw [show embedRun.r.toNat = 0 by decide]; omega)]

theorem witness_BitsOutsideThePayloadLanesStay :
    EngineTurn (running .embed 6#32 vE3) (running .embed 6#32 vE3) ∧
    step (running .embed 6#32 vE3) = .next (after (step (running .embed 6#32 vE3))) ∧
    byteWidth? (running .embed 6#32 vE3).cfg.bitDepth = some 3 ∧
    payloadBits (running .embed 6#32 vE3) ≤ 2 * 3 + 2 :=
  ⟨.inl ⟨rfl, rfl⟩, next_after _ (by decide), by decide, by decide⟩

theorem witness_SecondEmbeddingKeepsOrRestores : vE1.cfg.mode = 0#1 ∧ vE2.cfg.mode = 1#1 := by decide

theorem transferable_extract : Transferable 4 (accepted .extract vE1) := ⟨by decide, by decide, by decide, by decide⟩

theorem accepted_extract : Accepted .extract (accepted .extract vE1) := ⟨rfl, rfl, rfl, ⟨rfl, rfl, rfl, rfl⟩, rfl, rfl⟩

theorem witness_ExtractCheckPasses : (accepted .extract vE1).phase = .check ∧ (accepted .extract vE1).cfg.enc ≠ 3#2 ∧
    Transferable 4 (accepted .extract vE1) := ⟨rfl, by decide, transferable_extract⟩

/-- One state per clause, as for EMBED, and V-X11's reserved encoding. -/
theorem witness_ExtractRaisesTheFirstError :
    ((accepted .extract (block 24#8 3#2 0#1 8#16 0#32)).phase = .check ∧
      (accepted .extract (block 24#8 3#2 0#1 8#16 0#32)).cfg.enc = 3#2) ∧
    ((accepted .extract (block 12#8 0#2 0#1 8#16 0#32)).cfg.enc ≠ 3#2 ∧
      (accepted .extract (block 12#8 0#2 0#1 8#16 0#32)).cfg.bitDepth.toNat ∉ [8, 16, 24, 32]) ∧
    ((accepted .extract (block 8#8 0#2 0#1 17#16 0#32)).cfg.bitDepth.toNat = 8 * 1 ∧
      (accepted .extract (block 8#8 0#2 0#1 17#16 0#32)).params.pixDepth < 17 * 1) ∧
    ((accepted .extract (block 32#8 0#2 0#1 8#16 5#32)).cfg.bitDepth.toNat = 8 * 4 ∧
      8 * 1 ≤ (accepted .extract (block 32#8 0#2 0#1 8#16 5#32)).params.pixDepth ∧
      8 * 1 * 4 / 8 < (accepted .extract (block 32#8 0#2 0#1 8#16 5#32)).length.toNat) ∧
    ((accepted .extract tooLong).cfg.enc ≠ 3#2 ∧ 16 * 1 ≤ (accepted .extract tooLong).params.pixDepth ∧
      (accepted .extract tooLong).length.toNat ≤ 16 * 1 * 4 / 8 ∧
      (accepted .extract tooLong).params.payDepth < (accepted .extract tooLong).length.toNat) := by decide

/-- V-X2's last pixel completes byte 0 with lane 1 (bit 7); its first pixel completes none. -/
theorem witness_ExtractRunStepShiftsOnePixelIn :
    ((running .extract 6#32 vE3).phase = .run ∧ 6 < 8 * (running .extract 6#32 vE3).length.toNat ∧ 6 % 3 = 0 ∧
      6 / 3 < (running .extract 6#32 vE3).params.pixDepth ∧ 1 < min 3 (8 - 6) ∧ (6 + 1) % 8 = 7) ∧
    (running .extract 0#32 vE3).length.toNat ≤ (running .extract 0#32 vE3).params.payDepth ∧
    (∀ L, L < min 3 (8 - 0) → (0 + L) % 8 ≠ 7) := by decide

/-- V-E1's payload extracted, under the encoding `enc`. -/
def extractDone (enc : BitVec 2) : State :=
  { running .extract 8#32 vE1 with phase := .finish, cfg := ⟨32#8, enc, 0#1⟩ }

/-- 0x41 under ASCII_7 is well formed; one byte under UTF_16 is not. -/
theorem witness_ExtractFinishValidates :
    ((extractDone 2#2).phase = .finish ∧ encodingOf (extractDone 2#2).cfg.enc = some .ascii7 ∧
      (extractDone 2#2).length.toNat ≤ (extractDone 2#2).params.payDepth ∧
      payload (extractDone 2#2) = [0x41#8] ∧ validate .ascii7 [0x41#8] = none) ∧
    encodingOf (extractDone 0#2).cfg.enc = some .utf16 ∧ payload (extractDone 0#2) = [0x41#8] ∧
      validate .utf16 [0x41#8] = some 1 := by decide

theorem witness_ExtractReachesItsClosedForm : Accepted .extract (accepted .extract vE1) ∧
    Transferable 4 (accepted .extract vE1) ∧ encodingOf (accepted .extract vE1).cfg.enc = some .ascii7 :=
  ⟨accepted_extract, transferable_extract, by decide⟩

/-- V-E1's image being extracted, at its first pixel. -/
def extractRun : State := after (step (accepted .extract vE1))

theorem inv_extractRun : Inv extractRun where
  memory := fun id => by cases id <;> exact ⟨by decide, by decide⟩
  capacity := by decide
  cursor := by decide
  lane := by decide
  code := by decide
  info := by decide
  errFlag := by decide
  engine := ⟨⟨by decide, by decide, by decide, by decide⟩, .inr ⟨by decide, by decide, by decide⟩, 4,
    ⟨by decide, by decide, by decide, by decide, by decide⟩, by decide, by decide⟩

theorem witness_ExtractProgressSurvivesTheHost :
    Inv extractRun ∧ extractRun.phase ≠ .idle ∧ extractRun.opw = encode .extract ∧
    byteWidth? extractRun.cfg.bitDepth = some 4 ∧ NoResetNext extractRun ∧
    step extractRun = .next (after (step extractRun)) ∧
    ExtractProgress 4 (fun j => readByte .pay j extractRun) extractRun := by
  have hr : extractRun.r.toNat = 0 := by decide
  refine ⟨inv_extractRun, by decide, by decide, by decide, fun es h => ?_, next_after _ (by decide), ?_⟩
  · cases h
  · refine ⟨fun j hj => ?_, fun _ _ => rfl, fun t ht => ?_⟩
    · rw [hr] at hj; omega
    · rw [hr] at ht; omega

/-- V-E1 embedded, then EXTRACT accepted on the result. -/
def replaceDone : State := after (runSteps 4 (accepted .embed vE1))

theorem touched_vE1 : touchedPixels 4 (accepted .embed vE1) = 2 := by decide

theorem witness_RoundTripInReplaceMode :
    Accepted .embed (accepted .embed vE1) ∧ Transferable 4 (accepted .embed vE1) ∧
    (accepted .embed vE1).cfg.mode = 0#1 ∧
    runSteps (2 + touchedPixels 4 (accepted .embed vE1)) (accepted .embed vE1) = .next replaceDone ∧
    Accepted .extract (accepted .extract replaceDone) ∧
    encodingOf (accepted .extract replaceDone).cfg.enc = some .ascii7 ∧
    (accepted .extract replaceDone).cfg.bitDepth = (accepted .embed vE1).cfg.bitDepth ∧
    (accepted .extract replaceDone).cfg.mode = (accepted .embed vE1).cfg.mode ∧
    (accepted .extract replaceDone).geom = (accepted .embed vE1).geom ∧
    (accepted .extract replaceDone).length = (accepted .embed vE1).length ∧
    (accepted .extract replaceDone).params = (accepted .embed vE1).params ∧
    ∀ p, readWord .pix p (accepted .extract replaceDone) = readWord .pix p replaceDone :=
  ⟨accepted_vE1, transferable_vE1, by decide, next_after _ (by decide),
    ⟨by decide, by decide, by decide, ⟨by decide, by decide, by decide, by decide⟩, by decide, by decide⟩, by decide, by decide,
    by decide, by decide, by decide, by decide, fun _ => rfl⟩

/-- V-E2 embedded, then EXTRACT accepted on the result; REFMEM holds the original. -/
def xorDone : State := after (runSteps 4 (accepted .embed vE2))

theorem witness_RoundTripInXorSourceMode :
    Accepted .embed (accepted .embed vE2) ∧ Transferable 4 (accepted .embed vE2) ∧
    (accepted .embed vE2).cfg.mode = 1#1 ∧
    runSteps (2 + touchedPixels 4 (accepted .embed vE2)) (accepted .embed vE2) = .next xorDone ∧
    Accepted .extract (accepted .extract xorDone) ∧ encodingOf (accepted .extract xorDone).cfg.enc ≠ none ∧
    (accepted .extract xorDone).cfg.bitDepth = (accepted .embed vE2).cfg.bitDepth ∧
    (accepted .extract xorDone).cfg.mode = (accepted .embed vE2).cfg.mode ∧
    (accepted .extract xorDone).geom = (accepted .embed vE2).geom ∧
    (accepted .extract xorDone).length = (accepted .embed vE2).length ∧
    (accepted .extract xorDone).params = (accepted .embed vE2).params ∧
    (∀ p, readWord .pix p (accepted .extract xorDone) = readWord .pix p xorDone) ∧
    ∀ p, p < touchedPixels 4 (accepted .embed vE2) →
      readWord .ref p (accepted .extract xorDone) = readWord .pix p (accepted .embed vE2) :=
  ⟨⟨rfl, rfl, rfl, ⟨rfl, rfl, rfl, rfl⟩, rfl, rfl⟩, ⟨by decide, by decide, by decide, by decide⟩, by decide,
    next_after _ (by decide),
    ⟨by decide, by decide, by decide, ⟨by decide, by decide, by decide, by decide⟩, by decide, by decide⟩, by decide, by decide,
    by decide, by decide, by decide, by decide, fun _ => rfl, by decide⟩

/-- The same with a REFMEM of zeros (V-X6). -/
theorem witness_WrongReferenceFlipsRecoveredBits :
    Accepted .extract { accepted .extract xorDone with refmem := [] } ∧
    encodingOf ({ accepted .extract xorDone with refmem := [] } : State).cfg.enc ≠ none ∧
    ({ accepted .extract xorDone with refmem := [] } : State).params = (accepted .embed vE2).params ∧
    ∀ p, readWord .pix p { accepted .extract xorDone with refmem := [] } = readWord .pix p xorDone :=
  ⟨⟨by decide, by decide, by decide, ⟨by decide, by decide, by decide, by decide⟩, by decide, by decide⟩, by decide, by decide,
    fun _ => rfl⟩

theorem witness_CapacityStaysInTheImage : 1 ≤ 4 ∧ 4 ≤ 4 ∧ 3 < 8 * capacityOf (pixelCount ⟨8#16, 1#16⟩) 4 := by decide

theorem witness_Utf16AndAscii7Verdicts : ([0x41#8] : List Byte).length % 2 = 1 := rfl

theorem witness_EmptyPayloadCompletes :
    ({ running .extract 0#32 (block 32#8 1#2 0#1 8#16 0#32) with phase := .finish } : State).phase = .finish ∧
    encodingOf (block 32#8 1#2 0#1 8#16 0#32).cfg.enc = some .utf8 ∧ (block 32#8 1#2 0#1 8#16 0#32).length = 0#32 := by decide

/-- Each way to be answered SLVERR, at the edges, and the last offsets that are not. -/
theorem witness_BadTransactionsAnswerSlverr :
    (busStep ⟨.read, 0#32, 2, 0#32⟩ vE1).resp = some .slverr ∧ (busStep (memRead 2#32) vE1).resp = some .slverr ∧
    (busStep (memWrite 0x1000#32 0#32) vE1).resp = some .slverr ∧ (busStep (memRead 0x0FFFFFFC#32) vE1).resp = some .slverr ∧
    (busStep (memRead 0x20000040#32) vE1).resp = some .slverr ∧ (busStep (memRead 0x2FFFFFFC#32) vE1).resp = some .slverr ∧
    (busStep (memRead 0x30000008#32) vE1).resp = some .slverr ∧ (busStep (memRead 0xFFFFFFFC#32) vE1).resp = some .slverr ∧
    (busStep (memWrite 0xFFC#32 0#32) vE1).resp = some .writeOkay ∧
    (busStep (memWrite 0x1000003C#32 0#32) vE1).resp = some .writeOkay ∧
    (busStep (memWrite 0x30000004#32 0#32) vE1).resp = some .writeOkay ∧
    (busStep (memRead 0x40#32) vE1).resp = some (.readOkay 8#32) := by decide

theorem witness_ReadsHaveNoSideEffect : (memRead 0x0C#32).kind = .read := rfl

theorem witness_IdleConfigurationWritesAreStored : vE1.phase = .idle := rfl

theorem witness_ReservedAndReadOnlyWritesAreIgnored :
    ((0x44#32 : Word).toNat % 4 = 0 ∧ 0x44 ≤ (0x44#32 : Word).toNat ∧ (0xFFC#32 : Word).toNat % 4 = 0 ∧
      (0xFFC#32 : Word).toNat ≤ 0xFFC) ∧
    (0x40#32 : Word).toNat ∈ [0x00, 0x04, 0x20, 0x24, 0x28, 0x2C, 0x34, 0x38, 0x3C, 0x40] := by decide

/-- The last word of each window, and a guarded register. -/
theorem witness_BusyWritesAreDropped : (accepted .embed vE1).phase ≠ .idle ∧
    GuardedOffset (accepted .embed vE1).params (0x30#32 : Word).toNat ∧
    GuardedOffset (accepted .embed vE1).params (0x1000003C#32 : Word).toNat ∧
    GuardedOffset (accepted .embed vE1).params (0x2000003C#32 : Word).toNat ∧
    GuardedOffset (accepted .embed vE1).params (0x30000004#32 : Word).toNat :=
  ⟨by decide, .inl (by decide), .inr (.inl (by decide)), .inr (.inr (.inl (by decide))), .inr (.inr (.inr (by decide)))⟩

/-- The last word of each window. -/
theorem witness_WindowWritesAreReadBack : vE1.phase = .idle ∧ 15 < vE1.params.pixDepth ∧
    (0x1000003C#32 : Word).toNat = 0x10000000 + 4 * 15 ∧ (0x2000003C#32 : Word).toNat = 0x20000000 + 4 * 15 := by decide

theorem witness_PayWindowIsLittleEndian : 1 < vE1.params.payDepth / 4 ∧ vE1.phase = .idle ∧
    (0x30000004#32 : Word).toNat = 0x30000000 + 4 * 1 := by decide

theorem witness_RepeatedTransactionsAreIdempotent : (memWrite 0x10000000#32 1#32).off ≠ 0x08#32 := by decide

/-- DONE is waited for: not set, and set. -/
theorem witness_PollRepeatsUntilTheDataMatches :
    ((busStep (memRead 0x0C#32) vE1).resp = some (.readOkay 0#32) ∧ (0#32 : Word) &&& 2#32 ≠ 2#32) ∧
    (busStep (memRead 0x0C#32) { vE1 with status := ⟨true, false, false⟩ }).resp = some (.readOkay 2#32) ∧
    (2#32 : Word) &&& 2#32 = 2#32 := by decide

theorem witness_PseudoStatementsExpand : (HostStmt.setcfg 255 3 1).wellFormed = true ∧
    (HostStmt.setgeom 65535 65535).wellFormed = true ∧
    ((HostStmt.loadpix 67108862 [1#32, 2#32]).wellFormed = true ∧ [1#32, 2#32][1]? = some 2#32) ∧
    (HostStmt.loadref 67108862 [1#32, 2#32]).wellFormed = true ∧
    (HostStmt.loadpay [1#8, 2#8, 3#8, 4#8, 5#8]).wellFormed = true ∧
    1 < ([1#8, 2#8, 3#8, 4#8, 5#8].length + 3) / 4 := by decide

/-- 30_encoding.md R130: five bytes are two words, the second with its high bytes 0. -/
theorem test_loadpay : encodeProgram [.loadpay [0x41#8, 0x42#8, 0x43#8, 0x44#8, 0x45#8]] =
    [memWrite 0x30000000#32 0x44434241#32, memWrite 0x30000004#32 0x00000045#32] := by decide

/-- Two engine turns between the two statements. -/
theorem witness_LoadedProgramsInterleaveFreely :
    (loadProgram [0, 2] [.cmd .cap, .wait] State.reset).schedule =
      [.bus (memWrite 0x08#32 1#32), .engine, .engine, .poll 0x0C#32 2#32 2#32] ∧
    [.engine, .bus (memWrite 0x08#32 1#32), .engine].filter (fun e => decide (e ≠ Event.engine)) =
      (expandAll [.cmd .cap]).map BaseStmt.event := by decide

theorem witness_ResetClearsRegistersAndKeepsMemories :
    ({ running .embed 4#32 vE1 with schedule := [.reset] } : State).schedule = .reset :: [] := rfl

theorem witness_StepKeepsTheInvariant : Inv embedRun ∧ step embedRun = .next (after (step embedRun)) :=
  ⟨inv_embedRun, next_after _ (by decide)⟩

theorem witness_NoStepIsStuck : Inv embedRun := inv_embedRun

theorem witness_PhaseTransitionsAreTheTable : Inv (accepted .embed vE1) ∧ NoResetNext (accepted .embed vE1) ∧
    step (accepted .embed vE1) = .next embedRun :=
  ⟨inv_accepted_vE1, fun es h => (by cases h), next_after _ (by decide)⟩

theorem witness_OperandsAreStableWhileBusy : embedRun.phase ≠ .idle ∧ NoResetNext embedRun ∧
    step embedRun = .next (after (step embedRun)) :=
  ⟨by decide, fun es h => (by cases h), next_after _ (by decide)⟩

theorem witness_EngineWritesOnlyItsMemory :
    (EngineTurn embedRun embedRun ∧ step embedRun = .next (after (step embedRun)) ∧ embedRun.opw ≠ encode .extract) ∧
    EngineTurn extractRun extractRun ∧ step extractRun = .next (after (step extractRun)) ∧
      extractRun.opw ≠ encode .embed :=
  ⟨⟨.inl ⟨by decide, rfl⟩, next_after _ (by decide), by decide⟩, .inl ⟨by decide, rfl⟩, next_after _ (by decide), by decide⟩

theorem witness_CheckErrorsLeaveMemoriesAlone : Inv (accepted .embed vE1) ∧
    EngineTurn (accepted .embed vE1) (accepted .embed vE1) ∧ (accepted .embed vE1).phase = .check ∧
    step (accepted .embed vE1) = .next embedRun :=
  ⟨inv_accepted_vE1, .inl ⟨rfl, rfl⟩, rfl, next_after _ (by decide)⟩

/-- V-E1 in FINISH. -/
def embedFinish : State := after (runSteps 3 (accepted .embed vE1))

theorem inv_embedFinish : Inv embedFinish where
  memory := fun id => by cases id <;> exact ⟨by decide, by decide⟩
  capacity := by decide
  cursor := by decide
  lane := by decide
  code := by decide
  info := by decide
  errFlag := by decide
  engine := ⟨⟨by decide, by decide, by decide, by decide⟩, .inl ⟨by decide, by decide⟩, 4,
    ⟨by decide, by decide, by decide, by decide, by decide⟩, by decide⟩

theorem witness_EveryCompletionIsReported : Inv embedFinish ∧ EngineTurn embedFinish embedFinish ∧
    embedFinish.phase ≠ .idle ∧ step embedFinish = .next replaceDone ∧ replaceDone.phase = .idle :=
  ⟨inv_embedFinish, .inl ⟨by decide, rfl⟩, by decide, next_after _ (by decide), by decide⟩

/-- HAZ set by a dropped write, cleared by a write of 1, and cleared by a reset. -/
theorem witness_HazIsSticky :
    ((after (step { accepted .cap vE1 with schedule := [.bus (memWrite 0x1C#32 0#32)] })).status.haz = true ∧
      (accepted .cap vE1).status.haz = false) ∧
    (after (step { vE1 with
      status := ⟨false, false, true⟩
      schedule := [.bus (memWrite 0x0C#32 8#32)] })).status.haz = false ∧
    (after (step { vE1 with status := ⟨false, false, true⟩, schedule := [.reset] })).status.haz = false := by decide

theorem witness_EveryOperationEnds : Inv (accepted .embed vE1) ∧ (accepted .embed vE1).schedule = [] ∧
    (accepted .embed vE1).phase ≠ .idle := ⟨inv_accepted_vE1, rfl, by decide⟩

end Sys2Proof.Tests
end

section
/-! The CSR block as the host writes it (spec/10_state.md R35 to R55): read-only registers and reserved offsets ignore a write, and
`irq` follows the flags and their enables. -/

namespace Sys2Proof.Machine

/-! ### Writes of registers through the bus -/

theorem busStep_memWrite_csr (c : Csr) (off v : Word) (s : State) (h : off.toNat = csrOffset c) :
    busStep (memWrite off v) s = respond .writeOkay (acceptedWrite (.csr c) v s) :=
  busStep_memWrite s off v (.csr c) (busTarget_csr s.params .write off v c h)

/-- A write of a register that BUSY does not guard acts in every state (20_memory.md R95). -/
theorem busStep_memWrite_csr_open (c : Csr) (off v : Word) (s : State) (h : off.toNat = csrOffset c)
    (hopen : csrGuarded c = false) : busStep (memWrite off v) s = respond .writeOkay (csrWrite c v s) := by
  rw [busStep_memWrite_csr c off v s h, acceptedWrite_open (.csr c) v s hopen]
  rfl

/-! ### Read-only registers and reserved offsets -/

/-- The read-only registers (10_state.md R54). -/
def readOnlyCsrs : List Csr :=
  [.id, .version, .capacity, .errCode, .errInfo, .bitcnt, .idxPixel, .idxLane, .pixDepth, .payDepth]

theorem readOnlyCsrs_offsets :
    readOnlyCsrs.map csrOffset = [0x00, 0x04, 0x20, 0x24, 0x28, 0x2C, 0x34, 0x38, 0x3C, 0x40] := rfl

theorem csrGuarded_readOnly (c : Csr) (hc : c ∈ readOnlyCsrs) : csrGuarded c = false := by
  revert c; decide

theorem csrWrite_readOnly (c : Csr) (hc : c ∈ readOnlyCsrs) (v : Word) (s : State) : csrWrite c v s = s := by
  simp only [readOnlyCsrs, List.mem_cons, List.not_mem_nil, or_false] at hc
  rcases hc with rfl | rfl | rfl | rfl | rfl | rfl | rfl | rfl | rfl | rfl <;> rfl

theorem busStep_memWrite_readOnly (c : Csr) (hc : c ∈ readOnlyCsrs) (off v : Word) (s : State)
    (h : off.toNat = csrOffset c) : busStep (memWrite off v) s = respond .writeOkay s := by
  rw [busStep_memWrite_csr_open c off v s h (csrGuarded_readOnly c hc), csrWrite_readOnly c hc v s]

theorem csrOffset_le (c : Csr) : csrOffset c ≤ 0x40 := by cases c <;> decide

/-- The offsets above the last register select nothing that is stored (10_state.md R53). -/
theorem addressMap_reserved (p : Params) (off : Nat) (hlo : 0x44 ≤ off) (hhi : off ≤ 0xFFC) :
    addressMap p off = some .reserved := by
  have hnone : csrAt off = none := Option.eq_none_iff_forall_ne_some.2 fun c hc => by
    have hoff := (csrAt_eq_some off c).1 hc
    have hle := csrOffset_le c
    omega
  unfold addressMap
  rw [if_pos (by omega), hnone]

theorem busTarget_reserved (p : Params) (kind : BusKind) (off w : Word) (h4 : off.toNat % 4 = 0)
    (hlo : 0x44 ≤ off.toNat) (hhi : off.toNat ≤ 0xFFC) : busTarget p ⟨kind, off, 4, w⟩ = some .reserved := by
  rw [busTarget_aligned p kind off w h4, addressMap_reserved p off.toNat hlo hhi]

theorem acceptedWrite_reserved (v : Word) (s : State) : acceptedWrite .reserved v s = s :=
  acceptedWrite_open .reserved v s rfl

/-- Settles O40: no reserved offset and no read-only register is guarded by BUSY, and the write of one leaves the state. -/
theorem reservedAndReadOnlyWritesAreIgnored : Obligations.ReservedAndReadOnlyWritesAreIgnored := by
  intro s off v h4
  refine ⟨fun ⟨hlo, hhi⟩ => ⟨?read, ?write⟩, fun hmem => ?readOnly⟩
  case read => exact busStep_memRead s off .reserved (busTarget_reserved s.params .read off 0#32 h4 hlo hhi)
  case write =>
    rw [busStep_memWrite s off v .reserved (busTarget_reserved s.params .write off v h4 hlo hhi), acceptedWrite_reserved]
    rfl
  case readOnly =>
    rw [← readOnlyCsrs_offsets] at hmem
    obtain ⟨c, hc, hoff⟩ := List.mem_map.1 hmem
    exact busStep_memWrite_readOnly c hc off v s hoff.symm

/-! ### The interrupt output -/

/-- 10_state.md R55, 60_exceptions.md R292. -/
theorem irq_iff (s : State) : irq s = true ↔
    (s.status.done = true ∧ s.irqEn.doneIe = true) ∨ (s.status.err = true ∧ s.irqEn.errIe = true) ∨
    (s.status.haz = true ∧ s.irqEn.hazIe = true) := by
  simp only [irq, Bool.or_eq_true, Bool.and_eq_true, or_assoc]

@[simp] theorem irq_respond (a : BusResp) (s : State) : irq (respond a s) = irq s := rfl

/-- A write of `IRQ_EN` sets the enables in every state (10_state.md R37). -/
theorem busStep_memWrite_irqEn (v : Word) (s : State) :
    busStep (memWrite 0x10#32 v) s = respond .writeOkay { s with irqEn := irqEnOfWord v } :=
  busStep_memWrite_csr_open .irqEn 0x10#32 v s rfl rfl

/-- A write of `STATUS` clears the flags written 1 in every state (10_state.md R36). -/
theorem busStep_memWrite_status (v : Word) (s : State) :
    busStep (memWrite 0x0C#32 v) s = respond .writeOkay { s with status := statusWrite1Clear v s.status } :=
  busStep_memWrite_csr_open .status 0x0C#32 v s rfl rfl

/-- Settles O45: `irq` is a function of the flags and the enables, and neither write is dropped while BUSY. -/
theorem irqFollowsFlagsAndEnables : Obligations.IrqFollowsFlagsAndEnables := by
  intro s v
  refine ⟨irq_iff s, ?enables, ?flags⟩
  case enables => rw [busStep_memWrite_irqEn, irq_respond, irq_iff]; rfl
  case flags =>
    rw [busStep_memWrite_status, irq_respond, irq_iff]
    simp only [statusWrite1Clear, Bool.and_eq_true, Bool.not_eq_true', and_assoc]

end Sys2Proof.Machine
end

section
/-! Host transactions (spec/20_memory.md R85 to R94): which ones are refused, and what a write of a guarded offset does while BUSY. -/

namespace Sys2Proof.Machine

/-! ### Refused transactions -/

theorem busTarget_none_iff (p : Params) (t : BusTxn) :
    busTarget p t = none ↔ t.size ≠ 4 ∨ t.off.toNat % 4 ≠ 0 ∨ addressMap p t.off.toNat = none := by
  unfold busTarget
  by_cases hsize : t.size = 4
  · by_cases halign : t.off.toNat % 4 = 0
    · simp [hsize, halign]
    · simp [halign]
  · simp [hsize]

/-- The transactions refused by 20_memory.md R86, R87 and R88, by the numbers of their offsets. -/
theorem busTarget_none_iff_offset (p : Params) (t : BusTxn) :
    busTarget p t = none ↔
      t.size ≠ 4 ∨ t.off.toNat % 4 ≠ 0 ∨
      (0x1000 ≤ t.off.toNat ∧ t.off.toNat < 0x10000000) ∨
      (0x10000000 + 4 * p.pixDepth ≤ t.off.toNat ∧ t.off.toNat < 0x20000000) ∨
      (0x20000000 + 4 * p.pixDepth ≤ t.off.toNat ∧ t.off.toNat < 0x30000000) ∨
      0x30000000 + p.payDepth ≤ t.off.toNat :=
  (busTarget_none_iff p t).trans <| or_congr_right <| or_congr_right' fun halign =>
    addressMap_none_iff p t.off.toNat t.off.isLt (not_not.1 halign)

/-- SLVERR is the answer to the transactions without a target and to no other. -/
theorem busStep_resp_slverr_iff (t : BusTxn) (s : State) :
    (busStep t s).resp = some .slverr ↔ busTarget s.params t = none := by
  rcases busStep_cases t s with ⟨hnone, e⟩ | ⟨g, hsome, -, e⟩ | ⟨g, hsome, -, e⟩
  · simp [e, hnone]
  · simp [e, hsome]
  · simp [e, hsome]

/-- A transaction answered SLVERR has no effect, and one without effect but that answer was refused. -/
theorem busStep_eq_slverr_iff (t : BusTxn) (s : State) :
    busStep t s = respond .slverr s ↔ busTarget s.params t = none :=
  ⟨fun e => (busStep_resp_slverr_iff t s).1 (by rw [e, respond_resp]), busStep_none t s⟩

/-- Settles O34: a transaction is refused exactly when it has no target, and one with a target is answered by its kind. -/
theorem badTransactionsAnswerSlverr : Obligations.BadTransactionsAnswerSlverr := by
  intro t s
  refine ⟨(busStep_eq_slverr_iff t s).trans (busTarget_none_iff_offset s.params t), fun hresp hkind => ?write,
    fun hresp hkind => ?read⟩
  case write =>
    rcases busStep_cases t s with ⟨hnone, -⟩ | ⟨g, -, hread, -⟩ | ⟨g, -, -, e⟩
    · exact absurd ((busStep_resp_slverr_iff t s).2 hnone) hresp
    · simp [hkind] at hread
    · rw [e, respond_resp]
  case read =>
    rcases busStep_cases t s with ⟨hnone, -⟩ | ⟨g, -, -, e⟩ | ⟨g, -, hwrite, -⟩
    · exact absurd ((busStep_resp_slverr_iff t s).2 hnone) hresp
    · exact ⟨targetRead g s, by rw [e, respond_resp]⟩
    · simp [hkind] at hwrite

/-! ### Writes while BUSY -/

/-- An aligned write of a guarded offset has a target, so it is accepted, and its target is guarded, so BUSY drops it. -/
theorem busStep_memWrite_dropped (s : State) (off v : Word) (hbusy : s.phase ≠ .idle) (h4 : off.toNat % 4 = 0)
    (hguard : GuardedOffset s.params off.toNat) : busStep (memWrite off v) s = respond .writeOkay (setHaz s) := by
  obtain ⟨g, hmap, hg⟩ := addressMap_of_guarded s.params off.toNat off.isLt h4 hguard
  have htarget : busTarget s.params (memWrite off v) = some g := (busTarget_aligned s.params .write off v h4).trans hmap
  rw [busStep_memWrite s off v g htarget, acceptedWrite_dropped g v s hbusy hg]

/-- Settles O41: `busStep_memWrite_dropped`, with the fields that `setHaz` and `respond` change written out. -/
theorem busyWritesAreDropped : Obligations.BusyWritesAreDropped :=
  busStep_memWrite_dropped

end Sys2Proof.Machine
end

section
/-! Decoding as an exact match (spec/30_encoding.md R123): the four command words as numbers, and every other word rejected. -/

namespace Sys2Proof.Machine

theorem encode_cap : encode .cap = 0x00000001#32 := rfl

theorem encode_embed : encode .embed = 0x00000002#32 := rfl

theorem encode_extract : encode .extract = 0x00000003#32 := rfl

theorem encode_index : encode .index = 0x00000004#32 := rfl

/-- The decoder is total, so a word that no command encodes to is rejected, with one of the names of R126. -/
theorem decode_illegal_of_ne_encode (w : Word) (hw : ∀ i, w ≠ encode i) : ∃ why, decode w = .illegal why := by
  cases hd : decode w with
  | command i => exact absurd ((decode_command_iff w i).1 hd) (hw i)
  | illegal why => exact ⟨why, rfl⟩

/-- Settles O1: a word decodes to a command exactly when it is that command's encoding (`decode_command_iff`), and the four
encodings are the words 1 to 4. -/
theorem decodingIsAnExactMatch : Obligations.DecodingIsAnExactMatch := by
  intro w
  rw [← encode_cap, ← encode_embed, ← encode_extract, ← encode_index]
  refine ⟨decode_command_iff w .cap, decode_command_iff w .embed, decode_command_iff w .extract,
    decode_command_iff w .index, fun hcap hembed hextract hindex => decode_illegal_of_ne_encode w fun i => ?_⟩
  cases i with
  | cap => exact hcap
  | embed => exact hembed
  | extract => exact hextract
  | index => exact hindex

end Sys2Proof.Machine
end

section
/-! CAP (spec/41_capacity.md R157): what its one engine step, CHECK, does for a legal and for an illegal BIT_DEPTH. -/

namespace Sys2Proof.Machine

theorem exec_cap_check (s : State) (hphase : s.phase = .check) : exec .cap s = .next (withByteWidth capBody s) := by
  simp only [exec, execCap, hphase]

theorem exec_cap_legalDepth (s : State) (bw : Nat) (hphase : s.phase = .check)
    (hdepth : byteWidth? s.cfg.bitDepth = some bw) : exec .cap s = .next (complete (writeCapacity bw s)) := by
  rw [exec_cap_check s hphase, withByteWidth_some capBody s bw hdepth, capBody]

theorem exec_cap_illegalDepth (s : State) (hphase : s.phase = .check) (hdepth : byteWidth? s.cfg.bitDepth = none) :
    exec .cap s = .next (raiseError .unsupportedChannelLayout (s.cfg.bitDepth.setWidth 32) s) := by
  rw [exec_cap_check s hphase, withByteWidth_none capBody s hdepth]

/-- Settles O9: a depth is legal exactly when it is `8 * bw` with `bw` from 1 to 4 (`byteWidth_eq_some`, `byteWidth_eq_none`),
and the capacity of any geometry fits its register (`capacityOf_toNat`). -/
theorem capComputesTheCapacity : Obligations.CapComputesTheCapacity := by
  refine ⟨encode_cap, fun s bw hphase hlo hhi hdepth => ⟨?legal, ?fits⟩, fun s hphase hdepth => ?illegal⟩
  case legal => exact exec_cap_legalDepth s bw hphase ((byteWidth_eq_some s.cfg.bitDepth bw).2 ⟨hlo, hhi, hdepth⟩)
  case fits => exact capacityOf_toNat s.geom bw hhi
  case illegal => exact exec_cap_illegalDepth s hphase ((byteWidth_eq_none s.cfg.bitDepth).2 hdepth)

end Sys2Proof.Machine
end

section
/-! INDEX (spec/42_embed.md R173): what its one engine step, CHECK, does for a legal and for an illegal BIT_DEPTH, and the three
fields it writes as numbers. -/

namespace Sys2Proof.Machine

/-! ### The step -/

theorem exec_index_check (s : State) (hphase : s.phase = .check) :
    exec .index s = .next (withByteWidth indexBody s) := by
  simp only [exec, execIndex, hphase]

theorem exec_index_legalDepth (s : State) (bw : Nat) (hphase : s.phase = .check)
    (hdepth : byteWidth? s.cfg.bitDepth = some bw) : exec .index s = .next (indexBody bw s) := by
  rw [exec_index_check s hphase, withByteWidth_some indexBody s bw hdepth]

theorem exec_index_illegalDepth (s : State) (hphase : s.phase = .check) (hdepth : byteWidth? s.cfg.bitDepth = none) :
    exec .index s = .next (raiseError .unsupportedChannelLayout (s.cfg.bitDepth.setWidth 32) s) := by
  rw [exec_index_check s hphase, withByteWidth_none indexBody s hdepth]

/-! ### The fields it writes -/

/-- Every 32-bit index has its pixel: the quotient is no larger than the index, so it fits the register. -/
theorem indexBody_idxPixel_toNat (bw : Nat) (s : State) :
    (indexBody bw s).idxPixel.toNat = s.idxIn.toNat / bw :=
  Nat.mod_eq_of_lt (Nat.lt_of_le_of_lt (Nat.div_le_self s.idxIn.toNat bw) s.idxIn.isLt)

theorem indexBody_lane_toNat (bw : Nat) (s : State) (hlo : 1 ≤ bw) (hhi : bw ≤ 4) :
    (indexBody bw s).idxLane.lane.toNat = s.idxIn.toNat % bw := by
  have hlane : s.idxIn.toNat % bw < bw := Nat.mod_lt _ hlo
  exact Nat.mod_eq_of_lt (show s.idxIn.toNat % bw < 2 ^ 8 by omega)

theorem indexBody_bitpos_toNat (bw : Nat) (s : State) (hhi : bw ≤ 4) :
    (indexBody bw s).idxLane.bitpos.toNat = bw - 1 - s.idxIn.toNat % bw :=
  Nat.mod_eq_of_lt (show bw - 1 - s.idxIn.toNat % bw < 2 ^ 8 by omega)

/-- `IDX_LANE` as a number: BITPOS above the eight bits of LANE (10_state.md R52). -/
theorem csrRead_idxLane_toNat (s : State) :
    (csrRead .idxLane s).toNat = 256 * s.idxLane.bitpos.toNat + s.idxLane.lane.toNat := by
  simp only [csrRead, idxLaneWord, append_toNat, BitVec.toNat_ofNat]
  omega

/-- Settles O10: a depth is legal exactly when it is `8 * bw` with `bw` from 1 to 4 (`byteWidth_eq_some`, `byteWidth_eq_none`), and
none of the three fields of a legal INDEX is truncated. -/
theorem indexMapsTheBitIndex : Obligations.IndexMapsTheBitIndex := by
  refine ⟨encode_index, fun s bw hphase hlo hhi hdepth => ?legal, fun s hphase hdepth => ?illegal⟩
  case legal =>
    have hpixel := indexBody_idxPixel_toNat bw s
    have hlane := indexBody_lane_toNat bw s hlo hhi
    have hbitpos := indexBody_bitpos_toNat bw s hhi
    have hword := csrRead_idxLane_toNat (indexBody bw s)
    rw [hlane, hbitpos] at hword
    exact ⟨indexBody bw s, exec_index_legalDepth s bw hphase ((byteWidth_eq_some s.cfg.bitDepth bw).2 ⟨hlo, hhi, hdepth⟩),
      rfl, hpixel, hlane, hbitpos, hword⟩
  case illegal => exact exec_index_illegalDepth s hphase ((byteWidth_eq_none s.cfg.bitDepth).2 hdepth)

end Sys2Proof.Machine
end

section
/-! EMBED's RUN and FINISH steps (spec/42_embed.md R181, R182): the pixel that a RUN step writes, bit by bit, and what it leaves. -/

namespace Sys2Proof.Machine

/-! ### The steps -/

theorem exec_embed_run (s : State) (hphase : s.phase = .run) : exec .embed s = runStep embedPixel s := by
  simp only [exec, execEmbed, hphase]

theorem exec_embed_finish (s : State) (hphase : s.phase = .finish) : exec .embed s = .next (complete s) := by
  simp only [exec, execEmbed, hphase]

/-- Settles O14: `exec_embed_finish`, with the fields that `complete` changes written out. -/
theorem embedFinishCompletes : Obligations.EmbedFinishCompletes :=
  exec_embed_finish

/-! ### The word a RUN step writes -/

/-- The bit of lane `L` is the payload bit at `r + L` (REPLACE), or is flipped by it (XOR_SOURCE). -/
theorem embeddedWord_getLsbD_lane (bw L : Nat) (s : State) (hbw : bw ≤ 32) (hL : L < stepLanes bw s) :
    (embeddedWord bw s).getLsbD (bw - 1 - L) =
      if s.cfg.mode = 1#1 then
        (readWord .pix (s.r.toNat / bw) s).getLsbD (bw - 1 - L) ^^ payloadBit s (s.r.toNat + L)
      else payloadBit s (s.r.toNat + L) := by
  have hle := stepLanes_le bw s
  have hpos : bw - 1 - (bw - 1 - L) = L := by omega
  rw [embeddedWord, combine_getLsbD _ _ _ _ _ _ _ hle hbw, hpos, if_pos ⟨by omega, hL⟩, modeOf]
  by_cases hmode : s.cfg.mode = 1#1
  · simp only [if_pos hmode]
  · simp only [if_neg hmode]

/-- A bit that is no lane of this step keeps its value (42_embed.md R185, R186). -/
theorem embeddedWord_getLsbD_other (bw j : Nat) (s : State) (hbw : bw ≤ 32)
    (hj : ¬ (j < bw ∧ bw - 1 - j < stepLanes bw s)) :
    (embeddedWord bw s).getLsbD j = (readWord .pix (s.r.toNat / bw) s).getLsbD j := by
  rw [embeddedWord, combine_getLsbD _ _ _ _ _ _ _ (stepLanes_le bw s) hbw, if_neg hj]

/-! ### The state a RUN step leaves -/

theorem readWord_embedPixel_cursor (bw : Nat) (s : State) :
    readWord .pix (s.r.toNat / bw) (embedPixel bw s) = embeddedWord bw s := by
  rw [readWord_embedPixel, if_pos rfl]

theorem readByte_embedPixel_other (bw a : Nat) (s : State)
    (ha : a < 4 * (s.r.toNat / bw) ∨ 4 * (s.r.toNat / bw) + 4 ≤ a) :
    readByte .pix a (embedPixel bw s) = readByte .pix a s := by
  rw [readByte_congr (embedPixel bw s) (writeWord .pix (s.r.toNat / bw) (embeddedWord bw s) s) .pix a rfl,
    readByte_writeWord, if_neg (by omega)]

/-- The cursor does not wrap: it stays within the payload, which fits PAYMEM. -/
theorem embedPixel_r_toNat (bw : Nat) (s : State) (hr : s.r.toNat < payloadBits s)
    (hlen : s.length.toNat ≤ s.params.payDepth) : (embedPixel bw s).r.toNat = s.r.toNat + stepLanes bw s :=
  (advanceCursor_toNat s bw hr hlen).1

theorem embedPixel_phase (bw : Nat) (s : State) :
    (embedPixel bw s).phase = if s.r.toNat + stepLanes bw s = payloadBits s then .finish else s.phase := rfl

/-- Settles O13: the entry invariant lets the RUN step write its pixel (`runStep_of_entry`), whose word is
`embeddedWord_getLsbD_lane` on the `k` lanes and `embeddedWord_getLsbD_other` elsewhere. -/
theorem embedRunStepWritesOnePixel : Obligations.EmbedRunStepWritesOnePixel := by
  rintro s bw n k p hphase hlo hhi hdepth rfl rfl rfl hr haligned hpixel hlen
  have hwidth := (byteWidth_eq_some s.cfg.bitDepth bw).2 ⟨hlo, hhi, hdepth⟩
  have hexec : exec .embed s = .next (embedPixel bw s) := by
    rw [exec_embed_run s hphase, runStep_of_entry embedPixel s bw hwidth hr haligned hpixel hlen]
  refine ⟨embedPixel bw s, hexec, rfl, embedPixel_r_toNat bw s hr hlen, ?phase,
    fun a => readByte_embedPixel_other bw a s, fun j hj => ?other, fun L i b hL hi hb => ?lane⟩
  case phase => rw [embedPixel_phase, hphase]; rfl
  case other => rw [readWord_embedPixel_cursor, embeddedWord_getLsbD_other bw j s (by omega) hj]
  case lane =>
    subst hi hb
    rw [readWord_embedPixel_cursor, embeddedWord_getLsbD_lane bw L s (by omega) hL]
    rfl

end Sys2Proof.Machine
end

section
/-! The bit unpacker (spec/43_extract.md R210, R211): it undoes `packBit`, in both directions. -/

namespace Sys2Proof.Machine

theorem unpack_packBit (x : Byte) : unpack (packBit x) = x := by
  refine BitVec.eq_of_getLsbD_eq fun m hm => ?_
  rw [unpack_getLsbD (packBit x) m hm, packBit]
  congr 1
  omega

theorem packBit_unpack (f : Nat → Bool) (t : Nat) (ht : t < 8) : packBit (unpack f) t = f t := by
  rw [packBit, unpack_getLsbD f (7 - t) (by omega)]
  congr 1
  omega

/-- Settles O29: the unpacker puts bit `t` at place `7 - t` (`unpack_getLsbD`), where the packer reads it. -/
theorem unpackInvertsPack : Obligations.UnpackInvertsPack :=
  ⟨unpack_packBit, packBit_unpack⟩

end Sys2Proof.Machine
end

section
/-! The UTF_16 and ASCII_7 verdicts (spec/43_extract.md R215, R218), and the verdict on the empty sequence (R219). -/

namespace Sys2Proof.Machine

theorem validateUtf16_eq_none_iff (B : List Byte) : validateUtf16 B = none ↔ B.length % 2 = 0 := by
  simp [validateUtf16]

theorem validateUtf16_of_odd (B : List Byte) (hodd : B.length % 2 = 1) : validateUtf16 B = some B.length :=
  if_neg (by omega)

theorem validateAscii7_eq_none_iff (B : List Byte) : validateAscii7 B = none ↔ ∀ b ∈ B, b.toNat ≤ 0x7F := by
  simp [validateAscii7, BitVec.le_def, Nat.lt_succ_iff]

theorem validateAscii7_eq_some_iff (B : List Byte) (k : Nat) :
    validateAscii7 B = some k ↔
      (∃ b, B[k]? = some b ∧ 0x80 ≤ b.toNat) ∧ ∀ j b, j < k → B[j]? = some b → b.toNat ≤ 0x7F := by
  rw [validateAscii7, List.findIdx?_eq_some_iff_getElem]
  constructor
  · rintro ⟨hk, hhigh, hlow⟩
    refine ⟨⟨B[k], List.getElem?_eq_getElem hk, by simpa [BitVec.le_def] using hhigh⟩, fun j b hj hb => ?_⟩
    obtain ⟨_, rfl⟩ := List.getElem?_eq_some_iff.1 hb
    simpa [BitVec.le_def, Nat.lt_succ_iff] using hlow j hj
  · rintro ⟨⟨b, hb, hhigh⟩, hlow⟩
    obtain ⟨hk, rfl⟩ := List.getElem?_eq_some_iff.1 hb
    refine ⟨hk, by simpa [BitVec.le_def] using hhigh, fun j hj => ?_⟩
    simpa [BitVec.le_def, Nat.lt_succ_iff] using hlow j _ hj (List.getElem?_eq_getElem (by omega))

/-- Settles O30: the two verdicts of each validator, UTF_16's from its parity test and ASCII_7's from the index search. -/
theorem utf16AndAscii7Verdicts : Obligations.Utf16AndAscii7Verdicts := fun B =>
  ⟨validateUtf16_eq_none_iff B, validateUtf16_of_odd B, validateAscii7_eq_none_iff B, validateAscii7_eq_some_iff B⟩

theorem validate_nil (enc : TextEncoding) : validate enc [] = none := by
  cases enc <;> rfl

end Sys2Proof.Machine
end

section
/-! UTF_8 (spec/43_extract.md R216, R217): the scan accepts exactly the sequences of the table, and answers what the rule's
indexed loop answers. -/

namespace Sys2Proof.Machine

/-! ### The scan's branches -/

theorem utf8Scan_lead_some (b : Byte) (bs : List Byte) (k : Nat) (owed : Ranges) (hrow : utf8Row b = some owed) :
    utf8Scan [] k (b :: bs) = utf8Scan owed (k + 1) bs := by
  simp only [utf8Scan, hrow]

theorem utf8Scan_lead_none (b : Byte) (bs : List Byte) (k : Nat) (hrow : utf8Row b = none) :
    utf8Scan [] k (b :: bs) = some k := by
  simp only [utf8Scan, hrow]

theorem utf8Scan_owed_inRange (r : Byte × Byte) (owed : Ranges) (b : Byte) (bs : List Byte) (k : Nat)
    (hb : inRange b r = true) : utf8Scan (r :: owed) k (b :: bs) = utf8Scan owed (k + 1) bs := by
  simp only [utf8Scan, hb, if_true]

theorem utf8Scan_owed_outOfRange (r : Byte × Byte) (owed : Ranges) (b : Byte) (bs : List Byte) (k : Nat)
    (hb : ¬ inRange b r = true) : utf8Scan (r :: owed) k (b :: bs) = some k := by
  simp only [utf8Scan, if_neg hb]

/-! ### The rows of the table -/

/-- The lead ranges are disjoint: a byte in a row's lead range selects that row and no other. -/
theorem leadRow?_of_mem_utf8Table :
    ∀ row ∈ utf8Table, ∀ b : Byte, (∃ r ∈ row.head?, InByteRange r b) → leadRow? b = some row.tail := by decide

theorem ne_nil_of_mem_utf8Table : ∀ row ∈ utf8Table, row ≠ [] := by decide

/-- The row that a lead byte selects stands in the table, its lead range before the ranges owed. -/
theorem exists_row_of_utf8Row (b : Byte) (owed : Ranges) (hrow : utf8Row b = some owed) :
    ∃ r, r :: rangesNat owed ∈ utf8Table ∧ InByteRange r b := by
  have hlead : leadRow? b = some (rangesNat owed) := by rw [← utf8Row_eq_leadRow?, hrow]; rfl
  obtain ⟨row, hfind, htail⟩ := Option.map_eq_some_iff.1 hlead
  have hmem := List.mem_of_find?_eq_some hfind
  cases row with
  | nil => exact absurd rfl (ne_nil_of_mem_utf8Table [] hmem)
  | cons r row =>
    obtain rfl : row = rangesNat owed := htail
    exact ⟨r, hmem, by simpa using List.find?_some hfind⟩

/-- The bytes of a row are a lead byte that selects it and the bytes it owes. -/
theorem lead_of_matchesRow (row : List (Nat × Nat)) (form : List Byte) (hmem : row ∈ utf8Table)
    (hform : MatchesRow row form) :
    ∃ b bs owed, form = b :: bs ∧ utf8Row b = some owed ∧ MatchesRow (rangesNat owed) bs := by
  cases row with
  | nil => exact absurd rfl (ne_nil_of_mem_utf8Table [] hmem)
  | cons r row =>
    cases form with
    | nil => cases hform
    | cons b bs =>
      obtain ⟨hb, hbs⟩ := hform
      have hlead := leadRow?_of_mem_utf8Table _ hmem b ⟨r, rfl, hb⟩
      rw [← utf8Row_eq_leadRow?] at hlead
      obtain ⟨owed, hrow, htail⟩ := Option.map_eq_some_iff.1 hlead
      exact ⟨b, bs, owed, rfl, hrow, htail ▸ hbs⟩

/-! ### The scan accepts exactly the table's sequences -/

/-- What a scan accepts begins with the bytes still owed, and goes on with whole rows of the table. -/
theorem utf8Scan_none_split (B : List Byte) : ∀ (owed : Ranges) (k : Nat), utf8Scan owed k B = none →
    ∃ form rest, B = form ++ rest ∧ MatchesRow (rangesNat owed) form ∧ WellFormedUtf8 rest := by
  induction B with
  | nil =>
    intro owed k h
    cases owed with
    | nil => exact ⟨[], [], rfl, rfl, .nil⟩
    | cons r owed => cases h
  | cons b B ih =>
    intro owed k h
    cases owed with
    | nil =>
      cases hrow : utf8Row b with
      | none => rw [utf8Scan_lead_none b B k hrow] at h; cases h
      | some owed =>
        rw [utf8Scan_lead_some b B k owed hrow] at h
        obtain ⟨form, rest, rfl, hform, hrest⟩ := ih owed (k + 1) h
        obtain ⟨r, hmem, hb⟩ := exists_row_of_utf8Row b owed hrow
        exact ⟨[], b :: (form ++ rest), rfl, rfl, .seq (r :: rangesNat owed) (b :: form) rest hmem ⟨hb, hform⟩ hrest⟩
    | cons r owed =>
      by_cases hb : inRange b r = true
      · rw [utf8Scan_owed_inRange r owed b B k hb] at h
        obtain ⟨form, rest, rfl, hform, hrest⟩ := ih owed (k + 1) h
        exact ⟨b :: form, rest, rfl, ⟨(inRange_iff b r).1 hb, hform⟩, hrest⟩
      · rw [utf8Scan_owed_outOfRange r owed b B k hb] at h; cases h

theorem utf8Scan_of_wellFormed (B : List Byte) (h : WellFormedUtf8 B) : ∀ k, utf8Scan [] k B = none := by
  induction h with
  | nil => intro k; rfl
  | seq row form rest hmem hform _ ih =>
    intro k
    obtain ⟨b, bs, owed, rfl, hrow, hbs⟩ := lead_of_matchesRow row form hmem hform
    rw [List.cons_append, utf8Scan_lead_some b (bs ++ rest) k owed hrow, utf8Scan_matchesRow owed bs rest (k + 1) hbs]
    exact ih _

/-- Settles O31: what the scan accepts splits into rows (`utf8Scan_none_split`, with nothing owed at the start), and it passes over
each row of a sequence that splits (`utf8Scan_matchesRow`). -/
theorem utf8AcceptsExactlyTheTable : Obligations.Utf8AcceptsExactlyTheTable := by
  refine fun B => ⟨fun h => ?split, fun h => utf8Scan_of_wellFormed B h 0⟩
  case split =>
    obtain ⟨form, rest, rfl, rfl, hrest⟩ := utf8Scan_none_split B [] 0 h
    exact hrest

/-! ### The scan is the indexed loop -/

theorem drop_eq_cons_of_getElem? (B : List Byte) (k : Nat) (b : Byte) (hb : B[k]? = some b) :
    B.drop k = b :: B.drop (k + 1) := by
  rw [List.drop_eq_getElem?_toList_append, hb]
  rfl

/-- The scan from inside a form is the inner loop over the ranges owed, then the scan from the form's end. -/
theorem utf8Scan_drop_owed (B : List Byte) (k : Nat) (owed : Ranges) : ∀ j, k + j ≤ B.length →
    utf8Scan owed (k + j) (B.drop (k + j)) =
      (utf8Inner B k j (rangesNat owed)).or
        (utf8Scan [] (k + j + owed.length) (B.drop (k + j + owed.length))) := by
  induction owed with
  | nil => intro j _; rfl
  | cons r owed ih =>
    intro j hj
    rw [show rangesNat (r :: owed) = (r.1.toNat, r.2.toNat) :: rangesNat owed from rfl]
    cases hb : B[k + j]? with
    | none =>
      have hend : B.length ≤ k + j := List.getElem?_eq_none_iff.1 hb
      have hlen : k + j = B.length := by omega
      simp [utf8Inner, hlen, utf8Scan]
    | some b =>
      have hlt : k + j < B.length := (List.getElem?_eq_some_iff.1 hb).1
      rw [drop_eq_cons_of_getElem? B (k + j) b hb]
      by_cases hin : inRange b r = true
      · have hlength : k + j + (r :: owed).length = k + (j + 1) + owed.length := by simp; omega
        rw [utf8Scan_owed_inRange r owed b _ _ hin, hlength]
        simp only [utf8Inner, hb, if_pos ((inRange_iff b r).1 hin)]
        exact ih (j + 1) hlt
      · rw [utf8Scan_owed_outOfRange r owed b _ _ hin]
        simp only [utf8Inner, hb, if_neg (mt (inRange_iff b r).2 hin), Option.some_or]

/-- With fuel for the bytes left, the outer loop from index `k` is the scan of the bytes from `k` on. -/
theorem utf8Loop_eq_utf8Scan (B : List Byte) : ∀ fuel k, B.length < fuel + k →
    utf8Loop B fuel k = utf8Scan [] k (B.drop k) := by
  intro fuel
  induction fuel with
  | zero =>
    intro k hk
    rw [List.drop_eq_nil_of_le (by omega)]
    rfl
  | succ fuel ih =>
    intro k hfuel
    cases hb : B[k]? with
    | none =>
      rw [List.drop_eq_nil_of_le (List.getElem?_eq_none_iff.1 hb)]
      simp only [utf8Loop, hb, utf8Scan]
    | some b =>
      have hlead := utf8Row_eq_leadRow? b
      rw [drop_eq_cons_of_getElem? B k b hb]
      cases hrow : utf8Row b with
      | none =>
        rw [hrow, Option.map_none] at hlead
        simp only [utf8Loop, hb, ← hlead, utf8Scan_lead_none b _ k hrow]
      | some owed =>
        have hlt : k < B.length := (List.getElem?_eq_some_iff.1 hb).1
        rw [hrow, Option.map_some] at hlead
        rw [utf8Scan_lead_some b _ k owed hrow, utf8Scan_drop_owed B k owed 1 hlt,
          ← ih (k + 1 + owed.length) (by omega)]
        simp only [utf8Loop, hb, ← hlead, rangesNat, List.length_map]
        cases utf8Inner B k 1 (owed.map fun r => (r.1.toNat, r.2.toNat)) <;> rfl

/-- Settles O32: `utf8Loop_eq_utf8Scan` from index 0. -/
theorem utf8ScanIsTheLoop : Obligations.Utf8ScanIsTheLoop :=
  fun B => (utf8Loop_eq_utf8Scan B (B.length + 1) 0 (by omega)).symm

end Sys2Proof.Machine
end

section
/-! EXTRACT's FINISH step (spec/43_extract.md R223): the verdict of the validator decides how the operation ends. -/

namespace Sys2Proof.Machine

theorem exec_extract_finish (s : State) (hphase : s.phase = .finish) : exec .extract s = extractFinish s := by
  simp only [exec, execExtract, hphase]

theorem exec_extract_wellFormed (s : State) (enc : TextEncoding) (hphase : s.phase = .finish)
    (henc : encodingOf s.cfg.enc = some enc) (hlen : s.length.toNat ≤ s.params.payDepth)
    (hverdict : validate enc (payload s) = none) : exec .extract s = .next (complete s) := by
  simp only [exec_extract_finish s hphase, extractFinish, henc, if_pos hlen, hverdict]

theorem exec_extract_illFormed (s : State) (enc : TextEncoding) (info : Nat) (hphase : s.phase = .finish)
    (henc : encodingOf s.cfg.enc = some enc) (hlen : s.length.toNat ≤ s.params.payDepth)
    (hverdict : validate enc (payload s) = some info) :
    exec .extract s = .next (raiseError .decodingError (BitVec.ofNat 32 info) s) := by
  simp only [exec_extract_finish s hphase, extractFinish, henc, if_pos hlen, hverdict]

/-- LENGTH bytes that agree with PAYMEM are the payload. -/
theorem eq_payload (s : State) (B : List Byte) (hlen : B.length = s.length.toNat)
    (hbytes : ∀ j b, B[j]? = some b → b = readByte .pay j s) : B = payload s := by
  refine List.ext_getElem (by simp [payload, hlen]) fun j hj _ => ?_
  simpa [payload] using hbytes j B[j] (List.getElem?_eq_getElem hj)

theorem payload_eq_nil (s : State) (hlen : s.length = 0#32) : payload s = [] := by
  simp [payload, hlen]

/-- Settles O22: the bytes of the statement are the payload (`eq_payload`), and the verdict on it selects the branch. -/
theorem extractFinishValidates : Obligations.ExtractFinishValidates := by
  refine ⟨⟨rfl, rfl, rfl, rfl⟩, fun s enc B hphase henc hdepth hlen hbytes => ?_⟩
  obtain rfl := eq_payload s B hlen hbytes
  exact ⟨exec_extract_wellFormed s enc hphase henc hdepth,
    fun info => exec_extract_illFormed s enc info hphase henc hdepth⟩

/-- Settles O33: with LENGTH 0 the payload is the empty sequence, which every encoding accepts. -/
theorem emptyPayloadCompletes : Obligations.EmptyPayloadCompletes := by
  intro s enc hphase henc hlen
  have hverdict : validate enc (payload s) = none := by rw [payload_eq_nil s hlen, validate_nil]
  exact ⟨validate_nil enc, exec_extract_wellFormed s enc hphase henc (by simp [hlen]) hverdict⟩

end Sys2Proof.Machine
end

section
/-! EXTRACT's RUN step (spec/43_extract.md R221): the byte it may store and the bits it leaves in `xacc`, bit by bit. -/

namespace Sys2Proof.Machine

theorem exec_extract_run (s : State) (hphase : s.phase = .run) : exec .extract s = runStep extractPixel s := by
  simp only [exec, execExtract, hphase]

theorem recoveryValue_eq (s : State) (p : Nat) : recoveryValue s p =
    if s.cfg.mode = 1#1 then readWord .pix p s ^^^ readWord .ref p s else readWord .pix p s := by
  rw [recoveryValue, modeOf]
  by_cases hmode : s.cfg.mode = 1#1
  · simp only [if_pos hmode]
  · simp only [if_neg hmode]

theorem extractPixel_phase (bw : Nat) (s : State) : (extractPixel bw s).phase =
    if s.r.toNat + stepLanes bw s = payloadBits s then .finish else s.phase := by
  rw [extractPixel_eq]

/-- The cursor does not wrap: it stays within the payload, which fits PAYMEM. -/
theorem extractPixel_r_toNat (bw : Nat) (s : State) (hr : s.r.toNat < payloadBits s)
    (hlen : s.length.toNat ≤ s.params.payDepth) : (extractPixel bw s).r.toNat = s.r.toNat + stepLanes bw s := by
  rw [extractPixel_eq]
  exact (advanceCursor_toNat s bw hr hlen).1

/-- PAYMEM and `xacc` after the RUN step are those its lanes leave: advancing the cursor touches neither. -/
theorem readByte_extractPixel (bw j : Nat) (s : State) : readByte .pay j (extractPixel bw s) =
    readByte .pay j (extractLanes bw (recoveryValue s (s.r.toNat / bw)) s.r.toNat (stepLanes bw s) s) :=
  readByte_congr _ _ .pay j rfl

theorem extractPixel_xacc (bw : Nat) (s : State) : (extractPixel bw s).xacc =
    (extractLanes bw (recoveryValue s (s.r.toNat / bw)) s.r.toNat (stepLanes bw s) s).xacc := rfl

/-- Lane `L` completes a byte: the old bits and lanes `0` to `L` are stored at its address, the lanes after it start a new one. At
most four lanes in a row hold no second index that is 7 mod 8. -/
theorem extractLanes_stores (bw r c L : Nat) (v : Word) (s : State) (hc : c ≤ 4) (hL : L < c) (h7 : (r + L) % 8 = 7) :
    (∀ j, j ≠ (r + L) / 8 → readByte .pay j (extractLanes bw v r c s) = readByte .pay j s) ∧
    (∀ m, m < 8 → (readByte .pay ((r + L) / 8) (extractLanes bw v r c s)).getLsbD m =
      if m ≤ L then lbit v (L - m) bw else s.xacc.getLsbD (m - (L + 1))) ∧
    (∀ m, (extractLanes bw v r c s).xacc.getLsbD m = (decide (m + L + 1 < c) && lbit v (c - 1 - m) bw)) := by
  rcases extractLanes_form bw v r s c (by omega) with ⟨hno, -⟩ | ⟨L0, hL0, h70, b, x, hform, hbyte, hxacc⟩
  · exact absurd h7 (hno L hL)
  · obtain rfl : L0 = L := by omega
    rw [hform]
    refine ⟨fun j hj => ?_, fun m hm => ?_, hxacc⟩
    · rw [readByte_writeByte, if_neg fun h => hj h.2.symm]
      exact readByte_congr _ _ .pay j rfl
    · rw [readByte_writeByte, if_pos ⟨rfl, rfl⟩, hbyte m hm]

/-- No lane completes a byte: PAYMEM stays and every lane's bit is shifted into `xacc`. -/
theorem extractLanes_keeps (bw r c : Nat) (v : Word) (s : State) (hc : c ≤ 8) (hno : ∀ L, L < c → (r + L) % 8 ≠ 7) :
    (∀ j, readByte .pay j (extractLanes bw v r c s) = readByte .pay j s) ∧
    (∀ m, m < 8 → (extractLanes bw v r c s).xacc.getLsbD m =
      if m < c then lbit v (c - 1 - m) bw else s.xacc.getLsbD (m - c)) := by
  rcases extractLanes_form bw v r s c hc with ⟨-, x, hform, hxacc⟩ | ⟨L0, hL0, h70, -⟩
  · rw [hform]
    exact ⟨fun j => readByte_congr _ _ .pay j rfl, hxacc⟩
  · exact absurd h70 (hno L0 hL0)

/-- Settles O21: the entry invariant lets the RUN step take its pixel (`runStep_of_entry`), and whether one of its lanes completes a
byte selects `extractLanes_stores` or `extractLanes_keeps`. -/
theorem extractRunStepShiftsOnePixelIn : Obligations.ExtractRunStepShiftsOnePixelIn := by
  rintro s bw n k p v hphase hlo hhi hdepth rfl rfl rfl hv hr haligned hpixel hlen
  obtain rfl : v = recoveryValue s (s.r.toNat / bw) := hv.trans (recoveryValue_eq s _).symm
  have hwidth := (byteWidth_eq_some s.cfg.bitDepth bw).2 ⟨hlo, hhi, hdepth⟩
  have hexec : exec .extract s = .next (extractPixel bw s) := by
    rw [exec_extract_run s hphase, runStep_of_entry extractPixel s bw hwidth hr haligned hpixel hlen]
  have hlanes : stepLanes bw s ≤ 4 := (stepLanes_le bw s).trans hhi
  refine ⟨extractPixel bw s, hexec, ?frame, extractPixel_r_toNat bw s hr hlen, ?phase, fun L hL h7 => ?stores,
    fun hno => ?keeps⟩
  case frame =>
    obtain ⟨m, x, h⟩ := extractPixel_frame bw s
    rw [h]; rfl
  case phase => rw [extractPixel_phase, hphase]; rfl
  case stores =>
    simp only [readByte_extractPixel, extractPixel_xacc]
    exact extractLanes_stores bw s.r.toNat (stepLanes bw s) L _ s hlanes hL h7
  case keeps =>
    simp only [readByte_extractPixel, extractPixel_xacc]
    exact extractLanes_keeps bw s.r.toNat (stepLanes bw s) _ s (by omega) hno

end Sys2Proof.Machine
end

section
/-! Command acceptance through the bus (spec/44_operation_selector.md R250): the `CMD` register's offset is in the CSR block, so its
write always has a target, and the phase alone decides between acceptance and the drop. -/

namespace Sys2Proof.Machine

/-- While IDLE no register's write is dropped (20_memory.md R90). -/
theorem busStep_memWrite_csr_idle (c : Csr) (off v : Word) (s : State) (h : off.toNat = csrOffset c)
    (hidle : s.phase = .idle) : busStep (memWrite off v) s = respond .writeOkay (csrWrite c v s) := by
  rw [busStep_memWrite_csr c off v s h, acceptedWrite_idle (.csr c) v s hidle]
  rfl

/-- A write of `CMD` while IDLE is the acceptance of its word, answered OKAY. -/
theorem busStep_memWrite_cmd_idle (w : Word) (s : State) (hidle : s.phase = .idle) :
    busStep (memWrite 0x08#32 w) s = respond .writeOkay (acceptCommand w s) :=
  busStep_memWrite_csr_idle .cmd 0x08#32 w s rfl hidle

/-- `CMD` is guarded by BUSY (20_memory.md R94). -/
theorem guardedOffset_cmd (p : Params) : GuardedOffset p (0x08#32 : Word).toNat :=
  .inl (by decide)

/-- A write of `CMD` while BUSY is dropped: the command in progress keeps its word, its phase and its cursor. -/
theorem busStep_memWrite_cmd_busy (w : Word) (s : State) (hbusy : s.phase ≠ .idle) :
    busStep (memWrite 0x08#32 w) s = respond .writeOkay (setHaz s) :=
  busStep_memWrite_dropped s 0x08#32 w hbusy rfl (guardedOffset_cmd s.params)

/-- Settles O8: IDLE and BUSY are the two rules above, with the fields of `acceptCommand`, `setHaz` and `respond` written out. -/
theorem acceptanceStartsTheOperation : Obligations.AcceptanceStartsTheOperation := by
  intro s w
  refine ⟨fun hidle => ?accepted, fun hbusy => ?dropped⟩
  case accepted => exact busStep_memWrite_cmd_idle w s hidle
  case dropped => exact busStep_memWrite_cmd_busy w s hbusy

end Sys2Proof.Machine
end

section
/-! The decoder and the encoder (spec/30_encoding.md R120 to R126): the legal field values are the fields of the four command
words. -/

namespace Sys2Proof.Machine

/-- A command word's fields are legal exactly when they are those of a command's encoding (R122, R126). -/
theorem cmdFields_wellFormed_iff (f : CmdFields) : f.wellFormed = true ↔ ∃ i, f = ⟨opcodeOf i, 0#24⟩ := by
  obtain ⟨op, rsvd⟩ := f
  simp only [CmdFields.wellFormed, CmdFields.rsvdZero, CmdFields.opcodeAssigned, Bool.and_eq_true, Bool.or_eq_true,
    beq_iff_eq, CmdFields.mk.injEq]
  constructor
  · rintro ⟨rfl, ((rfl | rfl) | rfl) | rfl⟩
    · exact ⟨.cap, rfl, rfl⟩
    · exact ⟨.embed, rfl, rfl⟩
    · exact ⟨.extract, rfl, rfl⟩
    · exact ⟨.index, rfl, rfl⟩
  · rintro ⟨i, rfl, rfl⟩
    refine ⟨rfl, ?_⟩
    cases i with
    | cap => exact .inl (.inl (.inl rfl))
    | embed => exact .inl (.inl (.inr rfl))
    | extract => exact .inl (.inr rfl)
    | index => exact .inr rfl

/-- No field bit is dropped, so a word's fields determine it. -/
theorem cmdFieldsWord_injective : Function.Injective CmdFields.word := fun f g h => by
  rw [← fields_of_word f, h, fields_of_word g]

/-- The fields of a word that decodes to a command are those of the command's encoding. -/
theorem decode_word_command_iff (f : CmdFields) (i : Instr) : decode f.word = .command i ↔ f = ⟨opcodeOf i, 0#24⟩ :=
  (decode_command_iff f.word i).trans cmdFieldsWord_injective.eq_iff

/-- Settles O2: a word decodes to a command exactly when it is the command's encoding (`decode_command_iff`), words and fields
determine each other, and the legal fields are those of the four encodings. -/
theorem decodeAndEncodeAgree : Obligations.DecodeAndEncodeAgree := by
  refine ⟨fun i _ => ⟨decode_encode i, fun w => (decode_command_iff w i).1⟩, fields_of_word, word_of_fields, fun f => ?_⟩
  rw [cmdFields_wellFormed_iff]
  exact exists_congr fun i => (decode_word_command_iff f i).symm

/-- Settles O3: each table row, all 32 bits of it, is the word of its command; a reserved bit makes EMBED's word illegal. -/
theorem tableWordsDecode : Obligations.TableWordsDecode := by
  unfold Obligations.TableWordsDecode
  decide

end Sys2Proof.Machine
end

section
/-! Whose step the engine's turn is (spec/44_operation_selector.md R251, R253, R260): the decoded command's, the wait in IDLE, or the end
of an illegal word. -/

namespace Sys2Proof.Machine

/-! ### One turn -/

theorem engineStep_idle (s : State) (hidle : s.phase = .idle) : engineStep s = .next s := by
  simp only [engineStep, hidle]

/-- The CHECK step of an illegal word ends it (30_encoding.md R126). -/
theorem engineStep_illegal (s : State) (why : IllegalWord) (hcheck : s.phase = .check) (hd : decode s.opw = .illegal why) :
    engineStep s = .next (raiseError .illegalCommand s.opw s) := by
  simp only [engineStep, operationStep, illegalCommand, hcheck, hd]

theorem step_of_bus (s : State) (t : BusTxn) (es : List Event) (hs : s.schedule = .bus t :: es) :
    step s = .next (busStep t { s with schedule := es }) := by
  simp only [step, takeTurn, hs]

theorem step_of_poll (s : State) (off mask val : Word) (es : List Event) (hs : s.schedule = .poll off mask val :: es) :
    step s = .next (pollStep off mask val { s with schedule := es }) := by
  simp only [step, takeTurn, hs]

theorem step_of_reset (s : State) (es : List Event) (hs : s.schedule = .reset :: es) :
    step s = .next (resetBlock { s with schedule := es }) := by
  simp only [step, takeTurn, hs]

/-- With nothing scheduled the engine takes the turn (20_memory.md R100, log 3). -/
theorem step_alone (s : State) (hs : s.schedule = []) : step s = engineStep s :=
  step_of_engineTurn s s (.inl ⟨hs, rfl⟩)

/-! ### The obligations -/

/-- Settles O4: taking the turn off the schedule leaves the phase and the word that select the command. -/
theorem engineTurnRunsTheDecodedCommand : Obligations.EngineTurnRunsTheDecodedCommand := by
  intro s t i hturn hphase hd
  rw [step_of_engineTurn s t hturn]
  obtain ⟨es, rfl⟩ := hturn.eq
  exact engineStep_of_opw _ i hphase ((decode_command_iff _ i).1 hd)

theorem decodeTableWord_eq_some (nbits w : Nat) (i : Instr) (h : decodeTableWord nbits w = some i) :
    tableWord nbits w = encode i := by
  rw [decodeTableWord] at h
  split at h
  · rename_i j hd
    cases h
    exact (decode_command_iff _ _).1 hd
  · cases h

/-- Settles O5: the placed word is scheduled as the engine's turn, on the state that its acceptance leaves. -/
theorem placedCommandRunsNext : Obligations.PlacedCommandRunsNext := by
  intro s w i hd
  have hword := decodeTableWord_eq_some 32 w i hd
  have hturn : EngineTurn (s.withFetchWord 32 w) (acceptCommand (tableWord 32 w) s) := .inr ⟨s.schedule, rfl, rfl⟩
  refine ⟨?_, rfl, hword⟩
  rw [step_of_engineTurn _ _ hturn]
  exact engineStep_of_opw _ i (by simp) hword

/-- Settles O6: `engineStep_idle` on the state that the turn leaves. -/
theorem idleEngineWaits : Obligations.IdleEngineWaits := by
  intro s t hturn hidle
  rw [step_of_engineTurn s t hturn]
  obtain ⟨es, rfl⟩ := hturn.eq
  exact engineStep_idle _ hidle

/-- A `CMD` write scheduled while IDLE is the acceptance of its word. -/
theorem step_memWrite_cmd_idle (s : State) (w : Word) (es : List Event) (hidle : s.phase = .idle)
    (hs : s.schedule = .bus (memWrite 0x08#32 w) :: es) :
    step s = .next { acceptCommand w s with schedule := es, resp := some .writeOkay } := by
  rw [step_of_bus s _ es hs, busStep_memWrite_cmd_idle w { s with schedule := es } hidle]
  rfl

/-- Settles O7: the acceptance does not look at the word, and an illegal one meets `engineStep_illegal` in its CHECK step. -/
theorem everyIdleCommandWriteIsAccepted : Obligations.EveryIdleCommandWriteIsAccepted := by
  intro s w es hidle
  refine ⟨step_memWrite_cmd_idle s w es hidle, fun hs hcap hembed hextract hindex => ⟨_, ?_, rfl⟩⟩
  obtain ⟨-, -, -, -, hillegal⟩ := decodingIsAnExactMatch w
  obtain ⟨why, hd⟩ := hillegal hcap hembed hextract hindex
  rw [runSteps_succ 1 s _ (step_memWrite_cmd_idle s w _ hidle hs), runSteps_succ 0 _ _ ?check, runSteps_zero]
  case check =>
    rw [step_of_engineTurn _ _ (.inr ⟨es, rfl, rfl⟩)]
    exact engineStep_illegal _ why rfl hd

end Sys2Proof.Machine
end

section
/-! What an engine step and a host transaction leave unchanged (spec/10_state.md R56 to R61, 20_memory.md R94, R105 to R107,
44_operation_selector.md R259, R262), said once for each and read off by the safety rules. -/

namespace Sys2Proof.Machine

/-! ### The frame of an engine step -/

/-- What no engine step changes: the operation's word and operands, REFMEM, HAZ, the enables, the parameters and the schedule. -/
structure Untouched (s t : State) : Prop where
  opw : t.opw = s.opw
  cfg : t.cfg = s.cfg
  geom : t.geom = s.geom
  length : t.length = s.length
  idxIn : t.idxIn = s.idxIn
  refmem : t.refmem = s.refmem
  params : t.params = s.params
  haz : t.status.haz = s.status.haz
  irqEn : t.irqEn = s.irqEn
  schedule : t.schedule = s.schedule

theorem EngineMove.untouched {s s' : State} (h : EngineMove s s') : Untouched s s' := by
  cases h with
  | extractPixel bw => rw [extractPixel_eq]; exact ⟨rfl, rfl, rfl, rfl, rfl, rfl, rfl, rfl, rfl, rfl⟩
  | _ => exact ⟨rfl, rfl, rfl, rfl, rfl, rfl, rfl, rfl, rfl, rfl⟩

theorem engineStep_untouched {s s' : State} (h : engineStep s = .next s') : Untouched s s' := by
  rcases engineStep_cases s s' h with ⟨-, rfl⟩ | ⟨-, hmove⟩
  · exact ⟨rfl, rfl, rfl, rfl, rfl, rfl, rfl, rfl, rfl, rfl⟩
  · exact hmove.untouched

theorem extractPixel_pixmem (bw : Nat) (s : State) : (extractPixel bw s).pixmem = s.pixmem := by
  rw [extractPixel_eq]

theorem EngineMove.pixmem_eq {s s' : State} (h : EngineMove s s') (hop : s.opw ≠ encode .embed) :
    s'.pixmem = s.pixmem := by
  cases h with
  | embedPixel bw hp ho => exact absurd ho hop
  | extractPixel bw => exact extractPixel_pixmem bw s
  | _ => rfl

theorem EngineMove.paymem_eq {s s' : State} (h : EngineMove s s') (hop : s.opw ≠ encode .extract) :
    s'.paymem = s.paymem := by
  cases h with
  | extractPixel bw hp ho => exact absurd ho hop
  | _ => rfl

/-- Only the RUN steps reach a memory or the cursor. -/
theorem EngineMove.of_not_run {s s' : State} (h : EngineMove s s') (hrun : s.phase ≠ .run) :
    s'.pixmem = s.pixmem ∧ s'.paymem = s.paymem ∧ s'.r = s.r := by
  cases h with
  | embedPixel bw hp => exact absurd hp hrun
  | extractPixel bw hp => exact absurd hp hrun
  | _ => exact ⟨rfl, rfl, rfl⟩

/-! ### The phases -/

/-- A passing CHECK chooses by the number of payload bits (44_operation_selector.md R253). -/
theorem beginTransfer_phase_cases (s : State) :
    ((beginTransfer s).phase = .finish ∧ payloadBits s = 0) ∨ ((beginTransfer s).phase = .run ∧ 0 < payloadBits s) := by
  rw [beginTransfer_phase]
  by_cases hzero : payloadBits s = 0
  · exact .inl ⟨if_pos hzero, hzero⟩
  · exact .inr ⟨if_neg hzero, Nat.pos_of_ne_zero hzero⟩

theorem beginTransfer_phase_ne_idle (s : State) : (beginTransfer s).phase ≠ .idle := by
  rcases beginTransfer_phase_cases s with ⟨hphase, -⟩ | ⟨hphase, -⟩ <;> rw [hphase] <;> exact nofun

/-- The lanes of a RUN step: at least one, and none past the end of the payload. -/
theorem stepLanes_bounds {bw : Nat} {s : State} (hbw : 1 ≤ bw) (hr : s.r.toNat < payloadBits s) :
    1 ≤ stepLanes bw s ∧ s.r.toNat + stepLanes bw s ≤ payloadBits s := by
  unfold stepLanes laneCount
  omega

/-- A RUN step moves the cursor on, inside the payload, and ends in FINISH when it is at the end. -/
theorem EngineMove.of_run {s s' : State} (h : EngineMove s s') (hrun : s.phase = .run) :
    s.r.toNat < s'.r.toNat ∧ s'.r.toNat ≤ payloadBits s ∧
      s'.phase = if s'.r.toNat = payloadBits s then .finish else .run := by
  cases h with
  | embedPixel bw hp ho hbw hr hm hx hl =>
    obtain ⟨hlo, -, -⟩ := (byteWidth_eq_some _ _).1 hbw
    obtain ⟨hmoves, hinside⟩ := stepLanes_bounds hlo hr
    rw [embedPixel_r_toNat bw s hr hl, embedPixel_phase, hrun]
    exact ⟨by omega, hinside, rfl⟩
  | extractPixel bw hp ho hbw hr hm hx hl =>
    obtain ⟨hlo, -, -⟩ := (byteWidth_eq_some _ _).1 hbw
    obtain ⟨hmoves, hinside⟩ := stepLanes_bounds hlo hr
    rw [extractPixel_r_toNat bw s hr hl, extractPixel_phase, hrun]
    exact ⟨by omega, hinside, rfl⟩
  | _ => simp_all

/-- The engine's rows of the table of transitions (44_operation_selector.md R259). -/
theorem EngineMove.phase_cases {s s' : State} (h : EngineMove s s') :
    (s.phase = .run ∧ s'.phase = .run) ∨
    (s.phase = .check ∧ s'.phase = .idle ∧ s'.status.done = true) ∨
    (s.phase = .check ∧ s'.phase = .finish ∧ payloadBits s = 0) ∨
    (s.phase = .check ∧ s'.phase = .run ∧ 0 < payloadBits s) ∨
    (s.phase = .run ∧ s'.phase = .finish ∧ s'.r.toNat = payloadBits s) ∨
    (s.phase = .finish ∧ s'.phase = .idle ∧ s'.status.done = true) := by
  by_cases hrun : s.phase = .run
  · obtain ⟨-, -, hphase⟩ := h.of_run hrun
    by_cases hend : s'.r.toNat = payloadBits s
    · exact .inr (.inr (.inr (.inr (.inl ⟨hrun, by rw [hphase, if_pos hend], hend⟩))))
    · exact .inl ⟨hrun, by rw [hphase, if_neg hend]⟩
  · cases h with
    | embedPixel bw hp => exact absurd hp hrun
    | extractPixel bw hp => exact absurd hp hrun
    | beginEmbed bw hp =>
      rcases beginTransfer_phase_cases (writeCapacity bw s) with ⟨hphase, hn⟩ | ⟨hphase, hn⟩
      · exact .inr (.inr (.inl ⟨hp, hphase, hn⟩))
      · exact .inr (.inr (.inr (.inl ⟨hp, hphase, hn⟩)))
    | beginExtract bw hp =>
      rcases beginTransfer_phase_cases { writeCapacity bw s with xacc := 0#8 } with ⟨hphase, hn⟩ | ⟨hphase, hn⟩
      · exact .inr (.inr (.inl ⟨hp, hphase, hn⟩))
      · exact .inr (.inr (.inr (.inl ⟨hp, hphase, hn⟩)))
    | finish hp => exact .inr (.inr (.inr (.inr (.inr ⟨hp, rfl, rfl⟩))))
    | decodingError info hp => exact .inr (.inr (.inr (.inr (.inr ⟨hp, rfl, rfl⟩))))
    | checkError code info hp => exact .inr (.inl ⟨hp, rfl, rfl⟩)
    | rangeError bw code info hp => exact .inr (.inl ⟨hp, rfl, rfl⟩)
    | cap bw hp => exact .inr (.inl ⟨hp, rfl, rfl⟩)
    | index bw hp => exact .inr (.inl ⟨hp, rfl, rfl⟩)

/-! ### The end of an operation -/

/-- An operation ends with DONE: with ERR and the code of an error the block raises, or with the report as it stood
(44_operation_selector.md R262, 60_exceptions.md R281, R288). -/
theorem EngineMove.ends {s s' : State} (h : EngineMove s s') (hidle : s'.phase = .idle) :
    s'.status.done = true ∧
    ((s'.status.err = true ∧ s'.errCode ≠ .none ∧ s'.errCode ≠ .sourceUnavailable) ∨
      (s'.status.err = s.status.err ∧ s'.errCode = s.errCode ∧ s'.errInfo = s.errInfo)) := by
  cases h with
  | checkError code info hp hc =>
    refine ⟨rfl, .inl ⟨rfl, ?_⟩⟩
    rcases hc with rfl | rfl | rfl <;> exact ⟨nofun, nofun⟩
  | rangeError bw code info hp hbw hc =>
    refine ⟨rfl, .inl ⟨rfl, ?_⟩⟩
    rcases hc with rfl | rfl | rfl <;> exact ⟨nofun, nofun⟩
  | decodingError info => exact ⟨rfl, .inl ⟨rfl, nofun, nofun⟩⟩
  | cap bw => exact ⟨rfl, .inr ⟨rfl, rfl, rfl⟩⟩
  | index bw => exact ⟨rfl, .inr ⟨rfl, rfl, rfl⟩⟩
  | finish => exact ⟨rfl, .inr ⟨rfl, rfl, rfl⟩⟩
  | beginEmbed bw => exact absurd hidle (beginTransfer_phase_ne_idle _)
  | beginExtract bw => exact absurd hidle (beginTransfer_phase_ne_idle _)
  | embedPixel bw hp =>
    rw [embedPixel_phase, hp] at hidle
    split at hidle <;> cases hidle
  | extractPixel bw hp =>
    rw [extractPixel_phase, hp] at hidle
    split at hidle <;> cases hidle

/-- While an operation is in progress its report is as acceptance left it. -/
theorem Inv.unreported {s : State} (hi : Inv s) (hbusy : s.phase ≠ .idle) : Unreported s := by
  cases hp : s.phase with
  | idle => exact absurd hp hbusy
  | check => exact (hi.check hp).1
  | run => exact (hi.run hp).1
  | finish => exact (hi.finish hp).1

/-! ### A host transaction -/

theorem csrOffset_of_addressMap (p : Params) (off : Nat) (c : Csr) (h : addressMap p off = some (.csr c)) :
    off = csrOffset c := by
  rcases addressMap_some p off _ h with ⟨c', hc, hoff⟩ | ⟨hc, -⟩ | ⟨id, k, hc, -⟩ <;> cases hc
  exact hoff

/-- HAZ after a transaction: kept, set by a write that is dropped (20_memory.md R94), or cleared by a write of 1 to it (10_state.md
R36). -/
theorem busStep_haz_cases (t : BusTxn) (s : State) :
    (busStep t s).status.haz = s.status.haz ∨
    (s.phase ≠ .idle ∧ t.kind = .write ∧ t.size = 4 ∧ t.off.toNat % 4 = 0 ∧ GuardedOffset s.params t.off.toNat ∧
      (busStep t s).status.haz = true) ∨
    (t.kind = .write ∧ t.off = 0x0C#32 ∧ (busStep t s).status.haz = (s.status.haz && !t.wdata.getLsbD 3)) := by
  rcases busStep_cases t s with ⟨-, e⟩ | ⟨g, -, -, e⟩ | ⟨g, htarget, hkind, e⟩
  · exact .inl (by rw [e, respond_status])
  · exact .inl (by rw [e, respond_status])
  · obtain ⟨hsize, halign, hmap⟩ := busTarget_some s.params t g htarget
    rw [e, respond_status]
    by_cases hdrop : s.phase ≠ .idle ∧ targetGuarded g = true
    · obtain ⟨hbusy, hguard⟩ := hdrop
      rw [acceptedWrite_dropped g t.wdata s hbusy hguard]
      exact .inr (.inl ⟨hbusy, hkind, hsize, halign, (targetGuarded_iff s.params _ g halign hmap).1 hguard, rfl⟩)
    · have hacts : acceptedWrite g t.wdata s = targetWrite g t.wdata s :=
        if_neg (by rwa [Bool.and_eq_true, busy_iff])
      rw [hacts]
      cases g with
      | reserved => exact .inl rfl
      | word id k => exact .inl (by rw [targetWrite, writeWord_status])
      | csr c =>
        cases c with
        | status =>
          exact .inr (.inr ⟨hkind, BitVec.eq_of_toNat_eq (csrOffset_of_addressMap s.params _ .status hmap), rfl⟩)
        | _ => exact .inl rfl

/-- The phase after a transaction: kept, or CHECK by a `CMD` write while IDLE (44_operation_selector.md R250). -/
theorem busStep_phase_cases (t : BusTxn) (s : State) :
    (busStep t s).phase = s.phase ∨
    (s.phase = .idle ∧ (busStep t s).phase = .check ∧ t.kind = .write ∧ t.off = 0x08#32) := by
  by_cases hidle : s.phase = .idle
  · rcases busStep_cases t s with ⟨-, e⟩ | ⟨g, -, -, e⟩ | ⟨g, htarget, hkind, e⟩
    · exact .inl (by rw [e, respond_phase])
    · exact .inl (by rw [e, respond_phase])
    · obtain ⟨-, -, hmap⟩ := busTarget_some s.params t g htarget
      rw [e, respond_phase, acceptedWrite_idle g t.wdata s hidle]
      cases g with
      | reserved => exact .inl rfl
      | word id k => exact .inl (by rw [targetWrite, writeWord_phase])
      | csr c =>
        cases c with
        | cmd =>
          exact .inr ⟨hidle, rfl, hkind, BitVec.eq_of_toNat_eq (csrOffset_of_addressMap s.params _ .cmd hmap)⟩
        | _ => exact .inl rfl
  · obtain ⟨st, ie, re, e⟩ := busStep_busy_frame t s hidle
    exact .inl (by rw [e])

/-! ### The obligations -/

/-- The engine's turn is the wait in IDLE or a move of the operation, on the state whose turn has come off the schedule. -/
theorem EngineTurn.cases {s t s' : State} (hturn : EngineTurn s t) (h : step s = .next s') :
    ∃ es, (s.phase = .idle ∧ s' = { s with schedule := es }) ∨
      (s.phase ≠ .idle ∧ EngineMove { s with schedule := es } s') := by
  rw [step_of_engineTurn s t hturn] at h
  obtain ⟨es, rfl⟩ := hturn.eq
  exact ⟨es, engineStep_cases _ s' h⟩

/-- While an operation is in progress, the engine's turn is a move of it. -/
theorem EngineTurn.move {s t s' : State} (hturn : EngineTurn s t) (h : step s = .next s') (hbusy : s.phase ≠ .idle) :
    ∃ es, EngineMove { s with schedule := es } s' := by
  obtain ⟨es, ⟨hidle, -⟩ | ⟨-, hmove⟩⟩ := hturn.cases h
  · exact absurd hidle hbusy
  · exact ⟨es, hmove⟩

/-- Settles O54: the engine's rows are `EngineMove.phase_cases`, a transaction's `busStep_phase_cases`, and a POLL only reads. -/
theorem phaseTransitionsAreTheTable : Obligations.PhaseTransitionsAreTheTable := by
  intro s s' _ hnoreset h
  rcases step_cases s s' h with ⟨t, hturn, -⟩ | ⟨t, es, hs, rfl⟩ | ⟨off, mask, val, es, hs, rfl⟩ | ⟨es, hs, -⟩
  · obtain ⟨es, ⟨-, rfl⟩ | ⟨-, hmove⟩⟩ := hturn.cases h
    · exact .inl rfl
    · rcases hmove.phase_cases with ⟨hrun, hrun'⟩ | hmoves
      · exact .inl (hrun'.trans hrun.symm)
      · exact .inr (.inr hmoves)
  · rcases busStep_phase_cases t { s with schedule := es } with hsame | ⟨hidle, hcheck, hkind, hoff⟩
    · exact .inl hsame
    · exact .inr (.inl ⟨hidle, hcheck, t, es, hs, hkind, hoff⟩)
  · obtain ⟨a, e | e⟩ := pollStep_cases off mask val { s with schedule := es } <;> exact .inl (by rw [e]; rfl)
  · exact absurd hs (hnoreset es)

/-- While an operation is in progress, a step that is no reset is a move of it, or changes only flags, interrupt enables, the response and
the schedule: the host's other writes are dropped (20_memory.md R94). -/
theorem step_busy_cases {s s' : State} (hbusy : s.phase ≠ .idle) (hnoreset : NoResetNext s) (h : step s = .next s') :
    (∃ es, EngineMove { s with schedule := es } s') ∨
    ∃ es st ie re, s' = { s with schedule := es, status := st, irqEn := ie, resp := re } := by
  rcases step_cases s s' h with ⟨t, hturn, -⟩ | ⟨t, es, hs, rfl⟩ | ⟨off, mask, val, es, hs, rfl⟩ | ⟨es, hs, -⟩
  · exact .inl (hturn.move h hbusy)
  · obtain ⟨st, ie, re, e⟩ := busStep_busy_frame t { s with schedule := es } hbusy
    exact .inr ⟨es, st, ie, re, e⟩
  · obtain ⟨a, e | e⟩ := pollStep_cases off mask val { s with schedule := es } <;> rw [e] <;>
      exact .inr ⟨_, s.status, s.irqEn, some a, rfl⟩
  · exact absurd hs (hnoreset es)

/-- Settles O55: a move of the engine leaves the operands (`EngineMove.untouched`), and the host's writes of them are dropped. -/
theorem operandsAreStableWhileBusy : Obligations.OperandsAreStableWhileBusy := by
  intro s s' hbusy hnoreset h
  rcases step_busy_cases hbusy hnoreset h with ⟨es, hmove⟩ | ⟨es, st, ie, re, rfl⟩
  · obtain ⟨hopw, hcfg, hgeom, hlength, hidxIn, hrefmem, hparams, -, -, -⟩ := hmove.untouched
    exact ⟨hopw, hcfg, hgeom, hlength, hidxIn, hrefmem, hparams⟩
  · exact ⟨rfl, rfl, rfl, rfl, rfl, rfl, rfl⟩

/-- Settles O56: of the moves only EMBED's RUN step writes PIXMEM and only EXTRACT's writes PAYMEM. -/
theorem engineWritesOnlyItsMemory : Obligations.EngineWritesOnlyItsMemory := by
  intro s t s' hturn h
  obtain ⟨es, ⟨-, rfl⟩ | ⟨-, hmove⟩⟩ := hturn.cases h
  · exact ⟨rfl, fun _ => rfl, fun _ => rfl⟩
  · exact ⟨hmove.untouched.refmem, hmove.pixmem_eq, hmove.paymem_eq⟩

/-- Settles O57: a CHECK step leaves the memories and the cursor, which acceptance has set to 0. -/
theorem checkErrorsLeaveMemoriesAlone : Obligations.CheckErrorsLeaveMemoriesAlone := by
  intro s t s' hi hturn hcheck h
  obtain ⟨es, hmove⟩ := hturn.move h (by simp [hcheck])
  obtain ⟨hpix, hpay, hr⟩ := hmove.of_not_run (by simp [hcheck])
  obtain ⟨-, hzero, -⟩ := hi.check hcheck
  exact ⟨hpix, hmove.untouched.refmem, hpay, hr.trans hzero⟩

/-- Settles O58: an error's report is written by the step that ends the operation, and without one it is still the empty report of
acceptance (`Inv.unreported`). -/
theorem everyCompletionIsReported : Obligations.EveryCompletionIsReported := by
  intro s t s' hi hturn hbusy h hidle
  obtain ⟨es, hmove⟩ := hturn.move h hbusy
  obtain ⟨hdone, hreport⟩ := hmove.ends hidle
  have hframe := hmove.untouched
  have hunreported := hi.unreported hbusy
  refine ⟨hdone, ?err, ?info, ?code, hframe.haz, hframe.irqEn, hframe.cfg, hframe.geom, hframe.length⟩ <;>
    rcases hreport with ⟨herr, hcode, hnever⟩ | ⟨herr, hcode, hinfo⟩
  case err.inl => simp [herr, hcode]
  case err.inr => simp [herr, hcode, hunreported.err, hunreported.code]
  case info.inl => exact fun hnone => absurd hnone hcode
  case info.inr => exact fun _ => hinfo.trans hunreported.info
  case code.inl => exact hnever
  case code.inr => rw [hcode]; exact hunreported.code ▸ nofun

/-- A flag that keeps its value is neither set nor cleared. -/
theorem flag_kept {old new : Bool} {P Q : Prop} (h : new = old) :
    (old = false → new = true → P) ∧ (old = true → new = false → Q) := by
  subst h
  cases new with
  | false => exact ⟨fun _ hset => absurd hset nofun, fun hold => absurd hold nofun⟩
  | true => exact ⟨fun hold => absurd hold nofun, fun _ hclear => absurd hclear nofun⟩

/-- Settles O59: of the four kinds of step only a transaction and a reset reach HAZ, by the cases of `busStep_haz_cases`. -/
theorem hazIsSticky : Obligations.HazIsSticky := by
  intro s s' h
  rcases step_cases s s' h with ⟨t, hturn, he⟩ | ⟨t, es, hs, rfl⟩ | ⟨off, mask, val, es, hs, rfl⟩ | ⟨es, hs, rfl⟩
  · obtain ⟨es, rfl⟩ := hturn.eq
    exact flag_kept (engineStep_untouched he).haz
  · rcases busStep_haz_cases t { s with schedule := es } with hkept | ⟨hbusy, hkind, hsize, halign, hguard, hnow⟩ |
      ⟨hkind, hoff, hnow⟩
    · exact flag_kept hkept
    · exact ⟨fun _ _ => ⟨hbusy, t, es, hs, hkind, hsize, halign, hguard⟩, fun _ hclear => absurd (hnow ▸ hclear) nofun⟩
    · rw [hnow]
      refine ⟨fun hclear hset => ?_, fun hset hclear => .inr ⟨t, es, hs, hkind, hoff, ?_⟩⟩
      · simp [hclear] at hset
      · simpa [hset] using hclear
  · obtain ⟨a, e | e⟩ := pollStep_cases off mask val { s with schedule := es } <;> rw [e] <;> exact flag_kept rfl
  · exact ⟨fun _ hset => absurd hset nofun, fun _ _ => .inl ⟨es, hs⟩⟩

end Sys2Proof.Machine
end

section
/-! The invariant (spec/10_state.md R31, R36, R44 to R46, R52, R57 to R63): it holds at reset, every step keeps it, and no step of a state
that meets it stops. -/

namespace Sys2Proof.Machine

/-! ### Reset and the host's updates -/

theorem memoryOk_nil (s : State) (id : MemId) (h : s.memory id = []) : MemoryOk s id := by
  unfold MemoryOk
  rw [h]
  exact ⟨rfl, rfl⟩

theorem inv_reset : Inv State.reset where
  memory := fun id => memoryOk_nil _ id (by cases id <;> rfl)
  capacity := by decide
  cursor := by decide
  lane := by decide
  code := nofun
  info := fun _ => rfl
  errFlag := nofun
  engine := engineOk_idle _ rfl rfl

/-- Settles O51: every register is 0 at reset, and nothing has been written. -/
theorem resetMeetsTheInvariant : Obligations.ResetMeetsTheInvariant := inv_reset

/-- The memories' part of the invariant looks at the memories and the parameters only. -/
theorem memoryOk_congr {s t : State} (hpix : t.pixmem = s.pixmem) (href : t.refmem = s.refmem) (hpay : t.paymem = s.paymem)
    (hparams : t.params = s.params) (h : ∀ id, MemoryOk s id) (id : MemId) : MemoryOk t id := by
  have hmemory : t.memory id = s.memory id := by
    cases id with
    | pix => exact hpix
    | ref => exact href
    | pay => exact hpay
  have hid := h id
  unfold MemoryOk at *
  rwa [hmemory, hparams]

theorem Inv.resetBlock {s : State} (hi : Inv s) : Inv (resetBlock s) where
  memory := memoryOk_congr rfl rfl rfl rfl hi.memory
  capacity := inv_reset.capacity
  cursor := inv_reset.cursor
  lane := inv_reset.lane
  code := inv_reset.code
  info := inv_reset.info
  errFlag := inv_reset.errFlag
  engine := inv_reset.engine

theorem Inv.idle {s : State} (hi : Inv s) (hidle : s.phase = .idle) : s.xacc = 0#8 := by
  have h := hi.engine
  unfold EngineOk at h
  rwa [hidle] at h

/-- The flags, the interrupt enables, the schedule and the response are no part of the invariant, as long as neither DONE nor ERR is
set. -/
theorem Inv.withFlags {s : State} (hi : Inv s) (st : Status) (ie : IrqEn) (es : List Event) (re : Option BusResp)
    (hdone : st.done = true → s.status.done = true) (herr : st.err = true → s.status.err = true) :
    Inv { s with status := st, irqEn := ie, schedule := es, resp := re } :=
  hi.of_sameCore ⟨rfl, rfl, rfl, rfl, rfl, rfl, rfl, rfl, rfl, rfl, rfl, rfl, rfl, rfl, rfl⟩ hdone herr

theorem Inv.withSchedule {s : State} (hi : Inv s) (es : List Event) : Inv { s with schedule := es } :=
  hi.withFlags s.status s.irqEn es s.resp id id

theorem Inv.respond {s : State} (hi : Inv s) (a : BusResp) : Inv (respond a s) :=
  hi.withFlags s.status s.irqEn s.schedule (some a) id id

theorem Inv.setHaz {s : State} (hi : Inv s) : Inv (setHaz s) :=
  hi.withFlags { s.status with haz := true } s.irqEn s.schedule s.resp id id

theorem Inv.write1Clear {s : State} (hi : Inv s) (v : Word) : Inv { s with status := statusWrite1Clear v s.status } :=
  hi.withFlags _ s.irqEn s.schedule s.resp Bool.and_elim_left Bool.and_elim_left

theorem Inv.withIrqEn {s : State} (hi : Inv s) (e : IrqEn) : Inv { s with irqEn := e } :=
  hi.withFlags s.status e s.schedule s.resp id id

theorem Inv.acceptCommand {s : State} (hi : Inv s) (w : Word) : Inv (acceptCommand w s) where
  memory := memoryOk_congr rfl rfl rfl rfl hi.memory
  capacity := hi.capacity
  cursor := by rw [acceptCommand_r]; decide
  lane := hi.lane
  code := nofun
  info := fun _ => rfl
  errFlag := nofun
  engine := ⟨⟨rfl, rfl, rfl, rfl⟩, rfl, rfl⟩

/-- While IDLE the invariant asks nothing of the configuration. -/
theorem Inv.configure {s : State} (hi : Inv s) (hidle : s.phase = .idle) (c : Cfg) (g : Geom) (l i : Word) :
    Inv { s with cfg := c, geom := g, length := l, idxIn := i } where
  memory := memoryOk_congr rfl rfl rfl rfl hi.memory
  capacity := hi.capacity
  cursor := hi.cursor
  lane := hi.lane
  code := hi.code
  info := hi.info
  errFlag := hi.errFlag
  engine := engineOk_idle _ hidle (hi.idle hidle)

theorem Inv.writeWord {s : State} (hi : Inv s) (hidle : s.phase = .idle) (id : MemId) (k : Nat) (v : Word)
    (hk : k < memWords s.params id) : Inv (writeWord id k v s) where
  memory := memoryOk_writeWord s id k v hk hi.memory
  capacity := by rw [writeWord_capacity]; exact hi.capacity
  cursor := by rw [writeWord_r]; exact hi.cursor
  lane := by rw [writeWord_idxLane]; exact hi.lane
  code := by rw [writeWord_errCode]; exact hi.code
  info := by rw [writeWord_errCode, writeWord_errInfo]; exact hi.info
  errFlag := by rw [writeWord_status, writeWord_errCode]; exact hi.errFlag
  engine := engineOk_idle _ (by rw [writeWord_phase, hidle]) (by rw [writeWord_xacc, hi.idle hidle])

/-- A write that is not dropped keeps the invariant while IDLE. -/
theorem Inv.targetWrite {s : State} (hi : Inv s) (hidle : s.phase = .idle) (off : Nat) (g : Target) (v : Word)
    (hg : addressMap s.params off = some g) : Inv (targetWrite g v s) := by
  cases g with
  | reserved => exact hi
  | word id k =>
    rcases addressMap_some s.params off _ hg with ⟨c, hc, -⟩ | ⟨hc, -⟩ | ⟨id', k', hc, hk, -⟩ <;> cases hc
    exact hi.writeWord hidle id k v hk
  | csr c =>
    cases c with
    | cmd => exact hi.acceptCommand v
    | status => exact hi.write1Clear v
    | irqEn => exact hi.withIrqEn (irqEnOfWord v)
    | cfg => exact hi.configure hidle (cfgOfWord v) s.geom s.length s.idxIn
    | geom => exact hi.configure hidle s.cfg (geomOfWord v) s.length s.idxIn
    | length => exact hi.configure hidle s.cfg s.geom v s.idxIn
    | idxIn => exact hi.configure hidle s.cfg s.geom s.length v
    | _ => exact hi

theorem Inv.acceptedWrite {s : State} (hi : Inv s) (off : Nat) (g : Target) (v : Word)
    (hg : addressMap s.params off = some g) : Inv (acceptedWrite g v s) := by
  by_cases hidle : s.phase = .idle
  · rw [acceptedWrite_idle g v s hidle]
    exact hi.targetWrite hidle off g v hg
  · rcases acceptedWrite_busy_cases g v s hidle with ⟨-, e⟩ | ⟨-, e⟩ | ⟨-, e⟩ | e <;> rw [e]
    · exact hi.setHaz
    · exact hi.write1Clear v
    · exact hi.withIrqEn (irqEnOfWord v)
    · exact hi

theorem Inv.busStep {s : State} (hi : Inv s) (t : BusTxn) : Inv (busStep t s) := by
  rcases busStep_cases t s with ⟨-, e⟩ | ⟨g, -, -, e⟩ | ⟨g, htarget, -, e⟩ <;> rw [e]
  · exact hi.respond _
  · exact hi.respond _
  · obtain ⟨-, -, hmap⟩ := busTarget_some s.params t g htarget
    exact (hi.acceptedWrite _ g t.wdata hmap).respond _

theorem Inv.pollStep {s : State} (hi : Inv s) (off mask val : Word) : Inv (pollStep off mask val s) := by
  obtain ⟨a, e | e⟩ := pollStep_cases off mask val s <;> rw [e]
  · exact hi.respond a
  · exact (hi.respond a).withSchedule _

/-! ### The engine's moves -/

theorem engineOk_run {s : State} {bw : Nat} (hrun : s.phase = .run) (hu : Unreported s) (hop : TransferOp s)
    (hc : Checked bw s) (hr : s.r.toNat < payloadBits s) (hm : s.r.toNat % bw = 0) : EngineOk s := by
  unfold EngineOk
  rw [hrun]
  exact ⟨hu, hop, bw, hc, hr, hm⟩

theorem engineOk_finish {s : State} {bw : Nat} (hfinish : s.phase = .finish) (hu : Unreported s) (hop : TransferOp s)
    (hc : Checked bw s) (hr : s.r.toNat = payloadBits s) : EngineOk s := by
  unfold EngineOk
  rw [hfinish]
  exact ⟨hu, hop, bw, hc, hr⟩

/-- An error keeps the invariant when no bit of a byte is in progress. -/
theorem Inv.raiseError {s : State} (hi : Inv s) (hx : s.xacc = 0#8) (code : ErrKind) (info : Word) (hsome : code ≠ .none)
    (hsource : code ≠ .sourceUnavailable) : Inv (raiseError code info s) where
  memory := memoryOk_congr rfl rfl rfl rfl hi.memory
  capacity := hi.capacity
  cursor := hi.cursor
  lane := hi.lane
  code := hsource
  info := fun hnone => absurd hnone hsome
  errFlag := fun _ => hsome
  engine := engineOk_idle _ rfl hx

theorem Inv.complete {s : State} (hi : Inv s) (hx : s.xacc = 0#8) : Inv (complete s) where
  memory := memoryOk_congr rfl rfl rfl rfl hi.memory
  capacity := hi.capacity
  cursor := hi.cursor
  lane := hi.lane
  code := hi.code
  info := hi.info
  errFlag := hi.errFlag
  engine := engineOk_idle _ rfl hx

/-- In CHECK the invariant asks of CAPACITY only that it is below 2^31. -/
theorem Inv.writeCapacity {s : State} (hi : Inv s) (hcheck : s.phase = .check) (bw : Nat) (hbw : bw ≤ 4) :
    Inv (writeCapacity bw s) where
  memory := memoryOk_congr rfl rfl rfl rfl hi.memory
  capacity := by
    have hle := capacityOf_le s.geom bw hbw
    rw [writeCapacity_capacity, capacityOf_toNat s.geom bw hbw]
    omega
  cursor := hi.cursor
  lane := hi.lane
  code := hi.code
  info := hi.info
  errFlag := hi.errFlag
  engine := by
    obtain ⟨⟨hdone, herr, hcode, hinfo⟩, hr, hx⟩ := hi.check hcheck
    unfold EngineOk
    rw [writeCapacity_phase, hcheck]
    exact ⟨⟨hdone, herr, hcode, hinfo⟩, hr, hx⟩

/-- INDEX's lane and bit position are below the byte width (42_embed.md R171). -/
theorem Inv.indexBody {s : State} (hi : Inv s) (hx : s.xacc = 0#8) (bw : Nat) (hlo : 1 ≤ bw) (hhi : bw ≤ 4) :
    Inv (indexBody bw s) where
  memory := memoryOk_congr rfl rfl rfl rfl hi.memory
  capacity := hi.capacity
  cursor := hi.cursor
  lane := by
    have hmod : s.idxIn.toNat % bw < bw := Nat.mod_lt _ hlo
    rw [indexBody_lane_toNat bw s hlo hhi, indexBody_bitpos_toNat bw s hhi]
    omega
  code := hi.code
  info := hi.info
  errFlag := hi.errFlag
  engine := engineOk_idle _ rfl hx

/-- A CHECK that passes enters RUN with the cursor at 0, or FINISH when that is the end of the payload. -/
theorem Inv.beginTransfer {s : State} (hi : Inv s) (hcheck : s.phase = .check) (bw : Nat) (hc : Checked bw s)
    (hop : TransferOp s) : Inv (beginTransfer s) where
  memory := memoryOk_congr rfl rfl rfl rfl hi.memory
  capacity := hi.capacity
  cursor := hi.cursor
  lane := hi.lane
  code := hi.code
  info := hi.info
  errFlag := hi.errFlag
  engine := by
    obtain ⟨⟨hdone, herr, hcode, hinfo⟩, hr, -⟩ := hi.check hcheck
    obtain ⟨hdepth, hgeom, hfits, hstored, hcap⟩ := hc
    have hr0 : s.r.toNat = 0 := by rw [hr]; rfl
    rcases beginTransfer_phase_cases s with ⟨hphase, hn⟩ | ⟨hphase, hn⟩
    · exact engineOk_finish hphase ⟨hdone, herr, hcode, hinfo⟩ hop ⟨hdepth, hgeom, hfits, hstored, hcap⟩
        (hr0.trans hn.symm)
    · refine engineOk_run hphase ⟨hdone, herr, hcode, hinfo⟩ hop ⟨hdepth, hgeom, hfits, hstored, hcap⟩ ?_ ?_ <;>
        rw [beginTransfer_r, hr0]
      · exact hn
      · exact Nat.zero_mod bw

/-- A RUN step advances the cursor inside the payload: short of its end by a whole pixel, so the cursor stays aligned. -/
theorem Inv.advanceCursor {s : State} (hi : Inv s) (hrun : s.phase = .run) (bw : Nat)
    (hdepth : byteWidth? s.cfg.bitDepth = some bw) (pm ym : Memory) (x : Byte)
    (hmem : ∀ id, MemoryOk { s with pixmem := pm, paymem := ym, xacc := x } id)
    (hop : TransferOp (advanceCursor (stepLanes bw s) { s with pixmem := pm, paymem := ym, xacc := x })) :
    Inv (advanceCursor (stepLanes bw s) { s with pixmem := pm, paymem := ym, xacc := x }) := by
  obtain ⟨⟨hdone, herr, hcode, hinfo⟩, -, bw', ⟨hdepth', hgeom, hfits, hstored, hcap⟩, hr, hm⟩ := hi.run hrun
  obtain rfl : bw = bw' := by rw [hdepth] at hdepth'; exact Option.some.inj hdepth'
  obtain ⟨hcursor, hle⟩ := advanceCursor_toNat s bw hr hstored
  rw [advanceCursor_r] at hcursor
  have hmax : payloadBits s ≤ 2 ^ 31 := by
    have := payDepth_le s.params
    unfold payloadBits
    omega
  refine ⟨hmem, hi.capacity, ?cursor, hi.lane, hi.code, hi.info, hi.errFlag, ?engine⟩
  case cursor =>
    rw [advanceCursor_r, hcursor]
    omega
  case engine =>
    by_cases hend : s.r.toNat + stepLanes bw s = payloadBits s
    · exact engineOk_finish ((advanceCursor_phase _ _).trans (if_pos hend)) ⟨hdone, herr, hcode, hinfo⟩ hop
        ⟨hdepth, hgeom, hfits, hstored, hcap⟩ (hcursor.trans hend)
    · have hwhole : stepLanes bw s = bw := by
        unfold stepLanes laneCount at *
        omega
      refine engineOk_run ((advanceCursor_phase _ _).trans ((if_neg hend).trans hrun)) ⟨hdone, herr, hcode, hinfo⟩ hop
        ⟨hdepth, hgeom, hfits, hstored, hcap⟩ ?_ ?_ <;> rw [advanceCursor_r, hcursor]
      · exact Nat.lt_of_le_of_ne hle hend
      · rw [hwhole, Nat.add_mod_right, hm]

theorem Inv.embedPixel {s : State} (hi : Inv s) (hrun : s.phase = .run) (hop : s.opw = encode .embed) (bw : Nat)
    (hdepth : byteWidth? s.cfg.bitDepth = some bw) (hpixel : s.r.toNat / bw < s.params.pixDepth) :
    Inv (embedPixel bw s) := by
  obtain ⟨-, htransfer, -⟩ := hi.run hrun
  exact hi.advanceCursor hrun bw hdepth _ s.paymem s.xacc (memoryOk_writeWord s .pix _ _ hpixel hi.memory)
    (.inl ⟨hop, htransfer.embed hop⟩)

/-- The lanes store at most the byte they complete, which lies in PAYMEM. -/
theorem memoryOk_extractLanes (bw : Nat) (v : Word) (r c : Nat) (s : State) (hc : c ≤ 8)
    (hr : r + c ≤ 8 * s.params.payDepth) (h : ∀ id, MemoryOk s id) (id : MemId) :
    MemoryOk (extractLanes bw v r c s) id := by
  rcases extractLanes_form bw v r s c hc with ⟨-, x, e, -⟩ | ⟨L, hL, h7, b, x, e, -⟩ <;> rw [e]
  · exact memoryOk_congr rfl rfl rfl rfl h id
  · have hpay : 4 * memWords s.params .pay = s.params.payDepth := payDepth_div s.params
    exact memoryOk_writeByte { s with xacc := x } .pay _ b (show _ < 4 * memWords s.params .pay by omega)
      (memoryOk_congr rfl rfl rfl rfl h) id

theorem Inv.extractPixel {s : State} (hi : Inv s) (hrun : s.phase = .run) (hop : s.opw = encode .extract) (bw : Nat)
    (hdepth : byteWidth? s.cfg.bitDepth = some bw) (hr : s.r.toNat < payloadBits s)
    (hlen : s.length.toNat ≤ s.params.payDepth) : Inv (extractPixel bw s) := by
  obtain ⟨-, htransfer, -⟩ := hi.run hrun
  obtain ⟨henc, hx⟩ := htransfer.extract hop
  obtain ⟨-, hhi, -⟩ := (byteWidth_eq_some _ _).1 hdepth
  obtain ⟨hcursor, hle⟩ := advanceCursor_toNat s bw hr hlen
  rw [advanceCursor_r] at hcursor
  have hlanes := stepLanes_le bw s
  have hmem := memoryOk_extractLanes bw (recoveryValue s (s.r.toNat / bw)) s.r.toNat (stepLanes bw s) s (by omega)
    (by unfold payloadBits at hle; omega) hi.memory
  have hxacc := extractLanes_xacc_lt bw (recoveryValue s (s.r.toNat / bw)) s.r.toNat s (stepLanes bw s) hx
  obtain ⟨m, x, hframe⟩ := extractLanes_frame bw (recoveryValue s (s.r.toNat / bw)) s.r.toNat (stepLanes bw s) s
  rw [hframe] at hmem hxacc
  rw [Machine.extractPixel, hframe]
  refine hi.advanceCursor hrun bw hdepth s.pixmem m x hmem (.inr ⟨hop, henc, ?_⟩)
  rw [advanceCursor_r, hcursor]
  exact hxacc

/-- At the end of the payload no bit of a byte is in progress: an EMBED leaves `xacc` 0, and an EXTRACT has stored its last byte
(10_state.md R63). -/
theorem Inv.finish_xacc {s : State} (hi : Inv s) (hfinish : s.phase = .finish) : s.xacc = 0#8 := by
  obtain ⟨-, htransfer, bw, -, hr⟩ := hi.finish hfinish
  rcases htransfer with ⟨-, hx⟩ | ⟨-, -, hx⟩
  · exact hx
  · have hwhole : s.r.toNat % 8 = 0 := by rw [hr, payloadBits, Nat.mul_mod_right]
    rw [hwhole, Nat.pow_zero, Nat.lt_one_iff] at hx
    exact BitVec.eq_of_toNat_eq hx

/-- Every move of an operation keeps the invariant. -/
theorem Inv.engineMove {s s' : State} (hi : Inv s) (h : EngineMove s s') : Inv s' := by
  cases h with
  | checkError code info hp hc =>
    obtain ⟨-, -, hx⟩ := hi.check hp
    rcases hc with rfl | rfl | rfl <;> exact hi.raiseError hx _ info nofun nofun
  | rangeError bw code info hp hbw hc =>
    obtain ⟨-, -, hx⟩ := hi.check hp
    obtain ⟨-, hhi, -⟩ := (byteWidth_eq_some _ _).1 hbw
    rcases hc with rfl | rfl | rfl <;> exact (hi.writeCapacity hp bw hhi).raiseError hx _ info nofun nofun
  | cap bw hp ho hbw =>
    obtain ⟨-, -, hx⟩ := hi.check hp
    obtain ⟨-, hhi, -⟩ := (byteWidth_eq_some _ _).1 hbw
    exact (hi.writeCapacity hp bw hhi).complete hx
  | index bw hp ho hbw =>
    obtain ⟨-, -, hx⟩ := hi.check hp
    obtain ⟨hlo, hhi, -⟩ := (byteWidth_eq_some _ _).1 hbw
    exact hi.indexBody hx bw hlo hhi
  | beginEmbed bw hp ho hbw hg hf hl =>
    obtain ⟨-, -, hx⟩ := hi.check hp
    obtain ⟨-, hhi, -⟩ := (byteWidth_eq_some _ _).1 hbw
    exact (hi.writeCapacity hp bw hhi).beginTransfer hp bw ⟨hbw, hg, hf, hl, rfl⟩ (.inl ⟨ho, hx⟩)
  | beginExtract bw hp ho he hbw hg hf hl =>
    obtain ⟨-, hr, hx⟩ := hi.check hp
    obtain ⟨-, hhi, -⟩ := (byteWidth_eq_some _ _).1 hbw
    have hcleared : ({ Machine.writeCapacity bw s with xacc := 0#8 } : State) = Machine.writeCapacity bw s := by rw [← hx]; rfl
    rw [beginExtract, hcleared]
    refine (hi.writeCapacity hp bw hhi).beginTransfer hp bw ⟨hbw, hg, hf, hl, rfl⟩ (.inr ⟨ho, he, ?_⟩)
    rw [writeCapacity_xacc, hx]
    exact Nat.two_pow_pos _
  | embedPixel bw hp ho hbw hr hm hx hl => exact hi.embedPixel hp ho bw hbw hx
  | extractPixel bw hp ho hbw hr hm hx hl => exact hi.extractPixel hp ho bw hbw hr hl
  | finish hp => exact hi.complete (hi.finish_xacc hp)
  | decodingError info hp => exact hi.raiseError (hi.finish_xacc hp) _ info nofun nofun

theorem Inv.engineStep {s s' : State} (hi : Inv s) (h : engineStep s = .next s') : Inv s' := by
  rcases engineStep_cases s s' h with ⟨-, rfl⟩ | ⟨-, hmove⟩
  · exact hi
  · exact hi.engineMove hmove

/-- Settles O52: one lemma for each kind of step, taken on the state whose turn has come off the schedule. -/
theorem stepKeepsTheInvariant : Obligations.StepKeepsTheInvariant := by
  intro s s' hi h
  rcases step_cases s s' h with ⟨t, hturn, he⟩ | ⟨t, es, -, rfl⟩ | ⟨off, mask, val, es, -, rfl⟩ | ⟨es, -, rfl⟩
  · obtain ⟨es, rfl⟩ := hturn.eq
    exact (hi.withSchedule es).engineStep he
  · exact (hi.withSchedule es).busStep t
  · exact (hi.withSchedule es).pollStep off mask val
  · exact (hi.withSchedule es).resetBlock

/-! ### No step stops -/

/-- In CHECK every command, and every illegal word, has a step. -/
theorem operationStep_check (s : State) (hcheck : s.phase = .check) : ∃ s', operationStep s = .next s' := by
  unfold operationStep
  cases decode s.opw with
  | illegal why => exact ⟨raiseError .illegalCommand s.opw s, by simp only [illegalCommand, hcheck]⟩
  | command i =>
    cases i with
    | cap => exact ⟨withByteWidth capBody s, by simp only [exec, execCap, hcheck]⟩
    | embed => exact ⟨withByteWidth (transferBody beginTransfer) s, by simp only [exec, execEmbed, hcheck]⟩
    | extract => exact ⟨extractCheck s, by simp only [exec, execExtract, hcheck]⟩
    | index => exact ⟨withByteWidth indexBody s, by simp only [exec, execIndex, hcheck]⟩

/-- A RUN step of a state that meets the invariant meets its entry condition. -/
theorem Inv.runStep {s : State} (hi : Inv s) (hrun : s.phase = .run) (body : Nat → State → State) :
    ∃ s', runStep body s = .next s' := by
  obtain ⟨-, -, bw, hc, hr, hm⟩ := hi.run hrun
  obtain ⟨hlo, -, -⟩ := (byteWidth_eq_some _ _).1 hc.depth
  exact ⟨body bw s, runStep_of_entry body s bw hc.depth hr hm (cursor_pixel_lt bw _ _ _ _ hlo hc.fits hr hc.geometry)
    hc.stored⟩

theorem Inv.extractFinish {s : State} (hi : Inv s) (hfinish : s.phase = .finish) (hop : s.opw = encode .extract) :
    ∃ s', extractFinish s = .next s' := by
  obtain ⟨-, htransfer, bw, hc, -⟩ := hi.finish hfinish
  obtain ⟨henc, -⟩ := htransfer.extract hop
  obtain ⟨enc, henc⟩ := Option.ne_none_iff_exists'.1 henc
  rw [← exec_extract_finish s hfinish]
  cases hverdict : validate enc (payload s) with
  | none => exact ⟨_, exec_extract_wellFormed s enc hfinish henc hc.stored hverdict⟩
  | some info => exact ⟨_, exec_extract_illFormed s enc info hfinish henc hc.stored hverdict⟩

theorem Inv.engineStep_next {s : State} (hi : Inv s) : ∃ s', Machine.engineStep s = .next s' := by
  cases hp : s.phase with
  | idle => exact ⟨s, engineStep_idle s hp⟩
  | check =>
    obtain ⟨s', h⟩ := operationStep_check s hp
    exact ⟨s', by rw [← h]; simp only [Machine.engineStep, hp]⟩
  | run =>
    obtain ⟨-, ⟨hop, -⟩ | ⟨hop, -⟩, -⟩ := hi.run hp
    · rw [engineStep_of_opw s .embed (by simp [hp]) hop, exec_embed_run s hp]
      exact hi.runStep hp Machine.embedPixel
    · rw [engineStep_of_opw s .extract (by simp [hp]) hop, exec_extract_run s hp]
      exact hi.runStep hp Machine.extractPixel
  | finish =>
    obtain ⟨-, ⟨hop, -⟩ | ⟨hop, -⟩, -⟩ := hi.finish hp
    · exact ⟨_, by rw [engineStep_of_opw s .embed (by simp [hp]) hop, exec_embed_finish s hp]⟩
    · rw [engineStep_of_opw s .extract (by simp [hp]) hop, exec_extract_finish s hp]
      exact hi.extractFinish hp hop

/-- Settles O53: only the engine's turn can stop, and it has a step in every phase the invariant allows. -/
theorem noStepIsStuck : Obligations.NoStepIsStuck := by
  intro s hi
  cases hs : s.schedule with
  | nil => rw [step_alone s hs]; exact hi.engineStep_next
  | cons e es =>
    cases e with
    | engine => rw [step_of_engineTurn s _ (.inr ⟨es, hs, rfl⟩)]; exact (hi.withSchedule es).engineStep_next
    | bus t => exact ⟨_, step_of_bus s t es hs⟩
    | poll off mask val => exact ⟨_, step_of_poll s off mask val es hs⟩
    | reset => exact ⟨_, step_of_reset s es hs⟩

end Sys2Proof.Machine
end

section
/-! The CHECK step of EMBED and EXTRACT (spec/44_operation_selector.md R253 to R259, 42_embed.md R183, 43_extract.md R225): what it does with
a configuration that passes, and which error ends the operation otherwise. -/

namespace Sys2Proof.Machine

/-! ### The shared checks -/

theorem Transferable.byteWidth {bw : Nat} {s : State} (h : Transferable bw s) : byteWidth? s.cfg.bitDepth = some bw :=
  (byteWidth_eq_some _ _).2 h.depth

theorem transferBody_pass (go : State → State) {bw : Nat} {s : State} (h : Transferable bw s) :
    transferBody go bw s = go (writeCapacity bw s) :=
  rangeChecks_pass go bw (writeCapacity bw s) h.geometry h.fits h.stored

/-- Checks 4 to 6 in order, each with its ERR_INFO, after the CAPACITY write (44_operation_selector.md R255, R256): what the outcome `o` of
a CHECK is that has got as far. -/
theorem transferBody_errors {go : State → State} {bw : Nat} {s : State} {o : Result} (ho : o = .next (transferBody go bw s)) :
    (s.params.pixDepth < pixelCount s.geom →
      o = .next (raiseError .geometryRange (BitVec.ofNat 32 (pixelCount s.geom)) (writeCapacity bw s))) ∧
    (pixelCount s.geom ≤ s.params.pixDepth → capacityOf (pixelCount s.geom) bw < s.length.toNat →
      o = .next
        (raiseError .payloadTooLarge (BitVec.ofNat 32 (capacityOf (pixelCount s.geom) bw)) (writeCapacity bw s))) ∧
    (pixelCount s.geom ≤ s.params.pixDepth → s.length.toNat ≤ capacityOf (pixelCount s.geom) bw →
      s.params.payDepth < s.length.toNat →
      o = .next (raiseError .lengthRange (BitVec.ofNat 32 s.params.payDepth) (writeCapacity bw s))) := by
  subst ho
  refine ⟨fun hgeom => congrArg _ (if_pos hgeom), fun hgeom hfits => congrArg _ ?_,
    fun hgeom hfits hstored => congrArg _ ?_⟩
  · exact (if_neg (Nat.not_lt.2 hgeom)).trans (if_pos hfits)
  · exact (if_neg (Nat.not_lt.2 hgeom)).trans ((if_neg (Nat.not_lt.2 hfits)).trans (if_pos hstored))

/-! ### EMBED -/

theorem exec_embed_check (s : State) (hcheck : s.phase = .check) :
    exec .embed s = .next (withByteWidth (transferBody beginTransfer) s) := by
  simp only [exec, execEmbed, hcheck]

theorem exec_embed_legalDepth (s : State) (bw : Nat) (hcheck : s.phase = .check)
    (hdepth : byteWidth? s.cfg.bitDepth = some bw) : exec .embed s = .next (transferBody beginTransfer bw s) := by
  rw [exec_embed_check s hcheck, withByteWidth_some _ s bw hdepth]

/-- Settles O11: no check of a transferable configuration fails (`transferBody_pass`), and `N = 0` exactly when LENGTH is 0. -/
theorem embedCheckPasses : Obligations.EmbedCheckPasses := by
  intro s bw hcheck htransfer
  have hzero := payloadBits_zero (writeCapacity bw s)
  rw [exec_embed_legalDepth s bw hcheck htransfer.byteWidth, transferBody_pass beginTransfer htransfer, beginTransfer]
  simp only [hzero]
  rfl

/-- Settles O12: the depth is looked at first (`withByteWidth_none`), then the checks of `transferBody_errors`. -/
theorem embedRaisesTheFirstError : Obligations.EmbedRaisesTheFirstError := by
  intro s hcheck
  refine ⟨fun hdepth => ?depth, ?range⟩
  case depth => rw [exec_embed_check s hcheck, withByteWidth_none _ s ((byteWidth_eq_none _).2 hdepth)]
  case range =>
    rintro bw pc cap hlo hhi hdepth rfl rfl
    exact transferBody_errors (exec_embed_legalDepth s bw hcheck ((byteWidth_eq_some _ _).2 ⟨hlo, hhi, hdepth⟩))

/-! ### EXTRACT -/

theorem exec_extract_check (s : State) (hcheck : s.phase = .check) : exec .extract s = .next (extractCheck s) := by
  simp only [exec, execExtract, hcheck]

theorem extractCheck_illegalEnc (s : State) (henc : s.cfg.enc = 3#2) :
    extractCheck s = raiseError .illegalConfig (cfgWord s.cfg) s := by
  simp only [extractCheck, (encodingOf_eq_none _).2 henc]

theorem extractCheck_legalEnc (s : State) (henc : s.cfg.enc ≠ 3#2) :
    extractCheck s = withByteWidth (transferBody beginExtract) s := by
  obtain ⟨enc, he⟩ := Option.ne_none_iff_exists'.1 (mt (encodingOf_eq_none _).1 henc)
  simp only [extractCheck, he]

theorem exec_extract_legalDepth (s : State) (bw : Nat) (hcheck : s.phase = .check) (henc : s.cfg.enc ≠ 3#2)
    (hdepth : byteWidth? s.cfg.bitDepth = some bw) : exec .extract s = .next (transferBody beginExtract bw s) := by
  rw [exec_extract_check s hcheck, extractCheck_legalEnc s henc, withByteWidth_some _ s bw hdepth]

/-- Settles O19: as for EMBED (`embedCheckPasses`), with `xacc` cleared. -/
theorem extractCheckPasses : Obligations.ExtractCheckPasses := by
  intro s bw hcheck henc htransfer
  have hzero := payloadBits_zero { writeCapacity bw s with xacc := 0#8 }
  rw [exec_extract_legalDepth s bw hcheck henc htransfer.byteWidth, transferBody_pass beginExtract htransfer, beginExtract,
    beginTransfer]
  simp only [hzero]
  rfl

/-- Settles O20: ENC is looked at first, then the depth, then the checks that EXTRACT shares with EMBED (`transferBody_errors`). -/
theorem extractRaisesTheFirstError : Obligations.ExtractRaisesTheFirstError := by
  intro s hcheck
  refine ⟨fun henc => ?enc, fun henc hdepth => ?depth, ?range⟩
  case enc => rw [exec_extract_check s hcheck, extractCheck_illegalEnc s henc]; rfl
  case depth =>
    rw [exec_extract_check s hcheck, extractCheck_legalEnc s henc,
      withByteWidth_none _ s ((byteWidth_eq_none _).2 hdepth)]
  case range =>
    rintro bw pc cap henc hlo hhi hdepth rfl rfl
    exact transferBody_errors (exec_extract_legalDepth s bw hcheck henc ((byteWidth_eq_some _ _).2 ⟨hlo, hhi, hdepth⟩))

end Sys2Proof.Machine
end

section
/-! EMBED's pixels (spec/42_embed.md R184 to R187): what each step leaves of the image, and the closed form of one sample. -/

namespace Sys2Proof.Machine

/-! ### Progress -/

/-- Progress looks at PIXMEM, the payload, the cursor, the configuration and the depth of PIXMEM only. -/
theorem EmbedProgress.congr {bw : Nat} {X : Nat → Word} {s t : State} (h : EmbedProgress bw X s) (hpix : t.pixmem = s.pixmem)
    (hpay : t.paymem = s.paymem) (hr : t.r = s.r) (hcfg : t.cfg = s.cfg) (hlen : t.length = s.length)
    (hparams : t.params = s.params) : EmbedProgress bw X t := by
  intro p hp
  rw [readWord_congr t s .pix p hpix, embeddedSample_congr s t bw p (X p) hpay hcfg hlen, hr]
  exact h p (hparams ▸ hp)

/-- A RUN step embeds the pixel at the cursor, which held its original sample, and moves the cursor past it (42_embed.md R181). -/
theorem EmbedProgress.embedPixel {bw : Nat} {X : Nat → Word} {s : State} (h : EmbedProgress bw X s) (hbw : 1 ≤ bw)
    (hr : s.r.toNat < payloadBits s) (hm : s.r.toNat % bw = 0) (hlen : s.length.toNat ≤ s.params.payDepth) :
    EmbedProgress bw X (embedPixel bw s) := by
  intro p hp
  have hcursor : s.r.toNat / bw * bw = s.r.toNat := Nat.div_mul_cancel (Nat.dvd_of_mod_eq_zero hm)
  have hle := stepLanes_le bw s
  obtain ⟨hmoves, -⟩ := stepLanes_bounds hbw hr
  rw [readWord_embedPixel, embedPixel_r_toNat bw s hr hlen,
    embeddedSample_congr s (Machine.embedPixel bw s) bw p (X p) rfl rfl rfl]
  by_cases hhere : p = s.r.toNat / bw
  · have hold := h p hp
    rw [if_neg (by rw [hhere]; omega)] at hold
    rw [if_pos hhere, if_pos (by rw [hhere]; omega), embeddedWord_eq bw s hm, ← hhere, hold]
  · have hsame : p * bw < s.r.toNat + stepLanes bw s ↔ p * bw < s.r.toNat := by
      rcases Nat.lt_or_gt_of_ne hhere with hlt | hgt
      · have := Nat.mul_le_mul_right bw (Nat.succ_le_of_lt hlt)
        rw [Nat.succ_mul] at this
        omega
      · have := Nat.mul_le_mul_right bw (Nat.succ_le_of_lt hgt)
        rw [Nat.succ_mul] at this
        omega
    rw [if_neg hhere, h p hp]
    simp only [hsame]

/-- An EMBED in RUN takes its pixel step. -/
theorem EngineMove.embed_run {s s' : State} (h : EngineMove s s') (hrun : s.phase = .run) (hop : s.opw = encode .embed) :
    ∃ bw, s' = Machine.embedPixel bw s ∧ byteWidth? s.cfg.bitDepth = some bw ∧ s.r.toNat < payloadBits s ∧
      s.r.toNat % bw = 0 ∧ s.length.toNat ≤ s.params.payDepth := by
  cases h with
  | embedPixel bw hp ho hbw hr hm hx hl => exact ⟨bw, rfl, hbw, hr, hm, hl⟩
  | extractPixel bw hp ho => exact absurd (encode_injective (hop.symm.trans ho)) nofun
  | _ => simp_all

/-- Settles O16: a RUN step of the engine is `EmbedProgress.embedPixel`; no other step of the engine and no transaction while BUSY
reaches anything that progress looks at. -/
theorem embedProgressSurvivesTheHost : Obligations.EmbedProgressSurvivesTheHost := by
  intro X bw s s' hi hbusy hop hdepth hnoreset h hprogress
  rcases step_busy_cases hbusy hnoreset h with ⟨es, hmove⟩ | ⟨es, st, ie, re, rfl⟩
  · by_cases hrun : s.phase = .run
    · obtain ⟨bw', rfl, hbw', hr, hm, hlen⟩ := hmove.embed_run hrun hop
      obtain rfl : bw = bw' := Option.some.inj (hdepth.symm.trans hbw')
      obtain ⟨hlo, -, -⟩ := (byteWidth_eq_some _ _).1 hdepth
      exact EmbedProgress.embedPixel (hprogress.congr rfl rfl rfl rfl rfl rfl) hlo hr hm hlen
    · obtain ⟨hpix, hpay, hr⟩ := hmove.of_not_run hrun
      have hframe := hmove.untouched
      exact hprogress.congr hpix hpay hr hframe.cfg hframe.length hframe.params
  · exact hprogress.congr rfl rfl rfl rfl rfl rfl

/-! ### What stays of a pixel -/

/-- After a move of an operation a pixel is the one before it, or the one that EMBED's RUN step writes. -/
theorem EngineMove.pixel_cases {s s' : State} (h : EngineMove s s') (p : Nat) :
    readWord .pix p s' = readWord .pix p s ∨
    ∃ bw, byteWidth? s.cfg.bitDepth = some bw ∧ s.r.toNat % bw = 0 ∧ p = s.r.toNat / bw ∧
      readWord .pix p s' = embeddedWord bw s := by
  cases h with
  | embedPixel bw hp ho hbw hr hm =>
    rw [readWord_embedPixel]
    by_cases hhere : p = s.r.toNat / bw
    · exact .inr ⟨bw, hbw, hm, hhere, if_pos hhere⟩
    · exact .inl (if_neg hhere)
  | extractPixel bw => exact .inl (readWord_congr _ s .pix p (extractPixel_pixmem bw s))
  | _ => exact .inl rfl

/-- The lanes that carry no payload bit keep their bits (42_embed.md R185): their indexes lie past the lanes of this step. -/
theorem lbit_embeddedWord_unused (bw L : Nat) (s : State) (hbw : bw ≤ 32) (hm : s.r.toNat % bw = 0)
    (hL : L < bw) (hunused : payloadBits s ≤ s.r.toNat / bw * bw + L) :
    lbit (embeddedWord bw s) L bw = lbit (readWord .pix (s.r.toNat / bw) s) L bw := by
  rw [Nat.div_mul_cancel (Nat.dvd_of_mod_eq_zero hm)] at hunused
  refine embeddedWord_getLsbD_other bw _ s hbw ?_
  unfold stepLanes laneCount lanePos
  omega

/-- Settles O17: only EMBED's RUN step writes a pixel, and it keeps every bit that is no lane of its payload
(`embeddedWord_getLsbD_other`, `lbit_embeddedWord_unused`). -/
theorem bitsOutsideThePayloadLanesStay : Obligations.BitsOutsideThePayloadLanesStay := by
  intro s t s' bw hturn h hdepth p
  obtain ⟨-, hhi, -⟩ := (byteWidth_eq_some _ _).1 hdepth
  obtain ⟨es, ⟨-, rfl⟩ | ⟨-, hmove⟩⟩ := hturn.cases h
  · exact ⟨fun _ _ => rfl, fun _ _ _ => rfl⟩
  rcases hmove.pixel_cases p with e | ⟨bw', hbw', hm, rfl, e⟩ <;> rw [e]
  · exact ⟨fun _ _ => rfl, fun _ _ _ => rfl⟩
  · obtain rfl : bw = bw' := Option.some.inj (hdepth.symm.trans hbw')
    exact ⟨fun j hj => embeddedWord_getLsbD_other bw j _ (by omega) (by omega),
      fun L hL hunused => lbit_embeddedWord_unused bw L _ (by omega) hm hL hunused⟩

/-! ### The closed form twice -/

/-- A second embedding of the same lanes changes nothing in REPLACE mode and undoes the first in XOR_SOURCE mode. -/
theorem combine_combine (m : Mode) (x acc mask : Word) :
    combine m (combine m x acc mask) acc mask = match m with
      | .replace => combine m x acc mask
      | .xorSource => x := by
  cases m with
  | replace =>
    refine BitVec.eq_of_getLsbD_eq fun i hi => ?_
    simp only [combine, BitVec.getLsbD_or, BitVec.getLsbD_and, BitVec.getLsbD_not, hi, decide_true, Bool.true_and]
    cases x.getLsbD i <;> cases acc.getLsbD i <;> cases mask.getLsbD i <;> rfl
  | xorSource => simp only [combine, BitVec.xor_assoc, BitVec.xor_self, BitVec.xor_zero]

/-- Settles O18: the closed form combines every sample with the lanes of its pixel, which do not depend on the sample. -/
theorem secondEmbeddingKeepsOrRestores : Obligations.SecondEmbeddingKeepsOrRestores := by
  intro s bw p x
  refine ⟨fun hmode => ?replace, fun hmode => ?xor⟩
  case replace =>
    have hm : modeOf s.cfg.mode = .replace := by rw [hmode]; rfl
    simp only [embeddedSample, hm, combine_combine]
  case xor =>
    have hm : modeOf s.cfg.mode = .xorSource := by rw [hmode]; rfl
    simp only [embeddedSample, hm, combine_combine]

end Sys2Proof.Machine
end

section
/-! EXTRACT's bytes (spec/43_extract.md R221, R226, 10_state.md R63): what each step leaves of the recovered bytes and of the byte in
progress. -/

namespace Sys2Proof.Machine

/-! ### Recovered bits -/

theorem recoveredByte_congr (s t : State) (bw j : Nat) (hpix : t.pixmem = s.pixmem) (href : t.refmem = s.refmem)
    (hcfg : t.cfg = s.cfg) : recoveredByte t bw j = recoveredByte s bw j := by
  simp only [recoveredByte, recoveredBit_congr s t bw _ hpix href hcfg]

theorem recoveredByte_getLsbD (s : State) (bw j m : Nat) (hm : m < 8) :
    (recoveredByte s bw j).getLsbD m = recoveredBit s bw (8 * j + (7 - m)) :=
  unpack_getLsbD _ m hm

/-- The lanes of the pixel at an aligned cursor are the recovered bits from the cursor on (42_embed.md R170). -/
theorem lbit_recoveryValue (s : State) (bw r L : Nat) (hm : r % bw = 0) (hL : L < bw) :
    lbit (recoveryValue s (r / bw)) L bw = recoveredBit s bw (r + L) := by
  have hcursor : bw * (r / bw) = r := Nat.mul_div_cancel' (Nat.dvd_of_mod_eq_zero hm)
  have hpixel : (r + L) / bw = r / bw := by
    conv_lhs => rw [← hcursor, Nat.mul_add_div (Nat.zero_lt_of_lt hL), Nat.div_eq_of_lt hL, Nat.add_zero]
  have hlane : (r + L) % bw = L := by
    rw [Nat.add_mod, hm, Nat.zero_add, Nat.mod_mod, Nat.mod_eq_of_lt hL]
  simp only [recoveredBit, channelIndex, hpixel, hlane]

/-! ### Progress -/

/-- Progress looks at the memories, the cursor, `xacc` and the configuration only. -/
theorem ExtractProgress.congr {bw : Nat} {Y : Nat → Byte} {s t : State} (h : ExtractProgress bw Y s)
    (hpix : t.pixmem = s.pixmem) (href : t.refmem = s.refmem) (hpay : t.paymem = s.paymem) (hr : t.r = s.r)
    (hx : t.xacc = s.xacc) (hcfg : t.cfg = s.cfg) : ExtractProgress bw Y t where
  recovered := fun j hj => by
    rw [readByte_congr t s .pay j hpay, recoveredByte_congr s t bw j hpix href hcfg]
    exact h.recovered j (hr ▸ hj)
  old := fun j hj => by
    rw [readByte_congr t s .pay j hpay]
    exact h.old j (hr ▸ hj)
  current := fun t' ht => by
    rw [hr] at ht ⊢
    rw [hx, recoveredBit_congr s t bw _ hpix href hcfg]
    exact h.current t' ht

/-! ### One RUN step -/

theorem recoveredBit_extractPixel (s : State) (bw i : Nat) :
    recoveredBit (extractPixel bw s) bw i = recoveredBit s bw i := by
  rw [extractPixel_eq]
  exact recoveredBit_congr s _ bw i rfl rfl rfl

theorem recoveredByte_extractPixel (s : State) (bw j : Nat) :
    recoveredByte (extractPixel bw s) bw j = recoveredByte s bw j := by
  simp only [recoveredByte, recoveredBit_extractPixel]

/-- A RUN step with a lane `L` that completes a byte: the byte holds the bits of `xacc` above those of the lanes up to `L`, and `xacc` the
bits of the lanes after it (43_extract.md R221). -/
theorem ExtractProgress.extractPixel_stores {bw : Nat} {Y : Nat → Byte} {s : State} (h : ExtractProgress bw Y s) (hbw : bw ≤ 4)
    (hr : s.r.toNat < payloadBits s) (hm : s.r.toNat % bw = 0) (hlen : s.length.toNat ≤ s.params.payDepth) {L : Nat}
    (hL : L < stepLanes bw s) (h7 : (s.r.toNat + L) % 8 = 7) : ExtractProgress bw Y (extractPixel bw s) := by
  obtain ⟨hrecovered, hold, hcurrent⟩ := h
  have hlanes := stepLanes_le bw s
  have hbit (i : Nat) (hi : i < bw) := lbit_recoveryValue s bw s.r.toNat i hm hi
  obtain ⟨hother, hstored, hx⟩ := extractLanes_stores bw s.r.toNat (stepLanes bw s) L
    (recoveryValue s (s.r.toNat / bw)) s (by omega) hL h7
  have hbyte : (s.r.toNat + L) / 8 = s.r.toNat / 8 := by omega
  have hnext : (s.r.toNat + stepLanes bw s) / 8 = s.r.toNat / 8 + 1 := by omega
  have hrest : (s.r.toNat + stepLanes bw s) % 8 = stepLanes bw s - (L + 1) := by omega
  have hcursor := extractPixel_r_toNat bw s hr hlen
  refine ⟨fun j hj => ?recovered, fun j hj => ?old, fun t ht => ?current⟩
  case recovered =>
    rw [hcursor, hnext] at hj
    rw [readByte_extractPixel, recoveredByte_extractPixel]
    by_cases hhere : j = s.r.toNat / 8
    · refine BitVec.eq_of_getLsbD_eq fun m hm8 => ?_
      rw [hhere, ← hbyte, hstored m hm8, recoveredByte_getLsbD s bw _ m hm8, hbyte]
      by_cases hnew : m ≤ L
      · rw [if_pos hnew, hbit (L - m) (by omega)]
        congr 1
        omega
      · rw [if_neg hnew, ← hcurrent (7 - m) (by omega)]
        congr 1
        omega
    · rw [hother j (by omega), hrecovered j (by omega)]
  case old =>
    rw [hcursor, hnext] at hj
    rw [readByte_extractPixel, hother j (by omega), hold j (by omega)]
  case current =>
    rw [hcursor, hrest] at ht
    have hkept : stepLanes bw s - (L + 1) - 1 - t + L + 1 < stepLanes bw s := by omega
    rw [hcursor, hnext, hrest, extractPixel_xacc, recoveredBit_extractPixel, hx, decide_eq_true hkept, Bool.true_and,
      hbit _ (by omega)]
    congr 1
    omega

/-- A RUN step whose lanes complete no byte: their bits go below those of `xacc` (43_extract.md R221). -/
theorem ExtractProgress.extractPixel_shifts {bw : Nat} {Y : Nat → Byte} {s : State} (h : ExtractProgress bw Y s) (hbw : bw ≤ 4)
    (hr : s.r.toNat < payloadBits s) (hm : s.r.toNat % bw = 0) (hlen : s.length.toNat ≤ s.params.payDepth)
    (hno : ∀ L, L < stepLanes bw s → (s.r.toNat + L) % 8 ≠ 7) : ExtractProgress bw Y (extractPixel bw s) := by
  obtain ⟨hrecovered, hold, hcurrent⟩ := h
  have hlanes := stepLanes_le bw s
  have hbit (i : Nat) (hi : i < bw) := lbit_recoveryValue s bw s.r.toNat i hm hi
  obtain ⟨hpay, hx⟩ := extractLanes_keeps bw s.r.toNat (stepLanes bw s) (recoveryValue s (s.r.toNat / bw)) s (by omega) hno
  have hroom : s.r.toNat % 8 + stepLanes bw s ≤ 7 := by
    by_contra hover
    exact hno (7 - s.r.toNat % 8) (by omega) (by omega)
  have hsame : (s.r.toNat + stepLanes bw s) / 8 = s.r.toNat / 8 := by omega
  have hrest : (s.r.toNat + stepLanes bw s) % 8 = s.r.toNat % 8 + stepLanes bw s := by omega
  have hcursor := extractPixel_r_toNat bw s hr hlen
  refine ⟨fun j hj => ?recovered, fun j hj => ?old, fun t ht => ?current⟩
  case recovered =>
    rw [hcursor, hsame] at hj
    rw [readByte_extractPixel, recoveredByte_extractPixel, hpay, hrecovered j hj]
  case old =>
    rw [hcursor, hsame] at hj
    rw [readByte_extractPixel, hpay, hold j hj]
  case current =>
    rw [hcursor, hrest] at ht
    rw [hcursor, hsame, hrest, extractPixel_xacc, recoveredBit_extractPixel, hx _ (by omega)]
    by_cases hnew : s.r.toNat % 8 + stepLanes bw s - 1 - t < stepLanes bw s
    · rw [if_pos hnew, hbit _ (by omega)]
      congr 1
      omega
    · rw [if_neg hnew, ← hcurrent t (by omega)]
      congr 1
      omega

theorem ExtractProgress.extractPixel {bw : Nat} {Y : Nat → Byte} {s : State} (h : ExtractProgress bw Y s) (hbw : bw ≤ 4)
    (hr : s.r.toNat < payloadBits s) (hm : s.r.toNat % bw = 0) (hlen : s.length.toNat ≤ s.params.payDepth) :
    ExtractProgress bw Y (extractPixel bw s) := by
  by_cases hfull : ∃ L, L < stepLanes bw s ∧ (s.r.toNat + L) % 8 = 7
  · obtain ⟨L, hL, h7⟩ := hfull
    exact h.extractPixel_stores hbw hr hm hlen hL h7
  · exact h.extractPixel_shifts hbw hr hm hlen fun L hL h7 => hfull ⟨L, hL, h7⟩

/-! ### Any step -/

/-- An EXTRACT in RUN takes its pixel step. -/
theorem EngineMove.extract_run {s s' : State} (h : EngineMove s s') (hrun : s.phase = .run) (hop : s.opw = encode .extract) :
    ∃ bw, s' = Machine.extractPixel bw s ∧ byteWidth? s.cfg.bitDepth = some bw ∧ s.r.toNat < payloadBits s ∧
      s.r.toNat % bw = 0 ∧ s.length.toNat ≤ s.params.payDepth := by
  cases h with
  | extractPixel bw hp ho hbw hr hm hx hl => exact ⟨bw, rfl, hbw, hr, hm, hl⟩
  | embedPixel bw hp ho => exact absurd (encode_injective (hop.symm.trans ho)) nofun
  | _ => simp_all

/-- Outside RUN only EXTRACT's CHECK writes `xacc`, which is 0 there already. -/
theorem EngineMove.xacc_of_not_run {s s' : State} (h : EngineMove s s') (hrun : s.phase ≠ .run)
    (hcheck : s.phase = .check → s.xacc = 0#8) : s'.xacc = s.xacc := by
  cases h with
  | beginExtract bw hp => exact (hcheck hp).symm
  | extractPixel bw hp => exact absurd hp hrun
  | _ => rfl

/-- Settles O24: a RUN step of the engine is `ExtractProgress.extractPixel`; no other step of the engine and no transaction while BUSY
reaches anything that progress looks at. -/
theorem extractProgressSurvivesTheHost : Obligations.ExtractProgressSurvivesTheHost := by
  intro Y bw s s' hi hbusy hop hdepth hnoreset h hprogress
  rcases step_busy_cases hbusy hnoreset h with ⟨es, hmove⟩ | ⟨es, st, ie, re, rfl⟩
  · by_cases hrun : s.phase = .run
    · obtain ⟨bw', rfl, hbw', hr, hm, hlen⟩ := hmove.extract_run hrun hop
      obtain rfl : bw = bw' := Option.some.inj (hdepth.symm.trans hbw')
      obtain ⟨-, hhi, -⟩ := (byteWidth_eq_some _ _).1 hdepth
      exact ExtractProgress.extractPixel (hprogress.congr rfl rfl rfl rfl rfl rfl) hhi hr hm hlen
    · obtain ⟨hpix, hpay, hr⟩ := hmove.of_not_run hrun
      have hx : s'.xacc = s.xacc := hmove.xacc_of_not_run hrun fun hcheck => by
        obtain ⟨-, -, hzero⟩ := hi.check hcheck
        exact hzero
      have hframe := hmove.untouched
      exact hprogress.congr hpix hframe.refmem hpay hr hx hframe.cfg
  · exact hprogress.congr rfl rfl rfl rfl rfl rfl

end Sys2Proof.Machine
end

section
/-! Runs of the engine alone (spec/44_operation_selector.md R261, R266): the pixels one after another, a whole EMBED, a whole EXTRACT, and
that every operation ends. -/

namespace Sys2Proof.Machine

/-! ### The pixels -/

/-- In RUN at the first lane of a pixel, of a payload of `n` bits (42_embed.md R181). -/
structure AtPixel (bw n : Nat) (u : State) : Prop where
  run : u.phase = .run
  inside : u.r.toNat < n
  aligned : u.r.toNat % bw = 0

/-- The next step keeps `P` and moves the cursor over the lanes of its pixel, to FINISH when it is then at `n`. -/
def PixelStep (bw n : Nat) (P : State → Prop) (u : State) : Prop :=
  ∃ v, step u = .next v ∧ P v ∧ v.r.toNat = u.r.toNat + laneCount bw n u.r.toNat ∧
    v.phase = if v.r.toNat = n then .finish else .run

/-- The RUN steps of an operation, one for each pixel left, lead to FINISH with the cursor at `n`. -/
theorem runSteps_pixels {bw n : Nat} (hbw : 1 ≤ bw) (P : State → Prop)
    (hstep : ∀ u, P u → AtPixel bw n u → PixelStep bw n P u) :
    ∀ m u, P u → u.r.toNat ≤ n → u.r.toNat % bw = 0 ∨ u.r.toNat = n → u.phase = (if u.r.toNat = n then .finish else .run) →
      (n - u.r.toNat + bw - 1) / bw = m → ∃ t, runSteps m u = .next t ∧ P t ∧ t.phase = .finish ∧ t.r.toNat = n := by
  intro m
  induction m with
  | zero =>
    intro u hP hle _ hphase hm
    have hend : u.r.toNat = n := by
      have := (Nat.div_eq_zero_iff_lt (by omega)).1 hm
      omega
    exact ⟨u, runSteps_zero u, hP, by rw [hphase, if_pos hend], hend⟩
  | succ m ih =>
    intro u hP hle haligned hphase hm
    have hlt : u.r.toNat < n := by
      by_contra hend
      rw [Nat.div_eq_of_lt (by omega)] at hm
      omega
    rw [if_neg (by omega)] at hphase
    have haligned : u.r.toNat % bw = 0 := haligned.resolve_right (by omega)
    obtain ⟨v, hv, hPv, hr, hvphase⟩ := hstep u hP ⟨hphase, hlt, haligned⟩
    rw [runSteps_succ m u v hv]
    rw [show n - u.r.toNat + bw - 1 = n - u.r.toNat - 1 + bw by omega, Nat.add_div_right _ (by omega)] at hm
    unfold laneCount at hr
    by_cases hlast : n - u.r.toNat ≤ bw
    · refine ih v hPv (by omega) (.inr (by omega)) hvphase ?_
      rw [Nat.div_eq_of_lt (by omega)] at hm
      rw [Nat.div_eq_of_lt (by omega)]
      omega
    · refine ih v hPv (by omega) (.inl ?_) hvphase ?_
      · rw [hr, Nat.min_eq_left (by omega), Nat.add_mod_right, haligned]
      · rw [hr, Nat.min_eq_left (by omega), show n - (u.r.toNat + bw) + bw - 1 = n - u.r.toNat - 1 by omega]
        omega

/-- A transfer up to its FINISH step: CHECK, then its pixels. -/
theorem runSteps_transfer {bw : Nat} {s c : State} (hbw : 1 ≤ bw) (P : State → Prop)
    (hstep : ∀ u, P u → AtPixel bw (payloadBits s) u → PixelStep bw (payloadBits s) P u)
    (hcheck : step s = .next c) (hP : P c) (hr : c.r = 0#32)
    (hphase : c.phase = if payloadBits s = 0 then .finish else .run) :
    ∃ t, runSteps (1 + touchedPixels bw s) s = .next t ∧ P t ∧ t.phase = .finish ∧ t.r.toNat = payloadBits s := by
  have hr0 : c.r.toNat = 0 := by rw [hr]; rfl
  rw [Nat.add_comm, runSteps_succ _ s c hcheck]
  refine runSteps_pixels hbw P hstep _ c hP (by omega) (.inl (by rw [hr0, Nat.zero_mod])) ?_ ?_
  · rw [hphase, hr0]
    simp only [eq_comm]
  · rw [hr0]; rfl

/-- The engine alone takes the step of the command in progress. -/
theorem step_alone_of_opw {i : Instr} {u : State} (hs : u.schedule = []) (hop : u.opw = encode i) (hbusy : u.phase ≠ .idle) :
    step u = exec i u := by
  rw [step_alone u hs, engineStep_of_opw u i hbusy hop]

/-- The engine alone takes a RUN step: in a transferable configuration its entry condition holds (41_capacity.md R154). -/
theorem step_of_atPixel {i : Instr} {body : Nat → State → State} {bw : Nat} {u : State} (hs : u.schedule = [])
    (hop : u.opw = encode i) (hu : Transferable bw u) (hat : AtPixel bw (payloadBits u) u)
    (hexec : exec i u = runStep body u) : step u = .next (body bw u) := by
  obtain ⟨hlo, -, -⟩ := hu.depth
  rw [step_alone_of_opw hs hop (by simp [hat.run]), hexec]
  exact runStep_of_entry body u bw hu.byteWidth hat.inside hat.aligned
    (cursor_pixel_lt bw _ _ _ _ hlo hu.fits hat.inside hu.geometry) hu.stored

/-! ### EMBED -/

/-- An EMBED on the image `X` that runs alone, after the state `s` it was accepted in: the fields that its steps change, and the progress of
its pixels. -/
structure EmbedRun (bw : Nat) (X : Nat → Word) (s u : State) : Prop where
  frame : ∃ m c r ph, u = { s with pixmem := m, capacity := c, r := r, phase := ph }
  progress : EmbedProgress bw X u

theorem EmbedRun.step {bw : Nat} {X : Nat → Word} {s u : State} (h : EmbedRun bw X s u) (hs : s.schedule = [])
    (hop : s.opw = encode .embed) (ht : Transferable bw s) (hat : AtPixel bw (payloadBits s) u) :
    PixelStep bw (payloadBits s) (EmbedRun bw X s) u := by
  obtain ⟨⟨m, c, r, ph, rfl⟩, hprogress⟩ := h
  set u : State := { s with pixmem := m, capacity := c, r := r, phase := ph }
  obtain ⟨hlo, -, -⟩ := ht.depth
  have hcursor := embedPixel_r_toNat bw u hat.inside ht.stored
  refine ⟨embedPixel bw u, ?_, ⟨⟨_, _, _, _, rfl⟩, hprogress.embedPixel hlo hat.inside hat.aligned ht.stored⟩, hcursor, ?_⟩
  · exact step_of_atPixel hs hop ⟨ht.depth, ht.geometry, ht.fits, ht.stored⟩ hat (exec_embed_run u hat.run)
  · rw [embedPixel_phase, hcursor, hat.run]
    rfl

/-- The CHECK step of an accepted EMBED. -/
theorem Accepted.embed_check {bw : Nat} {s : State} (ha : Accepted .embed s) (ht : Transferable bw s) :
    step s = .next (beginTransfer (writeCapacity bw s)) := by
  rw [step_alone_of_opw ha.alone ha.opw (by simp [ha.phase]),
    exec_embed_legalDepth s bw ha.phase ht.byteWidth, transferBody_pass beginTransfer ht]

/-- Settles O15: CHECK, the pixels (`runSteps_transfer`), and FINISH, which completes. -/
theorem embedReachesItsClosedForm : Obligations.EmbedReachesItsClosedForm := by
  intro s bw ha ht
  obtain ⟨hlo, -, -⟩ := ht.depth
  have hr0 : s.r.toNat = 0 := by rw [ha.cursor]; rfl
  have hbegin : EmbedRun bw (fun p => readWord .pix p s) s (beginTransfer (writeCapacity bw s)) :=
    ⟨⟨_, _, _, _, rfl⟩, fun p _ => (if_neg (by rw [beginTransfer_r, writeCapacity_r, hr0]; omega)).symm⟩
  obtain ⟨u, hu, ⟨⟨m, c, r, ph, rfl⟩, hprogress⟩, hfinish, hr⟩ := runSteps_transfer hlo
    (EmbedRun bw (fun p => readWord .pix p s) s) (fun u h => h.step ha.alone ha.opw ht) (ha.embed_check ht) hbegin ha.cursor
    (beginTransfer_phase _)
  set u : State := { s with pixmem := m, capacity := c, r := r, phase := ph }
  refine ⟨complete u, ?run, rfl, hr, fun p hp => ?pixel⟩
  case run =>
    rw [show 2 + touchedPixels bw s = 1 + touchedPixels bw s + 1 by omega, runSteps_last _ _ _ hu]
    rw [← exec_embed_finish u hfinish]
    exact step_alone_of_opw ha.alone ha.opw (by simp [hfinish])
  case pixel =>
    have h := hprogress p hp
    simp only [hr, ← lt_touchedPixels_iff bw s hlo p] at h
    exact h

/-! ### EXTRACT -/

/-- An EXTRACT over the old payload memory `Y` that runs alone, after the state `s` it was accepted in. -/
structure ExtractRun (bw : Nat) (Y : Nat → Byte) (s u : State) : Prop where
  frame : ∃ m c r ph x, u = { s with paymem := m, capacity := c, r := r, phase := ph, xacc := x }
  progress : ExtractProgress bw Y u

theorem ExtractRun.step {bw : Nat} {Y : Nat → Byte} {s u : State} (h : ExtractRun bw Y s u) (hs : s.schedule = [])
    (hop : s.opw = encode .extract) (ht : Transferable bw s) (hat : AtPixel bw (payloadBits s) u) :
    PixelStep bw (payloadBits s) (ExtractRun bw Y s) u := by
  obtain ⟨⟨m, c, r, ph, x, rfl⟩, hprogress⟩ := h
  set u : State := { s with paymem := m, capacity := c, r := r, phase := ph, xacc := x }
  obtain ⟨-, hhi, -⟩ := ht.depth
  have hcursor := extractPixel_r_toNat bw u hat.inside ht.stored
  refine ⟨extractPixel bw u, ?_, ⟨⟨_, _, _, _, _, extractPixel_eq bw u⟩,
    hprogress.extractPixel hhi hat.inside hat.aligned ht.stored⟩, hcursor, ?_⟩
  · exact step_of_atPixel hs hop ⟨ht.depth, ht.geometry, ht.fits, ht.stored⟩ hat (exec_extract_run u hat.run)
  · rw [extractPixel_phase, hcursor, hat.run]
    rfl

/-- The CHECK step of an accepted EXTRACT. -/
theorem Accepted.extract_check {bw : Nat} {s : State} (ha : Accepted .extract s) (ht : Transferable bw s)
    (henc : encodingOf s.cfg.enc ≠ none) : step s = .next (beginExtract (writeCapacity bw s)) := by
  rw [step_alone_of_opw ha.alone ha.opw (by simp [ha.phase]),
    exec_extract_legalDepth s bw ha.phase (mt (encodingOf_eq_none _).2 henc) ht.byteWidth, transferBody_pass beginExtract ht]

/-- Before its first pixel an EXTRACT has recovered nothing. -/
theorem extractProgress_begin (bw : Nat) (s : State) (hr : s.r = 0#32) :
    ExtractProgress bw (fun j => readByte .pay j s) (beginExtract (writeCapacity bw s)) := by
  have hr0 : (beginExtract (writeCapacity bw s)).r.toNat = 0 := congrArg BitVec.toNat hr
  refine ⟨fun j hj => ?_, fun j _ => rfl, fun t ht => ?_⟩
  · rw [hr0] at hj; omega
  · rw [hr0] at ht; omega

/-- An accepted EXTRACT up to its FINISH step: the bytes of the payload are recovered (43_extract.md R226). -/
theorem Accepted.extract_run {bw : Nat} {s : State} (ha : Accepted .extract s) (ht : Transferable bw s)
    (henc : encodingOf s.cfg.enc ≠ none) :
    ∃ u, runSteps (1 + touchedPixels bw s) s = .next u ∧ ExtractRun bw (fun j => readByte .pay j s) s u ∧
      u.phase = .finish ∧ u.r.toNat = payloadBits s := by
  obtain ⟨hlo, -, -⟩ := ht.depth
  exact runSteps_transfer hlo (ExtractRun bw (fun j => readByte .pay j s) s) (fun u h => h.step ha.alone ha.opw ht)
    (ha.extract_check ht henc) ⟨⟨_, _, _, _, _, rfl⟩, extractProgress_begin bw s ha.cursor⟩ ha.cursor (beginTransfer_phase _)

/-- PAYMEM at the end of an EXTRACT's run: the recovered bytes, and the old ones after them. -/
theorem ExtractRun.readByte_pay {bw : Nat} {Y : Nat → Byte} {s u : State} (h : ExtractRun bw Y s u)
    (hr : u.r.toNat = payloadBits s) (j : Nat) :
    readByte .pay j u = if j < s.length.toNat then recoveredByte s bw j else Y j := by
  obtain ⟨⟨m, c, r, ph, x, rfl⟩, hrecovered, hold, -⟩ := h
  rw [hr] at hrecovered hold
  have hlen : payloadBits s / 8 = s.length.toNat := Nat.mul_div_cancel_left _ (by omega)
  rw [hlen] at hrecovered hold
  by_cases hj : j < s.length.toNat
  · rw [if_pos hj, hrecovered j hj]
    exact recoveredByte_congr s _ bw j rfl rfl rfl
  · rw [if_neg hj, hold j (by omega)]

/-- Settles O23: CHECK, the pixels, and FINISH, whose verdict is on the recovered bytes. -/
theorem extractReachesItsClosedForm : Obligations.ExtractReachesItsClosedForm := by
  intro s bw enc ha ht henc
  obtain ⟨u, hu, hrun, hfinish, hr⟩ := ha.extract_run ht (by simp [henc])
  have hpay := hrun.readByte_pay hr
  obtain ⟨⟨m, c, r, ph, x, rfl⟩, -⟩ := hrun
  set u : State := { s with paymem := m, capacity := c, r := r, phase := ph, xacc := x }
  have hpayload : payload u = (List.range s.length.toNat).map fun j => recoveredByte s bw j :=
    List.map_congr_left fun j hj => by rw [hpay, if_pos (List.mem_range.1 hj)]
  have hlast : runSteps (2 + touchedPixels bw s) s = exec .extract u := by
    rw [show 2 + touchedPixels bw s = 1 + touchedPixels bw s + 1 by omega, runSteps_last _ _ _ hu]
    exact step_alone_of_opw ha.alone ha.opw (by simp [hfinish])
  rw [hlast, ← hpayload]
  cases hverdict : validate enc (payload u) with
  | none =>
    exact ⟨complete u, exec_extract_wellFormed u enc hfinish henc ht.stored hverdict, rfl, rfl, hr, rfl, rfl, hpay,
      ha.unreported.err, ha.unreported.code, ha.unreported.info⟩
  | some info =>
    refine ⟨raiseError .decodingError (BitVec.ofNat 32 info) u,
      exec_extract_illFormed u enc info hfinish henc ht.stored hverdict, rfl, rfl, hr, rfl, rfl, hpay, rfl, rfl, ?_⟩
    have hle := validate_le enc _ info hverdict
    rw [payload, List.length_map, List.length_range] at hle
    exact Nat.mod_eq_of_lt (Nat.lt_of_le_of_lt hle u.length.isLt)

end Sys2Proof.Machine
end

section
/-! Every operation ends (spec/44_operation_selector.md R266): each move of an operation leaves fewer moves to come. -/

namespace Sys2Proof.Machine

/-- A bound on the moves an operation has still to make: one for each payload bit not moved yet, CHECK and FINISH. -/
def movesLeft (s : State) : Nat :=
  match s.phase with
  | .idle => 0
  | .check => 2 + payloadBits s
  | .run => 1 + (payloadBits s - s.r.toNat)
  | .finish => 1

theorem movesLeft_le (s : State) : movesLeft s ≤ 2 + payloadBits s := by
  unfold movesLeft
  cases s.phase with
  | idle => exact Nat.zero_le _
  | check => exact Nat.le_refl _
  | run => simp only; omega
  | finish => simp only; omega

theorem EngineMove.movesLeft_lt {s s' : State} (h : EngineMove s s') : movesLeft s' < movesLeft s := by
  have hn : payloadBits s' = payloadBits s := congrArg (fun l : Word => 8 * l.toNat) h.untouched.length
  unfold movesLeft
  rcases h.phase_cases with ⟨hp, hp'⟩ | ⟨hp, hp', -⟩ | ⟨hp, hp', -⟩ | ⟨hp, hp', -⟩ | ⟨hp, hp', hr⟩ | ⟨hp, hp', -⟩ <;>
    simp only [hp, hp', hn]
  · obtain ⟨hlt, hle, hphase⟩ := h.of_run hp
    have hend : s'.r.toNat ≠ payloadBits s := fun hend => by rw [hp', if_pos hend] at hphase; cases hphase
    omega
  · omega
  · omega
  · omega
  · have := (h.of_run hp).1
    omega
  · omega

/-- The engine alone ends an operation within the moves it has left: there is always a next one (`Inv.engineStep_next`). -/
theorem Inv.operation_ends {s : State} (hi : Inv s) (hs : s.schedule = []) (hbusy : s.phase ≠ .idle) :
    ∃ n t, n ≤ movesLeft s ∧ runSteps n s = .next t ∧ t.phase = .idle ∧ t.status.done = true := by
  induction hm : movesLeft s using Nat.strong_induction_on generalizing s with
  | _ m ih =>
    obtain ⟨s', he⟩ := hi.engineStep_next
    have hstep : step s = .next s' := by rw [step_alone s hs, he]
    obtain ⟨hidle, -⟩ | ⟨-, hmove⟩ := engineStep_cases s s' he
    · exact absurd hidle hbusy
    have hlt := hm ▸ hmove.movesLeft_lt
    by_cases hidle : s'.phase = .idle
    · exact ⟨1, s', by omega, runSteps_succ 0 s s' hstep, hidle, (hmove.ends hidle).1⟩
    · obtain ⟨n, t, hn, hrun, hdone⟩ := ih _ hlt (hi.engineMove hmove) (hmove.untouched.schedule.trans hs) hidle rfl
      exact ⟨n + 1, t, by omega, by rw [runSteps_succ n s s' hstep, hrun], hdone⟩

/-- Settles O60: the bound on the moves left, from any phase. -/
theorem everyOperationEnds : Obligations.EveryOperationEnds := by
  intro s hi hs hbusy
  obtain ⟨n, t, hn, h⟩ := hi.operation_ends hs hbusy
  exact ⟨n, t, hn.trans (movesLeft_le s), h⟩

end Sys2Proof.Machine
end

section
/-! The round trip (spec/43_extract.md R227 to R229): what EXTRACT recovers from an image that EMBED has written, bit by bit. -/

namespace Sys2Proof.Machine

/-! ### Recovered bits -/

theorem lbit_xor (v w : Word) (L bw : Nat) : lbit (v ^^^ w) L bw = (lbit v L bw ^^ lbit w L bw) :=
  BitVec.getLsbD_xor

/-- A recovered bit of an image that holds the embedded samples: the payload bit, in XOR_SOURCE mode flipped where the original sample and
the reference differ in its lane (43_extract.md R213, R229). -/
theorem recoveredBit_of_embedded {s u : State} {bw : Nat} (hlo : 1 ≤ bw) (hhi : bw ≤ 4) (hmode : u.cfg.mode = s.cfg.mode)
    (i : Nat) (hi : i < payloadBits s)
    (himage : readWord .pix (i / bw) u = embeddedSample bw (i / bw) (readWord .pix (i / bw) s) s) :
    recoveredBit u bw i = match modeOf s.cfg.mode with
      | .replace => payloadBit s i
      | .xorSource =>
        payloadBit s i ^^ lbit (readWord .pix (i / bw) s ^^^ readWord .ref (i / bw) u) (i % bw) bw := by
  have hindex : i / bw * bw + i % bw = i := Nat.div_add_mod' i bw
  have hsample := lbit_embeddedSample s bw (i / bw) (i % bw) (readWord .pix (i / bw) s) (Nat.mod_lt i hlo) (by omega)
  rw [hindex, if_pos hi] at hsample
  simp only [recoveredBit, channelIndex, recoveryValue, hmode, himage]
  cases hm : modeOf s.cfg.mode with
  | replace => simpa only [hm] using hsample
  | xorSource =>
    rw [hm] at hsample
    simp only [lbit_xor, hsample]
    cases payloadBit s i <;> simp

/-- The bit of a recovered byte that the payload's bit index names (42_embed.md R175). -/
theorem packBit_recoveredByte (u : State) (bw i : Nat) : packBit (recoveredByte u bw (i / 8)) (i % 8) = recoveredBit u bw i := by
  rw [recoveredByte, packBit_unpack _ _ (Nat.mod_lt i (by omega)), Nat.div_add_mod]

/-- A byte whose bits are the payload's is the payload's byte. -/
theorem recoveredByte_eq_of_bits {s u : State} {bw j : Nat}
    (h : ∀ t, t < 8 → recoveredBit u bw (8 * j + t) = payloadBit s (8 * j + t)) :
    recoveredByte u bw j = readByte .pay j s := by
  refine BitVec.eq_of_getLsbD_eq fun m hm => ?_
  rw [recoveredByte_getLsbD u bw j m hm, h (7 - m) (by omega), payloadBit, packBit,
    show (8 * j + (7 - m)) / 8 = j by omega, show 7 - (8 * j + (7 - m)) % 8 = m by omega]

/-! ### Both operations -/

/-- A touched pixel lies in PIXMEM. -/
theorem Transferable.pixel_lt {bw : Nat} {s : State} (h : Transferable bw s) {i : Nat} (hi : i < payloadBits s) :
    i / bw < s.params.pixDepth :=
  cursor_pixel_lt bw _ _ _ _ h.depth.1 h.fits hi h.geometry

/-- The configuration that both operations of a round trip share. -/
structure SameTransfer (s u : State) : Prop where
  depth : u.cfg.bitDepth = s.cfg.bitDepth
  mode : u.cfg.mode = s.cfg.mode
  geom : u.geom = s.geom
  length : u.length = s.length
  params : u.params = s.params

theorem SameTransfer.transferable {bw : Nat} {s u : State} (h : SameTransfer s u) (ht : Transferable bw s) :
    Transferable bw u := by
  obtain ⟨hdepth, -, hgeom, hlength, hparams⟩ := h
  obtain ⟨hd, hg, hf, hl⟩ := ht
  constructor
  · rw [hdepth]; exact hd
  · rw [hgeom, hparams]; exact hg
  · rw [hlength, hgeom]; exact hf
  · rw [hlength, hparams]; exact hl

theorem SameTransfer.touchedPixels_eq {s u : State} (h : SameTransfer s u) (bw : Nat) : touchedPixels bw u = touchedPixels bw s := by
  simp only [touchedPixels, payloadBits, h.length]

/-- The bits that an EXTRACT recovers from the image which a completed EMBED has left. -/
theorem SameTransfer.recoveredBit_eq {bw : Nat} {s t u : State} (h : SameTransfer s u) (ha : Accepted .embed s)
    (ht : Transferable bw s) (hrun : runSteps (2 + touchedPixels bw s) s = .next t)
    (himage : ∀ p, p < s.params.pixDepth → readWord .pix p u = readWord .pix p t) (i : Nat) (hi : i < payloadBits s) :
    recoveredBit u bw i = match modeOf s.cfg.mode with
      | .replace => payloadBit s i
      | .xorSource =>
        payloadBit s i ^^ lbit (readWord .pix (i / bw) s ^^^ readWord .ref (i / bw) u) (i % bw) bw := by
  obtain ⟨hlo, hhi, -⟩ := ht.depth
  obtain ⟨t', ht', -, -, hpixels⟩ := embedReachesItsClosedForm s bw ha ht
  obtain rfl : t = t' := Host.Outcome.next.inj (hrun.symm.trans ht')
  have hpixel := ht.pixel_lt hi
  have htouched : i / bw < touchedPixels bw s :=
    (lt_touchedPixels_iff bw s hlo _).2 (Nat.lt_of_le_of_lt (Nat.div_mul_le_self i bw) hi)
  refine recoveredBit_of_embedded hlo hhi h.mode i hi ?_
  rw [himage _ hpixel, hpixels _ hpixel, if_pos htouched]

/-- Settles O25: in REPLACE mode the recovered bits are the payload's, so the verdict is on the payload. -/
theorem roundTripInReplaceMode : Obligations.RoundTripInReplaceMode := by
  intro s t u bw enc ha ht hmode hrun hu henc hdepth hsame hgeom hlength hparams himage
  have hconf : SameTransfer s u := ⟨hdepth, hsame, hgeom, hlength, hparams⟩
  have hm : modeOf s.cfg.mode = .replace := by rw [hmode]; rfl
  have hbyte (j : Nat) (hj : j < s.length.toNat) : recoveredByte u bw j = readByte .pay j s :=
    recoveredByte_eq_of_bits fun k hk => by
      simpa only [hm] using hconf.recoveredBit_eq ha ht hrun himage (8 * j + k) (by unfold payloadBits; omega)
  have hpayload : ((List.range s.length.toNat).map fun j => recoveredByte u bw j) = payload s :=
    List.map_congr_left fun j hj => hbyte j (List.mem_range.1 hj)
  obtain ⟨t', ht', hidle, -, hr, -, -, hpay, hverdict⟩ :=
    extractReachesItsClosedForm u bw enc hu (hconf.transferable ht) henc
  rw [hconf.touchedPixels_eq] at ht'
  rw [hlength] at hr hpay hverdict
  rw [hpayload] at hverdict
  refine ⟨t', ht', hidle, hr, fun j hj => by rw [hpay, if_pos hj, hbyte j hj], ?_⟩
  cases hv : validate enc (payload s) with
  | none =>
    rw [hv] at hverdict
    obtain ⟨herr, hcode, -⟩ := hverdict
    exact ⟨herr, hcode⟩
  | some info =>
    rw [hv] at hverdict
    exact hverdict

/-- The EXTRACT of a round trip in XOR_SOURCE mode, up to what its recovered bytes are. -/
theorem SameTransfer.extracts {bw : Nat} {s u : State} (h : SameTransfer s u) (ht : Transferable bw s)
    (hu : Accepted .extract u) (henc : encodingOf u.cfg.enc ≠ none) :
    ∃ t', runSteps (2 + touchedPixels bw s) u = .next t' ∧ t'.phase = .idle ∧ t'.r.toNat = 8 * s.length.toNat ∧
      ∀ j, j < s.length.toNat → readByte .pay j t' = recoveredByte u bw j := by
  obtain ⟨enc, henc⟩ := Option.ne_none_iff_exists'.1 henc
  obtain ⟨t', ht', hidle, -, hr, -, -, hpay, -⟩ := extractReachesItsClosedForm u bw enc hu (h.transferable ht) henc
  rw [h.touchedPixels_eq] at ht'
  rw [h.length] at hr hpay
  exact ⟨t', ht', hidle, hr, fun j hj => by rw [hpay, if_pos hj]⟩

/-- Settles O26: where the reference is the original sample no bit is flipped. -/
theorem roundTripInXorSourceMode : Obligations.RoundTripInXorSourceMode := by
  intro s t u bw ha ht hmode hrun hu henc hdepth hsame hgeom hlength hparams himage hrefmem
  have hconf : SameTransfer s u := ⟨hdepth, hsame, hgeom, hlength, hparams⟩
  have hm : modeOf s.cfg.mode = .xorSource := by rw [hmode]; rfl
  obtain ⟨hlo, -, -⟩ := ht.depth
  obtain ⟨t', ht', hidle, hr, hpay⟩ := hconf.extracts ht hu henc
  refine ⟨t', ht', hidle, hr, fun j hj => ?_⟩
  rw [hpay j hj]
  refine recoveredByte_eq_of_bits fun k hk => ?_
  have hi : 8 * j + k < payloadBits s := by unfold payloadBits; omega
  have htouched : (8 * j + k) / bw < touchedPixels bw s :=
    (lt_touchedPixels_iff bw s hlo _).2 (Nat.lt_of_le_of_lt (Nat.div_mul_le_self _ bw) hi)
  have hbit := hconf.recoveredBit_eq ha ht hrun himage _ hi
  simpa only [hm, hrefmem _ htouched, BitVec.xor_self, lbit, BitVec.getLsbD_zero, Bool.xor_false] using hbit

/-- Settles O27: each recovered bit by `SameTransfer.recoveredBit_eq`, read back from the byte that holds it. -/
theorem wrongReferenceFlipsRecoveredBits : Obligations.WrongReferenceFlipsRecoveredBits := by
  intro s t u bw ha ht hmode hrun hu henc hdepth hsame hgeom hlength hparams himage
  have hconf : SameTransfer s u := ⟨hdepth, hsame, hgeom, hlength, hparams⟩
  have hm : modeOf s.cfg.mode = .xorSource := by rw [hmode]; rfl
  obtain ⟨t', ht', -, -, hpay⟩ := hconf.extracts ht hu henc
  refine ⟨t', ht', ?_⟩
  rintro i p L hi rfl rfl
  have hbyte : i / 8 < s.length.toNat := by unfold payloadBits at hi; omega
  rw [payloadBit, hpay _ hbyte, packBit_recoveredByte]
  simpa only [hm] using hconf.recoveredBit_eq ha ht hrun himage i hi

end Sys2Proof.Machine
end

section
/-! The capacity and the indexer (spec/41_capacity.md R151, R154, R155, 42_embed.md R170). -/

namespace Sys2Proof.Machine

theorem channelIndex_recompose (i bw : Nat) : i = (channelIndex i bw).1 * bw + (channelIndex i bw).2 :=
  (Nat.div_add_mod' i bw).symm

/-- Settles O28: the capacity is the whole bytes of the image's lanes, so a bit index below it has a pixel and a lane. -/
theorem capacityStaysInTheImage : Obligations.CapacityStaysInTheImage := by
  intro g bw hlo hhi
  have hbytes : 8 * capacityOf (pixelCount g) bw ≤ pixelCount g * bw := Nat.mul_div_le _ 8
  have hunused : pixelCount g * bw - 8 * capacityOf (pixelCount g) bw ≤ 7 := by
    unfold capacityOf
    omega
  refine ⟨pixelCount_le g, capacityOf_le g bw hhi, hbytes, hunused, fun i hi => ⟨?_, Nat.mod_lt i hlo⟩,
    fun i => channelIndex_recompose i bw⟩
  exact (Nat.div_lt_iff_lt_mul hlo).2 (Nat.lt_of_lt_of_le hi hbytes)

end Sys2Proof.Machine
end

section
/-! The registers as the host reads and writes them (spec/10_state.md R32 to R52, 20_memory.md R81, R89, R90, R95), and a reset of them
(70_reset_and_hazards.md R320, R321). -/

namespace Sys2Proof.Machine

/-! ### Reads -/

/-- Settles O35: a read leaves the state but for the response (`busStep_read`). -/
theorem readsHaveNoSideEffect : Obligations.ReadsHaveNoSideEffect := by
  intro t s hkind
  obtain ⟨a, e⟩ := busStep_read t s hkind
  rw [e]
  rfl

/-- A read of a register's offset is answered with the register's word, in every state (20_memory.md R89). -/
theorem busStep_memRead_csr (c : Csr) (off : Word) (s : State) (h : off.toNat = csrOffset c) :
    (busStep (memRead off) s).resp = some (.readOkay (csrRead c s)) := by
  rw [busStep_memRead s off (.csr c) (busTarget_csr s.params .read off 0#32 c h)]
  rfl

/-- Settles O36: the offsets are those of the constant registers, and neither depth is truncated. -/
theorem constantRegistersRead : Obligations.ConstantRegistersRead := by
  intro s
  have hpix := pixDepth_le s.params
  have hpay := payDepth_le s.params
  refine ⟨busStep_memRead_csr .id _ s rfl, busStep_memRead_csr .version _ s rfl, busStep_memRead_csr .cmd _ s rfl,
    ⟨_, busStep_memRead_csr .pixDepth _ s rfl, ?_⟩, ⟨_, busStep_memRead_csr .payDepth _ s rfl, ?_⟩⟩
  · exact Nat.mod_eq_of_lt (by omega)
  · exact Nat.mod_eq_of_lt (by omega)

/-! ### Register words as numbers -/

theorem statusWord_toNat (s : State) : (statusWord s).toNat =
    (if s.phase = .idle then 0 else 1) + 2 * s.status.done.toNat + 4 * s.status.err.toNat + 8 * s.status.haz.toNat := by
  have hbusy : s.busy.toNat = if s.phase = .idle then 0 else 1 := by
    unfold State.busy
    cases s.phase <;> rfl
  simp only [statusWord, append_toNat, BitVec.toNat_ofBool, BitVec.toNat_ofNat, hbusy]
  omega

theorem irqEnWord_toNat (e : IrqEn) :
    (irqEnWord e).toNat = e.doneIe.toNat + 2 * e.errIe.toNat + 4 * e.hazIe.toNat := by
  simp only [irqEnWord, append_toNat, BitVec.toNat_ofBool, BitVec.toNat_ofNat]
  omega

theorem cfgWord_toNat (c : Cfg) :
    (cfgWord c).toNat = c.bitDepth.toNat + 256 * c.enc.toNat + 65536 * c.mode.toNat := by
  simp only [cfgWord, append_toNat, BitVec.toNat_ofNat]
  omega

theorem geomWord_toNat (g : Geom) : (geomWord g).toNat = g.width.toNat + 65536 * g.height.toNat := by
  simp only [geomWord, append_toNat]
  omega

/-- ERR_CODE as a number (60_exceptions.md R281): four bits, so the wider register does not change it. -/
theorem csrRead_errCode_toNat (s : State) : (csrRead .errCode s).toNat = (errCodeOf s.errCode).toNat := by
  rw [csrRead, BitVec.toNat_setWidth, Nat.mod_eq_of_lt (by omega)]

/-- Settles O37: each offset is that of its register (`busStep_memRead_csr`), and each register word is the sum of its fields. -/
theorem fieldsStandAtTheirBits : Obligations.FieldsStandAtTheirBits := by
  intro s
  refine ⟨⟨busStep_memRead_csr .status _ s rfl, statusWord_toNat s⟩, ⟨busStep_memRead_csr .irqEn _ s rfl, irqEnWord_toNat _⟩,
    ⟨busStep_memRead_csr .cfg _ s rfl, cfgWord_toNat _⟩, ⟨busStep_memRead_csr .geom _ s rfl, geomWord_toNat _⟩,
    busStep_memRead_csr .length _ s rfl, busStep_memRead_csr .capacity _ s rfl,
    ⟨busStep_memRead_csr .errCode _ s rfl, ?code⟩, busStep_memRead_csr .errInfo _ s rfl,
    busStep_memRead_csr .bitcnt _ s rfl, busStep_memRead_csr .idxIn _ s rfl, busStep_memRead_csr .idxPixel _ s rfl,
    ⟨busStep_memRead_csr .idxLane _ s rfl, ?lane⟩⟩
  case code =>
    rw [csrRead_errCode_toNat]
    cases s.errCode <;> rfl
  case lane => rw [csrRead_idxLane_toNat, Nat.add_comm]

/-! ### Writes read back -/

/-- The bits of CFG's fields: BIT_DEPTH and ENC below bit 10, and MODE (10_state.md R38). -/
theorem cfgMask_getLsbD : ∀ i, i < 32 → (0x000103FF#32).getLsbD i = decide (i < 10 ∨ i = 16) := by decide

/-- CFG keeps the bits of its fields and drops the reserved ones (10_state.md R38). -/
theorem cfgWord_cfgOfWord (v : Word) : cfgWord (cfgOfWord v) = v &&& 0x000103FF#32 := by
  refine BitVec.eq_of_getLsbD_eq fun i hi => ?_
  rw [BitVec.getLsbD_and, cfgMask_getLsbD i hi]
  simp only [cfgWord, cfgOfWord, BitVec.getLsbD_append, BitVec.getLsbD_extractLsb', BitVec.getLsbD_zero]
  by_cases hdepth : i < 8
  · simp [hdepth, show i < 10 by omega]
  by_cases henc : i < 10
  · simp [hdepth, henc, show i - 8 < 2 by omega, show 8 + (i - 8) = i by omega]
  by_cases hgap : i < 16
  · simp [hdepth, henc, show ¬ i - 8 < 2 by omega, show i - 8 - 2 < 6 by omega, show i ≠ 16 by omega]
  by_cases hmode : i = 16
  · subst hmode; simp
  · simp [hdepth, henc, hmode, show ¬ i - 8 < 2 by omega, show ¬ i - 8 - 2 < 6 by omega, show ¬ i - 8 - 2 - 6 < 1 by omega]

/-- GEOM's fields fill its word (10_state.md R42). -/
theorem geomWord_geomOfWord (v : Word) : geomWord (geomOfWord v) = v := by
  refine BitVec.eq_of_getLsbD_eq fun i hi => ?_
  simp only [geomWord, geomOfWord, BitVec.getLsbD_append, BitVec.getLsbD_extractLsb']
  by_cases hwidth : i < 16
  · simp [hwidth]
  · simp [hwidth, show i - 16 < 16 by omega, show 16 + (i - 16) = i by omega]

/-- The enables are the three lowest bits of IRQ_EN (10_state.md R37). -/
theorem irqEnMask_getLsbD : ∀ i, i < 32 → (0x7#32).getLsbD i = decide (i < 3) := by decide

theorem irqEnWord_irqEnOfWord (v : Word) : irqEnWord (irqEnOfWord v) = v &&& 0x7#32 := by
  refine BitVec.eq_of_getLsbD_eq fun i hi => ?_
  rw [BitVec.getLsbD_and, irqEnMask_getLsbD i hi]
  simp only [irqEnWord, irqEnOfWord, BitVec.getLsbD_append, ofBool_getLsbD, BitVec.getLsbD_zero]
  match i with
  | 0 => simp
  | 1 => simp
  | 2 => simp
  | i + 3 => simp

/-- Settles O38: while IDLE the write of a register is its `csrWrite`, and only CFG has reserved bits to drop. -/
theorem idleConfigurationWritesAreStored : Obligations.IdleConfigurationWritesAreStored := by
  intro s v hidle
  exact ⟨⟨cfgOfWord v, busStep_memWrite_csr_idle .cfg _ v s rfl hidle, cfgWord_cfgOfWord v⟩,
    ⟨geomOfWord v, busStep_memWrite_csr_idle .geom _ v s rfl hidle, geomWord_geomOfWord v⟩,
    busStep_memWrite_csr_idle .length _ v s rfl hidle, busStep_memWrite_csr_idle .idxIn _ v s rfl hidle⟩

/-- Settles O39: neither register is guarded by BUSY (`busStep_memWrite_status`, `busStep_memWrite_irqEn`). -/
theorem statusAndIrqEnWritesAlwaysAct : Obligations.StatusAndIrqEnWritesAlwaysAct := by
  intro s v
  exact ⟨⟨statusWrite1Clear v s.status, busStep_memWrite_status v s, rfl, rfl, rfl⟩,
    ⟨irqEnOfWord v, busStep_memWrite_irqEn v s, irqEnWord_irqEnOfWord v⟩⟩

/-! ### Reset -/

/-- What a register reads after a reset: 0, but for the constant ones (70_reset_and_hazards.md R320). -/
def csrResetWord (p : Params) : Csr → Word
  | .id => 0x4C534243#32
  | .version => 0x00010000#32
  | .pixDepth => BitVec.ofNat 32 p.pixDepth
  | .payDepth => BitVec.ofNat 32 p.payDepth
  | _ => 0#32

theorem csrRead_resetBlock (s : State) (c : Csr) : csrRead c (resetBlock s) = csrResetWord s.params c := by
  cases c with
  | status => exact (by decide : statusWord State.reset = 0#32)
  | irqEn => exact (by decide : irqEnWord State.reset.irqEn = 0#32)
  | cfg => exact (by decide : cfgWord State.reset.cfg = 0#32)
  | geom => exact (by decide : geomWord State.reset.geom = 0#32)
  | idxLane => exact (by decide : idxLaneWord State.reset.idxLane = 0#32)
  | _ => rfl

/-- Settles O49: the reset that is scheduled is `resetBlock`, which keeps the memories, the parameters and the rest of the schedule. -/
theorem resetClearsRegistersAndKeepsMemories : Obligations.ResetClearsRegistersAndKeepsMemories := by
  intro s es hs
  refine ⟨_, step_of_reset s es hs, fun c => (csrRead_resetBlock _ c).trans ?_, rfl, rfl, rfl, rfl, rfl, rfl, rfl, rfl, rfl, rfl⟩
  cases c <;> rfl

/-- Settles O50: the state at power-up is the reset of itself. -/
theorem resetStateReadsItsResetValues : Obligations.ResetStateReadsItsResetValues := by
  refine ⟨fun c => (csrRead_resetBlock State.reset c).trans ?_, rfl, rfl, fun id => ?_⟩
  · cases c <;> rfl
  · cases id <;> rfl

end Sys2Proof.Machine
end

section
/-! The memory windows as the host reads and writes them (spec/20_memory.md R82 to R84, R91, R92). -/

namespace Sys2Proof.Machine

/-- A read of a window is answered with the current word, in every state (20_memory.md R91). -/
theorem busStep_memRead_window (id : MemId) (k : Nat) (off : Word) (s : State) (hk : k < memWords s.params id)
    (hoff : off.toNat = windowBase id + 4 * k) : busStep (memRead off) s = respond (.readOkay (readWord id k s)) s :=
  busStep_memRead s off (.word id k) (busTarget_windowOffset s.params .read id k off 0#32 hk hoff)

/-- A write of a window while IDLE stores the word (20_memory.md R92). -/
theorem busStep_memWrite_window_idle (id : MemId) (k : Nat) (off v : Word) (s : State) (hk : k < memWords s.params id)
    (hoff : off.toNat = windowBase id + 4 * k) (hidle : s.phase = .idle) :
    busStep (memWrite off v) s = respond .writeOkay (writeWord id k v s) := by
  rw [busStep_memWrite s off v (.word id k) (busTarget_windowOffset s.params .write id k off v hk hoff),
    acceptedWrite_idle _ v s hidle]
  rfl

theorem readWord_writeWord_same (id : MemId) (k : Nat) (v : Word) (s : State) : readWord id k (writeWord id k v s) = v := by
  rw [readWord_writeWord, if_pos ⟨rfl, rfl⟩]

theorem readByte_writeWord_outside (id : MemId) (k a : Nat) (v : Word) (s : State) (ha : a < 4 * k ∨ 4 * k + 4 ≤ a) :
    readByte id a (writeWord id k v s) = readByte id a s := by
  rw [readByte_writeWord, if_neg (by omega)]

theorem readByte_writeWord_inside (id : MemId) (k i : Nat) (v : Word) (s : State) (hi : i < 4) :
    readByte id (4 * k + i) (writeWord id k v s) = v.extractLsb' (8 * i) 8 := by
  rw [readByte_writeWord, if_pos ⟨rfl, by omega, by omega⟩, Nat.add_sub_cancel_left]

/-- A word just written is read back. -/
theorem busStep_memRead_written (id : MemId) (k : Nat) (off v : Word) (s : State) (hk : k < memWords s.params id)
    (hoff : off.toNat = windowBase id + 4 * k) :
    (busStep (memRead off) (writeWord id k v s)).resp = some (.readOkay v) := by
  rw [busStep_memRead_window id k off _ (by rwa [writeWord_params]) hoff, readWord_writeWord_same, respond_resp]

/-- Settles O42: the rules of a window, for PIXMEM and for REFMEM, where `writeWord` changes the memory of its name only. -/
theorem windowWritesAreReadBack : Obligations.WindowWritesAreReadBack := by
  intro s k v off hk
  exact ⟨fun hoff => ⟨busStep_memRead_window .pix k off s hk hoff, fun hidle =>
      ⟨_, busStep_memWrite_window_idle .pix k off v s hk hoff hidle, busStep_memRead_written .pix k off v s hk hoff,
        fun a => readByte_writeWord_outside .pix k a v s⟩⟩,
    fun hoff => ⟨busStep_memRead_window .ref k off s hk hoff, fun hidle =>
      ⟨_, busStep_memWrite_window_idle .ref k off v s hk hoff hidle, busStep_memRead_written .ref k off v s hk hoff,
        fun a => readByte_writeWord_outside .ref k a v s⟩⟩⟩

/-- Settles O43: a word's bytes are those of PAYMEM, the lowest first, as `readWord_extract` reads and `readByte_writeWord_inside`
writes them. -/
theorem payWindowIsLittleEndian : Obligations.PayWindowIsLittleEndian := by
  intro s k v off hk hoff
  exact ⟨⟨_, busStep_memRead_window .pay k off s hk hoff, fun i => readWord_extract .pay k s i⟩, fun hidle =>
    ⟨_, busStep_memWrite_window_idle .pay k off v s hk hoff hidle, fun i => readByte_writeWord_inside .pay k i v s,
      fun a => readByte_writeWord_outside .pay k a v s⟩⟩

end Sys2Proof.Machine
end

section
/-! Transactions made twice (spec/20_memory.md R99), and a POLL (30_encoding.md R128). -/

namespace Sys2Proof.Machine

/-! ### The response and the schedule are no part of a transaction's effect -/

theorem targetRead_frame (g : Target) (s : State) (es : List Event) (a : Option BusResp) :
    targetRead g { s with schedule := es, resp := a } = targetRead g s := by
  cases g with
  | csr c => cases c <;> rfl
  | reserved => rfl
  | word id k => exact readWord_congr _ s id k (by cases id <;> rfl)

theorem targetRead_respond (g : Target) (a : BusResp) (s : State) : targetRead g (respond a s) = targetRead g s :=
  targetRead_frame g s s.schedule (some a)

theorem acceptedWrite_respond (g : Target) (v : Word) (a : BusResp) (s : State) :
    acceptedWrite g v (respond a s) = respond a (acceptedWrite g v s) := by
  have hwrite : targetWrite g v (respond a s) = respond a (targetWrite g v s) := by
    cases g with
    | csr c => cases c <;> rfl
    | reserved => rfl
    | word id k => cases id <;> rfl
  have hbusy : (respond a s).busy = s.busy := rfl
  simp only [acceptedWrite, hbusy, hwrite]
  split <;> rfl

/-! ### Writes made twice -/

/-- Every write but that of `CMD` stores a value, or clears flags, and leaves the phase. -/
theorem targetWrite_targetWrite (g : Target) (v : Word) (s : State) (hcmd : g ≠ .csr .cmd) :
    targetWrite g v (targetWrite g v s) = targetWrite g v s ∧ (targetWrite g v s).busy = s.busy := by
  cases g with
  | reserved => exact ⟨rfl, rfl⟩
  | word id k =>
    refine ⟨?_, by simp only [targetWrite, State.busy, writeWord_phase]⟩
    cases id <;> simp only [targetWrite, writeWord, State.memory, State.setMemory, Memory.writeWord_writeWord]
  | csr c =>
    cases c with
    | cmd => exact absurd rfl hcmd
    | status =>
      refine ⟨?_, rfl⟩
      simp only [targetWrite, csrWrite, statusWrite1Clear, Bool.and_assoc, Bool.and_self]
    | _ => exact ⟨rfl, rfl⟩

theorem acceptedWrite_acceptedWrite (g : Target) (v : Word) (s : State) (hcmd : g ≠ .csr .cmd) :
    acceptedWrite g v (acceptedWrite g v s) = acceptedWrite g v s := by
  by_cases hdrop : (s.busy && targetGuarded g) = true
  · have hdropped : acceptedWrite g v s = setHaz s := if_pos hdrop
    have hagain : acceptedWrite g v (setHaz s) = setHaz (setHaz s) := if_pos hdrop
    rw [hdropped, hagain]
    rfl
  · obtain ⟨htwice, hbusy⟩ := targetWrite_targetWrite g v s hcmd
    have hacts : acceptedWrite g v s = targetWrite g v s := if_neg hdrop
    have hagain : acceptedWrite g v (targetWrite g v s) = targetWrite g v (targetWrite g v s) := if_neg (by rwa [hbusy])
    rw [hacts, hagain, htwice]

theorem acceptedWrite_params (g : Target) (v : Word) (s : State) : (acceptedWrite g v s).params = s.params := by
  unfold acceptedWrite
  split
  · rfl
  · cases g with
    | csr c => cases c <;> rfl
    | reserved => rfl
    | word id k => exact writeWord_params s id k v

theorem busStep_of_read (t : BusTxn) (g : Target) (s : State) (hkind : t.kind = .read) (h : busTarget s.params t = some g) :
    busStep t s = respond (.readOkay (targetRead g s)) s := by
  simp only [busStep, h, hkind]

theorem busStep_of_write (t : BusTxn) (g : Target) (s : State) (hkind : t.kind = .write) (h : busTarget s.params t = some g) :
    busStep t s = respond .writeOkay (acceptedWrite g t.wdata s) := by
  simp only [busStep, h, hkind]

/-- Settles O44: the first transaction leaves the target and the data of the second, and a write other than of `CMD` stores what it stored
before. -/
theorem repeatedTransactionsAreIdempotent : Obligations.RepeatedTransactionsAreIdempotent := by
  intro t s hoff
  rcases busStep_cases t s with ⟨hnone, e⟩ | ⟨g, htarget, hkind, e⟩ | ⟨g, htarget, hkind, e⟩ <;> rw [e]
  · exact busStep_none t (respond .slverr s) hnone
  · rw [busStep_of_read t g (respond _ s) hkind htarget, targetRead_respond]
    rfl
  · have hcmd : g ≠ .csr .cmd := by
      rintro rfl
      obtain ⟨-, -, hmap⟩ := busTarget_some s.params t _ htarget
      exact hoff (BitVec.eq_of_toNat_eq (csrOffset_of_addressMap s.params _ .cmd hmap))
    rw [busStep_of_write t g (respond _ _) hkind (by rwa [respond_params, acceptedWrite_params]), acceptedWrite_respond,
      acceptedWrite_acceptedWrite g t.wdata s hcmd]
    rfl

/-! ### POLL -/

/-- What is scheduled after a read is no part of its answer. -/
theorem busStep_memRead_schedule (off d : Word) (s : State) (es : List Event)
    (h : (busStep (memRead off) s).resp = some (.readOkay d)) :
    busStep (memRead off) { s with schedule := es } = { s with schedule := es, resp := some (.readOkay d) } := by
  rcases busStep_cases (memRead off) s with ⟨-, e⟩ | ⟨g, htarget, hkind, e⟩ | ⟨g, -, hkind, -⟩
  · rw [e, respond_resp] at h; cases h
  · rw [e, respond_resp] at h
    have hread : targetRead g { s with schedule := es } = targetRead g s := targetRead_frame g s es s.resp
    rw [busStep_of_read _ g { s with schedule := es } hkind htarget, hread, respond, h]
  · cases hkind

/-- Settles O46: the POLL's step is its read, and the masked data decides whether it stays scheduled. -/
theorem pollRepeatsUntilTheDataMatches : Obligations.PollRepeatsUntilTheDataMatches := by
  intro s off mask val d es hs hread
  have hstep := step_of_poll s off mask val es hs
  rw [pollStep, busStep_memRead_schedule off d s es hread] at hstep
  refine ⟨fun hmatch => hstep.trans ?_, fun hmiss => hstep.trans ?_⟩
  · rw [if_pos (by simpa only [pollMatches, beq_iff_eq] using hmatch)]
  · rw [if_neg (by simpa only [pollMatches, beq_iff_eq] using hmiss)]

end Sys2Proof.Machine
end

section
/-! The host-program notation (spec/30_encoding.md R128 to R131): what the statements expand to, and how a loaded program's events lie among
the engine's turns. -/

namespace Sys2Proof.Machine

/-! ### Expansion -/

/-- A field put above the bits of a number below it. -/
theorem or_shiftLeft_eq_add (a b i : Nat) (ha : a < 2 ^ i) : a ||| b <<< i = a + 2 ^ i * b := by
  rw [Nat.or_comm, ← Nat.shiftLeft_add_eq_or_of_lt ha, Nat.shiftLeft_eq, Nat.add_comm, Nat.mul_comm]

theorem setcfg_word (bd enc mode : Nat) (hbd : bd < 256) (henc : enc < 4) (hmode : mode < 2) :
    (BitVec.ofNat 32 (bd ||| enc <<< 8 ||| mode <<< 16)).toNat = bd + 256 * enc + 65536 * mode := by
  rw [or_shiftLeft_eq_add bd enc 8 hbd, or_shiftLeft_eq_add _ mode 16 (by omega)]
  exact Nat.mod_eq_of_lt (by omega)

theorem setgeom_word (w h : Nat) (hw : w < 65536) (hh : h < 65536) :
    (BitVec.ofNat 32 (w ||| h <<< 16)).toNat = w + 65536 * h := by
  rw [or_shiftLeft_eq_add w h 16 hw]
  exact Nat.mod_eq_of_lt (by omega)

/-- A word index inside the 2^26 words of a window does not wrap (20_memory.md R80). -/
theorem windowWord_toNat_of_lt (id : MemId) (k : Nat) (hk : k < 67108864) :
    (windowWord id k).toNat = windowBase id + 4 * k := by
  refine Nat.mod_eq_of_lt ?_
  cases id <;> simp only [windowBase] <;> omega

/-- The writes that LOADPIX and LOADREF expand to: word `j` to index `p + j` of the window. -/
theorem loadWords_writes (id : MemId) (p : Nat) (vs : List Word) (hfit : p + vs.length ≤ 67108864) (j : Nat) (v : Word)
    (hv : vs[j]? = some v) :
    ∃ off, (loadWords id p vs)[j]? = some (.wr off v) ∧ off.toNat = windowBase id + 4 * (p + j) := by
  have hj : j < vs.length := (List.getElem?_eq_some_iff.1 hv).1
  refine ⟨windowWord id (p + j), ?_, windowWord_toNat_of_lt id (p + j) (by omega)⟩
  rw [getElem?_loadWords, hv, Option.map_some]

/-- Settles O47: the base statements and the single writes by their definitions, the fields of SETCFG and SETGEOM as a sum, and the loads
word by word. -/
theorem pseudoStatementsExpand : Obligations.PseudoStatementsExpand := by
  refine ⟨fun _ _ => rfl, fun _ _ => rfl, fun _ _ _ => rfl, fun bd enc mode hwf => ?setcfg, fun w h hwf => ?setgeom,
    fun _ => rfl, rfl, rfl, fun p vs hwf => ?loadpix, fun p vs hwf => ?loadref, fun bs hwf => ?loadpay⟩
  case setcfg =>
    simp only [HostStmt.wellFormed, Bool.and_eq_true, decide_eq_true_eq] at hwf
    obtain ⟨⟨hbd, henc⟩, hmode⟩ := hwf
    exact ⟨_, rfl, setcfg_word bd enc mode hbd henc hmode⟩
  case setgeom =>
    simp only [HostStmt.wellFormed, Bool.and_eq_true, decide_eq_true_eq] at hwf
    exact ⟨_, rfl, setgeom_word w h hwf.1 hwf.2⟩
  case loadpix =>
    exact ⟨length_loadWords .pix vs p, loadWords_writes .pix p vs (of_decide_eq_true hwf)⟩
  case loadref =>
    exact ⟨length_loadWords .ref vs p, loadWords_writes .ref p vs (of_decide_eq_true hwf)⟩
  case loadpay =>
    have hfit : bs.length ≤ 268435456 := of_decide_eq_true hwf
    obtain ⟨hlen, hwords⟩ := packBytes_spec bs
    refine ⟨(length_loadWords .pay _ 0).trans hlen, fun k hk => ?_⟩
    obtain ⟨w, hw, hbytes⟩ := hwords k hk
    obtain ⟨off, hoff, hnat⟩ := loadWords_writes .pay 0 (packBytes bs) (by omega) k w hw
    exact ⟨off, w, hoff, by rw [hnat, Nat.zero_add]; rfl, hbytes⟩

/-! ### Loading -/

/-- One more turn of the engine before the first event left, or after all of them, is another choice of gaps. -/
theorem engine_cons_interleave (gaps : List Nat) (evs : List Event) (n : Nat) :
    ∃ gaps' n', Event.engine :: (interleave gaps evs ++ List.replicate n .engine) =
      interleave gaps' evs ++ List.replicate n' .engine := by
  cases evs with
  | nil => exact ⟨gaps, n + 1, by cases gaps <;> rfl⟩
  | cons e evs =>
    cases gaps with
    | nil => exact ⟨[1], n, rfl⟩
    | cons g gaps => exact ⟨(g + 1) :: gaps, n, rfl⟩

/-- Every mixture of events with turns of the engine is some choice of gaps, with turns after the last event. -/
theorem exists_interleave (es : List Event) :
    ∃ gaps n, es = interleave gaps (es.filter fun e => decide (e ≠ .engine)) ++ List.replicate n .engine := by
  induction es with
  | nil => exact ⟨[], 0, rfl⟩
  | cons e es ih =>
    obtain ⟨gaps, n, ih⟩ := ih
    by_cases he : e = .engine
    · obtain ⟨gaps', n', hmore⟩ := engine_cons_interleave gaps (es.filter fun e => decide (e ≠ .engine)) n
      refine ⟨gaps', n', ?_⟩
      rw [List.filter_cons_of_neg (by simp [he]), ← hmore, ← ih, he]
    · refine ⟨0 :: gaps, n, ?_⟩
      rw [List.filter_cons_of_pos (by simp [he])]
      exact congrArg (e :: ·) ih

/-- Settles O48: interleaving adds turns of the engine and nothing else (`filter_interleave`, `filterMap_interleave`), and every such
mixture is an interleaving (`exists_interleave`). -/
theorem loadedProgramsInterleaveFreely : Obligations.LoadedProgramsInterleaveFreely := by
  intro prog s
  have hevents : ∀ e ∈ (expandAll prog).map BaseStmt.event, e ≠ .engine := by
    intro e he
    obtain ⟨b, -, rfl⟩ := List.mem_map.1 he
    exact b.event_ne_engine
  refine ⟨fun gaps => ⟨interleave gaps ((expandAll prog).map BaseStmt.event), rfl, ?txns, filter_interleave _ hevents gaps⟩,
    fun es hes => ?choice⟩
  case txns =>
    rw [filterMap_interleave, List.filterMap_map, encodeProgram, ← List.filterMap_eq_map]
    exact List.filterMap_congr fun b _ => eventTxn_event b
  case choice =>
    obtain ⟨gaps, n, hmix⟩ := exists_interleave es
    rw [hes] at hmix
    exact ⟨gaps, n, by rw [loadProgram, List.append_assoc, ← hmix]⟩

end Sys2Proof.Machine
end
